-- ==== Sys2Proof/Word.lean ====
section
/-! DEFINITION. The widths of the engine's words (R10, R13, R21, R90): plain names for bit vectors. -/

namespace Sys2Proof

/-- One octet of a frame (R12: "An octet is eight bits"). -/
abbrev Octet := BitVec 8

/-- One command word (R90: "Every command is exactly 32 bits"). -/
abbrev CmdWord := BitVec 32

/-- The pattern of a timestamp or distance register, `TSW` = 128 bits, two's complement (R10, R21). -/
abbrev TsWord := BitVec 128

/-- A raw value of the 40-bit hardware counter (R9, R37, R273). -/
abbrev Raw40 := BitVec 40

end Sys2Proof
end

