-- ==== Sys2Proof/Syntax.lean ====
section
/-! DEFINITION. The 20 commands of R94, one constructor per row of the opcode table, and the seven frame kinds. -/

namespace Sys2Proof

/-- A timestamp register number: "a 4-bit unsigned number that selects `T[0]` to `T[15]`; all 16 values are legal" (R93). -/
abbrev Reg := Fin 16

/-- The frame kind field of `FC.ENC` and `FC.DEC`: "a 4-bit unsigned number of which 0 to 6 are legal" (R93). -/
abbrev KindNum := Fin 16

/-- The seven frame kinds (R160). -/
inductive Kind where
  | blink | rinit | poll | resp | final | confirm | finished
  deriving DecidableEq, Repr

/-- The commands (R94). Register fields are in the order `rd`, `ra`, `rb` of R91. -/
inductive Instr where
  | tsFromraw (rd : Reg)
  | tsToraw (ra : Reg)
  | tsAdd (rd ra rb : Reg)
  | tsSub (rd ra rb : Reg)
  | tsMuls (rd ra : Reg)
  | tsDivs (rd ra : Reg)
  | tsMult (rd ra rb : Reg)
  | tsDivt (rd ra rb : Reg)
  | tsWrap (rd ra : Reg)
  | tsValid (ra : Reg)
  | tsTous (ra : Reg)
  | tsTom (ra : Reg)
  | rngCompute
  | rngCorrect
  | fcEnc (k : KindNum)
  | fcDec (k : KindNum)
  | sesTag
  | sesAnchor
  | sesAdmit
  | sesClear
  deriving DecidableEq, Repr

end Sys2Proof
end

