-- ==== Sys2Proof/WellFormed.lean ====
section
/-! DEFINITION. Which commands are in a legal form: the one operand check of R95, the frame kind (test 4). -/

namespace Sys2Proof

/-- A command is well formed when its frame kind, if it has one, is 0 to 6 (R93, R95 test 4). -/
def Instr.wf : Instr → Bool
  | .tsFromraw _ => true
  | .tsToraw _ => true
  | .tsAdd _ _ _ => true
  | .tsSub _ _ _ => true
  | .tsMuls _ _ => true
  | .tsDivs _ _ => true
  | .tsMult _ _ _ => true
  | .tsDivt _ _ _ => true
  | .tsWrap _ _ => true
  | .tsValid _ => true
  | .tsTous _ => true
  | .tsTom _ => true
  | .rngCompute => true
  | .rngCorrect => true
  | .fcEnc k => decide (k.val < 7)
  | .fcDec k => decide (k.val < 7)
  | .sesTag => true
  | .sesAnchor => true
  | .sesAdmit => true
  | .sesClear => true

end Sys2Proof
end

