-- ==== Sys2Proof/Decode.lean ====
section
/-! DEFINITION. The command word: its fields (R91), formats (R92), opcode map (R94), the part of the acceptance
test that looks at the word alone (R95 tests 2 to 4), and the encoder. -/

namespace Sys2Proof

/-- The six formats of R92. -/
inductive Format where
  | N | D | A | DA | DAB | K
  deriving DecidableEq, Repr

/-- Why a word is no command, by the names of R261. -/
inductive DecodeError where
  /-- `w[31:24]` is not one of the 20 opcodes (R95 test 2). -/
  | illegalOpcode
  /-- A must-be-zero bit of the command's format is 1 (R95 test 3). -/
  | reservedBits
  /-- `FC.ENC` or `FC.DEC` with `k >= 7` (R95 test 4). -/
  | badKind
  deriving DecidableEq, Repr

/-- The bits below the opcode that a format requires to be 0 (R92, column "must be zero"). -/
def Format.mustBeZero : Format → CmdWord
  | .N   => 0x00FFFFFF#32
  | .D   => 0x000FFFFF#32
  | .A   => 0x00F0FFFF#32
  | .DA  => 0x0000FFFF#32
  | .DAB => 0x00000FFF#32
  | .K   => 0x000FFFFF#32

/-- The opcode field, bits 31:24 (R91). -/
def opField (w : CmdWord) : Octet := w.extractLsb' 24 8

/-- The destination field, bits 23:20 (R91); in format `K` the frame kind. -/
def rdField (w : CmdWord) : Reg := (w.extractLsb' 20 4).toFin

/-- The first source field, bits 19:16 (R91). -/
def raField (w : CmdWord) : Reg := (w.extractLsb' 16 4).toFin

/-- The second source field, bits 15:12 (R91). -/
def rbField (w : CmdWord) : Reg := (w.extractLsb' 12 4).toFin

/-- The opcode map of R94: the format of an opcode, and the command it makes of the fields `rd`, `ra`, `rb`. -/
def opcodeRow (op : Octet) : Option (Format × (Reg → Reg → Reg → Instr)) :=
  match op.toNat with
  | 0x10 => some (.D,   fun rd _ _ => .tsFromraw rd)
  | 0x11 => some (.A,   fun _ ra _ => .tsToraw ra)
  | 0x12 => some (.DAB, fun rd ra rb => .tsAdd rd ra rb)
  | 0x13 => some (.DAB, fun rd ra rb => .tsSub rd ra rb)
  | 0x14 => some (.DA,  fun rd ra _ => .tsMuls rd ra)
  | 0x15 => some (.DA,  fun rd ra _ => .tsDivs rd ra)
  | 0x16 => some (.DAB, fun rd ra rb => .tsMult rd ra rb)
  | 0x17 => some (.DAB, fun rd ra rb => .tsDivt rd ra rb)
  | 0x18 => some (.DA,  fun rd ra _ => .tsWrap rd ra)
  | 0x19 => some (.A,   fun _ ra _ => .tsValid ra)
  | 0x1A => some (.A,   fun _ ra _ => .tsTous ra)
  | 0x1B => some (.A,   fun _ ra _ => .tsTom ra)
  | 0x20 => some (.N,   fun _ _ _ => .rngCompute)
  | 0x21 => some (.N,   fun _ _ _ => .rngCorrect)
  | 0x30 => some (.K,   fun k _ _ => .fcEnc k)
  | 0x31 => some (.K,   fun k _ _ => .fcDec k)
  | 0x40 => some (.N,   fun _ _ _ => .sesTag)
  | 0x41 => some (.N,   fun _ _ _ => .sesAnchor)
  | 0x42 => some (.N,   fun _ _ _ => .sesAdmit)
  | 0x43 => some (.N,   fun _ _ _ => .sesClear)
  | _ => none

/-- "every 32-bit word maps to an accepted command or to one rejection code" (R96): tests 2, 3 and 4 of R95 in
their order. Tests 1 and 5 read the state and are in the commands' meanings. -/
def decode (w : CmdWord) : Except DecodeError Instr :=
  match opcodeRow (opField w) with
  | none => .error .illegalOpcode
  | some (f, mk) =>
    if w &&& f.mustBeZero ≠ 0#32 then .error .reservedBits
    else if (mk (rdField w) (raField w) (rbField w)).wf then .ok (mk (rdField w) (raField w) (rbField w))
    else .error .badKind

/-- A word from its fields: `op ++ rd ++ ra ++ rb ++ zero` (R91). -/
def packWord (op : Octet) (rd ra rb : Fin 16) : CmdWord :=
  op ++ BitVec.ofFin (w := 4) rd ++ BitVec.ofFin (w := 4) ra ++ BitVec.ofFin (w := 4) rb ++ 0#12

/-- The word of a command (R94): the row's opcode, its fields, 0 in every field its format does not use. -/
def encode : Instr → CmdWord
  | .tsFromraw rd    => packWord 0x10#8 rd 0 0
  | .tsToraw ra      => packWord 0x11#8 0 ra 0
  | .tsAdd rd ra rb  => packWord 0x12#8 rd ra rb
  | .tsSub rd ra rb  => packWord 0x13#8 rd ra rb
  | .tsMuls rd ra    => packWord 0x14#8 rd ra 0
  | .tsDivs rd ra    => packWord 0x15#8 rd ra 0
  | .tsMult rd ra rb => packWord 0x16#8 rd ra rb
  | .tsDivt rd ra rb => packWord 0x17#8 rd ra rb
  | .tsWrap rd ra    => packWord 0x18#8 rd ra 0
  | .tsValid ra      => packWord 0x19#8 0 ra 0
  | .tsTous ra       => packWord 0x1A#8 0 ra 0
  | .tsTom ra        => packWord 0x1B#8 0 ra 0
  | .rngCompute      => packWord 0x20#8 0 0 0
  | .rngCorrect      => packWord 0x21#8 0 0 0
  | .fcEnc k         => packWord 0x30#8 k 0 0
  | .fcDec k         => packWord 0x31#8 k 0 0
  | .sesTag          => packWord 0x40#8 0 0 0
  | .sesAnchor       => packWord 0x41#8 0 0 0
  | .sesAdmit        => packWord 0x42#8 0 0 0
  | .sesClear        => packWord 0x43#8 0 0 0

/-- The command the decoder reads from an `nbits`-bit instruction `w`. A command is exactly 32 bits (R90), so a
number that needs more is no command. -/
def decodeTableWord (nbits w : Nat) : Option Instr :=
  if w % 2 ^ nbits < 2 ^ 32 then
    match decode (BitVec.ofNat 32 (w % 2 ^ nbits)) with
    | .ok i => some i
    | .error _ => none
  else none

end Sys2Proof
end

