-- ==== Sys2Proof/Config.lean ====
section
/-! DEFINITION. What the spec leaves open: the OPEN parameters of R11 with the constraints that are part of their
type, the formats of the transceiver's answers (R270), and the free values, constants without a body. -/

namespace Sys2Proof

/-- One row `(P, B)` of a bias table (R11, R151): power in 10^-3 dBm and bias in millimetres, both signed 32-bit. -/
structure BiasRow where
  p : BitVec 32
  b : BitVec 32
  deriving DecidableEq, Repr

/-- One bias table: `NBP` = 18 rows (R9, R151). -/
abbrev BiasTable := Vector BiasRow 18

/-- The OPEN parameters (R11). The two constraints of R11 are proof fields, as U3 asks: "a model should make the
precondition part of the parameter's type". -/
structure Params where
  fcBlink : Octet
  fcRangingInit : Octet
  fcPoll : Octet
  fcResponse : Octet
  fcFinal : Octet
  fcConfirm : Octet
  fcFinished : Octet
  actContinue : Octet
  /-- `BIAS_ROM[k]`, `k` in 0..3 (R11, R80). -/
  biasRom : Vector BiasTable 4
  confirm_ne_finished : fcConfirm ≠ fcFinished
  ascending : ∀ k : Fin 4, ∀ i : Fin 17,
    ((biasRom[k])[i.castSucc]).p.toInt < ((biasRom[k])[i.succ]).p.toInt
  deriving DecidableEq, Repr

/-- A frame as the port returns it: "0 to 127 octets" (R270, R272). -/
structure Frame where
  octets : List Octet
  fits : octets.length ≤ 127
  deriving DecidableEq, Repr

/-- The transceiver's own state that the port reads (R47, R275): the node's identity and the radio configuration.
Only `setOwnShortAddress` changes it. -/
structure Trx where
  /-- `getOwnExtendedIdentifier()`, 64 bits. -/
  eui : BitVec 64
  /-- `getOwnShortAddress()`, 16 bits. -/
  shortAddr : BitVec 16
  /-- `getNetworkId()`, 16 bits. -/
  netId : BitVec 16
  /-- `getChannel()`, 4 bits unsigned. -/
  channel : BitVec 4
  /-- `getPulseRepetitionFrequency()`, 1 bit. -/
  prf : BitVec 1
  deriving DecidableEq, Repr, Inhabited

/-- What the transceiver answers, in one engine step, to the calls whose answers are free inputs of the step
(R47, R262, R270, R277): the four polled flags, the received frame, the three 40-bit timestamps and the receive
power. No step asks the same question twice. -/
structure TrxAnswers where
  hwFault : Bool
  txDone : Bool
  rxDone : Bool
  rxTimedOut : Bool
  frame : Frame
  txTime : Raw40
  rxTime : Raw40
  sysTime : Raw40
  rxPower : BitVec 32
  deriving DecidableEq, Repr

/-- A value that `DIST` can be left with where the rules state none: any that keeps R38's bound, "after any `RNG.CORRECT`
it is at least `DIST_EPS`" (10^13, R10). -/
structure FreeDist where
  word : TsWord
  atLeast : 10000000000000 ≤ word.toInt
  deriving DecidableEq, Repr

namespace Config

/-- Some parameters that satisfy R11's constraints. They show that the type is inhabited and are used for nothing
else: an opaque constant needs that evidence, and nothing can be proved of the constant from it. -/
def paramsEvidence : Params where
  fcBlink := 0
  fcRangingInit := 1
  fcPoll := 2
  fcResponse := 3
  fcFinal := 4
  fcConfirm := 5
  fcFinished := 6
  actContinue := 0
  biasRom := Vector.replicate 4
    #v[⟨0, 0⟩, ⟨1, 0⟩, ⟨2, 0⟩, ⟨3, 0⟩, ⟨4, 0⟩, ⟨5, 0⟩, ⟨6, 0⟩, ⟨7, 0⟩, ⟨8, 0⟩,
       ⟨9, 0⟩, ⟨10, 0⟩, ⟨11, 0⟩, ⟨12, 0⟩, ⟨13, 0⟩, ⟨14, 0⟩, ⟨15, 0⟩, ⟨16, 0⟩, ⟨17, 0⟩]
  confirm_ne_finished := by decide
  ascending := by decide

/-- A set of answers; evidence that the type is inhabited, as `paramsEvidence` is. -/
def answersEvidence : TrxAnswers := ⟨false, false, false, false, ⟨[], by decide⟩, 0, 0, 0, 0⟩

/-- The engine's OPEN parameters (R11, U1, U3): any values that satisfy the constraints. No body. -/
opaque anyParams [Inhabited Params] : Params

/-- The transceiver's answers when the schedule of outside events says nothing (U4, "any value"). No body. -/
opaque anyAnswers [Inhabited TrxAnswers] : Nat → TrxAnswers

/-- The parameters of a machine out of reset; nothing is known of them but `Params`' own constraints. -/
def params : Params := @anyParams ⟨paramsEvidence⟩

/-- The `n`-th free set of transceiver answers. -/
def answers : Nat → TrxAnswers := @anyAnswers ⟨answersEvidence⟩

/-- The identity and configuration the chip driver has given the transceiver (R47, R293 (a)): outside the engine,
and no rule fixes it. No body. -/
opaque trxAtPowerUp : Trx

/-- A free value of `DIST`; evidence that the type is inhabited, as `paramsEvidence` is. -/
def freeDistEvidence : FreeDist := ⟨0x09184E72A000#128, by decide⟩

/-- The free values of `DIST`, written when the corrected distance does not fit its register: R150 writes `DIST <- c` and
no rule says how such a `c` is treated. Nothing is known of one but R38's bound. No body. -/
opaque anyDist [Inhabited FreeDist] : Nat → FreeDist

/-- The `n`-th free value of `DIST`. -/
def distOverflow (n : Nat) : FreeDist := @anyDist ⟨freeDistEvidence⟩ n

end Config

end Sys2Proof
end

