-- ==== Sys2Proof/Machine/State.lean ====
section
/-! DEFINITION. The machine's state: the engine's registers by unit (R20 to R45), the surroundings the steps read and
write (the transceiver's own state, the schedule of outside events, the record of port calls and of host answers),
the reasons a step could stop, and the state after reset (R49, R290). -/

namespace Sys2Proof.Machine

/-- A frame buffer's contents: the octets that differ from 0, by strictly rising offset (R45, R74). An unlisted
offset reads as 0, the reset value R49 gives every octet. -/
abbrev Memory := List Host.Cell

/-- The states of the session machine (R31, codes 0 to 18 in this order). "Codes 19 to 31 are never written; a model
may treat them as unreachable" (R31, U11). -/
inductive FsmState where
  | idle | blinkSent | awaitingInitiation | pollSent | awaitingResponse | finalSent | awaitingConfirm | nextAnchor
  | done | failed | awaitingPoll | responseSent | awaitingFinal | rangeComputed | confirmSent | finishedSent
  | awaitingBlink | initiationSent | admitted
  deriving DecidableEq, Repr

/-- `ERR.CLASS` (R34, R260). -/
inductive ErrClass where
  | none | exchangeTimeout | protocolViolation | hardwareFault | rangeInvalid
  deriving DecidableEq, Repr

/-- `ERR.DETAIL` (R34, R260). -/
inductive ErrDetail where
  | none | truncated | badFc | addrMismatch | notContinue | diffInvalid | divZero
  deriving DecidableEq, Repr

/-- `ERR` (R34): class, detail, and the value of `FSM_STATE` when the failure was raised. -/
structure ErrReg where
  cls : ErrClass
  detail : ErrDetail
  state : FsmState
  deriving DecidableEq, Repr

/-- The causes `CMD_ERR_CODE` holds (R35, R261); `none` is its reset value. -/
inductive RejectCode where
  | none | illegalOpcode | reservedBits | busy | badState | badKind | writeRefused
  deriving DecidableEq, Repr

/-- Session state, status, control and error registers (R30 to R35). Reserved bits are no storage: they read 0 and
ignore what is written (R32, R33), which the host port's read and write say. -/
structure Ctl where
  /-- `FSM_STATE`, index `0x04` (R30). -/
  fsm : FsmState
  /-- `STATUS` bits 6:0, index `0x01` (R32): `BUSY`, `TS_VALID`, `RAW_INVALID`, `TS_OVF`, `TS_DIVZ`, `CMD_ERR`, `DEC_OK`. -/
  status : BitVec 7
  /-- `CTRL` bits 1:0, index `0x02` (R33): `POLICY`, `BIAS_EN`. -/
  ctrl : BitVec 2
  /-- `ERR`, index `0x03` (R34). -/
  err : ErrReg
  /-- `CMD_ERR_CODE`, index `0x05` (R35). -/
  cmdErrCode : RejectCode
  deriving DecidableEq, Repr

/-- The timestamp unit (R21 to R25, R37). -/
structure Tsu where
  /-- `T[0]` to `T[15]`, indices `0x80` to `0x8F` (R21). -/
  tregs : Vector TsWord 16
  /-- `EXCH_MASK`, index `0x1C` (R24). -/
  exchMask : BitVec 6
  /-- `RAWIN`, index `0x08` (R37). -/
  rawin : Raw40
  /-- `RAWOUT`, index `0x09` (R37). -/
  rawout : Raw40
  /-- `SCALAR`, index `0x0A`, signed (R37). -/
  scalar : BitVec 64
  /-- `CONV`, index `0x0B`, signed (R37). -/
  conv : TsWord
  deriving DecidableEq, Repr

/-- The ranging math unit and the range bias corrector (R38 to R40). -/
structure Rmu where
  /-- `ROUND1`, index `0x10` (R38). -/
  round1 : TsWord
  /-- `REPLY1`, index `0x11` (R38). -/
  reply1 : TsWord
  /-- `ROUND2`, index `0x12` (R38). -/
  round2 : TsWord
  /-- `REPLY2`, index `0x13` (R38). -/
  reply2 : TsWord
  /-- `TOF_NUM`, index `0x14` (R38). -/
  tofNum : TsWord
  /-- `TOF_DEN`, index `0x15` (R38). -/
  tofDen : TsWord
  /-- `DIST_RAW`, index `0x16` (R38). -/
  distRaw : TsWord
  /-- `RXPWR`, index `0x17`, signed (R39). -/
  rxpwr : BitVec 32
  /-- `BIASKEY`, index `0x18`: bit 0 `PRF`, bit 1 `BAND` (R39). -/
  biaskey : BitVec 2
  /-- `BIAS`, index `0x19` (R38). -/
  bias : TsWord
  /-- `DIST`, index `0x1A` (R38). -/
  dist : TsWord
  /-- `RANGE_STATUS`, index `0x1B` (R40). -/
  rangeStatus : BitVec 8
  /-- `BAND_MAP`, index `0x1D` (R39). -/
  bandMap : BitVec 16
  deriving DecidableEq, Repr

/-- Session configuration and result registers (R41, R42). -/
structure Ses where
  /-- `REPLY_DELAY`, index `0x20` (R41). -/
  replyDelay : Raw40
  /-- `ASSIGN_ADDR`, index `0x21` (R41). -/
  assignAddr : BitVec 16
  /-- `NEXT_ANCHOR`, index `0x22` (R41). -/
  nextAnchor : BitVec 16
  /-- `BLINK_SUGGEST`, index `0x23` (R41). -/
  blinkSuggest : BitVec 16
  /-- `ANCHOR_ADDR`, index `0x24` (R42). -/
  anchorAddr : BitVec 16
  /-- `PEER_ADDR`, index `0x25` (R42). -/
  peerAddr : BitVec 16
  /-- `BLINK_RATE`, index `0x26` (R42). -/
  blinkRate : BitVec 16
  /-- `EXCH_COUNT`, index `0x27` (R42). -/
  exchCount : BitVec 8
  /-- `RESULT`, index `0x28`: bit 0 `VALID`, bit 1 `SUCCESS` (R42). -/
  result : BitVec 2
  /-- `PEER_EUI`, index `0x29` (R42). -/
  peerEui : BitVec 64
  deriving DecidableEq, Repr

/-- The codec's transmit side: sequence counter, field registers, transmit buffer (R43, R45). -/
structure Tx where
  /-- `SEQ`, index `0x30`. -/
  seq : Octet
  /-- `F_EUI`, index `0x31`. -/
  eui : BitVec 64
  /-- `F_NETID`, index `0x32`. -/
  netId : BitVec 16
  /-- `F_DST`, index `0x33`. -/
  dst : BitVec 16
  /-- `F_SRC`, index `0x34`. -/
  src : BitVec 16
  /-- `F_ARG`, index `0x35`. -/
  arg : BitVec 16
  /-- `F_ACT`, index `0x36`. -/
  act : Octet
  /-- `F_TS0`, index `0x37`. -/
  ts0 : BitVec 32
  /-- `F_TS1`, index `0x38`. -/
  ts1 : BitVec 32
  /-- `F_TS2`, index `0x39`. -/
  ts2 : BitVec 32
  /-- `TXLEN`, index `0x3A`. -/
  len : BitVec 7
  /-- `TXBUF`, offsets 0 to 126 (R45). -/
  buf : Memory
  deriving DecidableEq, Repr

/-- The codec's receive side: decoded field registers, receive buffer (R44, R45). -/
structure Rx where
  /-- `D_FC`, index `0x40`. -/
  fc : Octet
  /-- `D_SEQ`, index `0x41`. -/
  seq : Octet
  /-- `D_EUI`, index `0x42`. -/
  eui : BitVec 64
  /-- `D_NETID`, index `0x43`. -/
  netId : BitVec 16
  /-- `D_DST`, index `0x44`. -/
  dst : BitVec 16
  /-- `D_SRC`, index `0x45`. -/
  src : BitVec 16
  /-- `D_ARG`, index `0x46`. -/
  arg : BitVec 16
  /-- `D_ACT`, index `0x47`. -/
  act : Octet
  /-- `D_TS0`, index `0x48`. -/
  ts0 : BitVec 32
  /-- `D_TS1`, index `0x49`. -/
  ts1 : BitVec 32
  /-- `D_TS2`, index `0x4A`. -/
  ts2 : BitVec 32
  /-- `RXLEN`, index `0x4B`. -/
  len : BitVec 7
  /-- `RXBUF`, offsets 0 to 126 (R45). -/
  buf : Memory
  deriving DecidableEq, Repr

/-- The two frame buffers (R74). -/
inductive BufName where
  | txbuf | rxbuf
  deriving DecidableEq, Repr

/-- One operation of the host port (R70, R74). The carrier of a register write is 128 bits, the widest register; a
write supplies exactly the register's width (R71), which is the low bits of the carrier. -/
inductive HostOp where
  | read (idx : BitVec 8)
  | write (idx : BitVec 8) (v : BitVec 128)
  | bufRead (b : BufName) (off : Nat)
  | bufWrite (b : BufName) (off : Nat) (v : Octet)
  deriving DecidableEq, Repr

/-- What a `HostRead` or `HostBufRead` returned to the host (R70, R74); a register's value is zero-extended. -/
inductive HostReply where
  | reg (idx : BitVec 8) (v : BitVec 128)
  | octet (b : BufName) (off : Nat) (v : Octet)
  deriving DecidableEq, Repr

/-- One call of a transceiver operation (R270, R276). -/
inductive TrxCall where
  | transmit (frame : List Octet)
  | transmitDelayed (frame : List Octet) (futureTime : Raw40)
  | startReceive
  | isTransmitDone
  | isReceiveDone
  | isReceiveTimedOut
  | getTransmitTimestamp
  | getReceiveTimestamp
  | getSystemTimestamp
  | getReceivedFrame
  | getReceivePowerDbm
  | getChannel
  | getPulseRepetitionFrequency
  | getOwnExtendedIdentifier
  | getOwnShortAddress
  | setOwnShortAddress (a : BitVec 16)
  | getNetworkId
  | isHardwareFault
  | forceIdle
  deriving DecidableEq, Repr

/-- What happens next in the machine's one total order (R78, R82): a host operation, an engine step with the
transceiver's answers to it, or the reset input (R290). -/
inductive Event where
  | host (op : HostOp)
  | poll (a : TrxAnswers)
  | reset
  deriving DecidableEq, Repr

/-- The machine. `ctl` to `rx` are the engine's whole state (R20); the rest is the model's own: the parameters it
takes as an argument (R11), the transceiver's state (R47), and what passes between the engine and its surroundings. -/
structure State where
  ctl : Ctl
  tsu : Tsu
  rmu : Rmu
  ses : Ses
  tx : Tx
  rx : Rx
  /-- The OPEN parameters (R11, R48): constant, no step changes them. -/
  params : Params
  /-- The transceiver's identity and configuration (R47, R275). -/
  trx : Trx
  /-- The events still to come, in their order (R82). When the list is empty the outside world says nothing more. -/
  sched : List Event
  /-- The transceiver calls made so far, oldest first (R83). -/
  calls : List TrxCall
  /-- The host port's answers so far, oldest first (R70). -/
  replies : List HostReply
  /-- How many free values of `Config` have been used. -/
  free : Nat
  deriving DecidableEq, Repr

/-- The reasons a step could stop the machine: none. "The engine has no traps in a processor's sense"
(60_exceptions.md, opening): a session error is the failure procedure of R264, a bad command the rejection of R261,
and both go on with a next state. Safe: no meaning of this model ever faults. -/
inductive Fault where
  deriving DecidableEq, Repr

/-- The reasons the model could have no meaning for a command. -/
inductive Refusal where
  /-- An arm of `exec` for a command that has no meaning yet; no arm raises it now. Safe. -/
  | notModelled (mnemonic : String)
  deriving DecidableEq, Repr

/-- The outcome of a command or a step. -/
abbrev Result := Host.Outcome State Fault Refusal

/-- The machine right after reset (R49, R290): "every register and every buffer octet of this file is 0, with one
exception: `CTRL` is `0x00000002`". The parameters and the transceiver's state are free constants, and no event is
scheduled: nothing has been written to the port. -/
def State.reset : State where
  ctl := { fsm := .idle, status := 0, ctrl := 0b10#2, err := ⟨.none, .none, .idle⟩, cmdErrCode := .none }
  tsu := { tregs := Vector.replicate 16 0, exchMask := 0, rawin := 0, rawout := 0, scalar := 0, conv := 0 }
  rmu := { round1 := 0, reply1 := 0, round2 := 0, reply2 := 0, tofNum := 0, tofDen := 0, distRaw := 0, rxpwr := 0,
           biaskey := 0, bias := 0, dist := 0, rangeStatus := 0, bandMap := 0 }
  ses := { replyDelay := 0, assignAddr := 0, nextAnchor := 0, blinkSuggest := 0, anchorAddr := 0, peerAddr := 0,
           blinkRate := 0, exchCount := 0, result := 0, peerEui := 0 }
  tx := { seq := 0, eui := 0, netId := 0, dst := 0, src := 0, arg := 0, act := 0, ts0 := 0, ts1 := 0, ts2 := 0,
          len := 0, buf := [] }
  rx := { fc := 0, seq := 0, eui := 0, netId := 0, dst := 0, src := 0, arg := 0, act := 0, ts0 := 0, ts1 := 0,
          ts2 := 0, len := 0, buf := [] }
  params := Config.params
  trx := Config.trxAtPowerUp
  sched := []
  calls := []
  replies := []
  free := 0

end Sys2Proof.Machine
end

