-- ==== Sys2Proof/Machine/Flags.lean ====
section
/-! DEFINITION. The bits of `STATUS` (R32), `CTRL` (R33), `RANGE_STATUS` (R40) and `EXCH_MASK` (R24), and every
computation of them. -/

namespace Sys2Proof.Machine

/-- `v` with bit `i` made `b`. -/
def setBit {n : Nat} (v : BitVec n) (i : Nat) (b : Bool) : BitVec n :=
  if b then v ||| BitVec.twoPow n i else v &&& ~~~ BitVec.twoPow n i

/-- `STATUS.BUSY`, bit 0 (R32). -/
def State.busy (s : State) : Bool := s.ctl.status.getLsbD 0

/-- `STATUS.TS_VALID`, bit 1 (R32). -/
def State.tsValid (s : State) : Bool := s.ctl.status.getLsbD 1

/-- `STATUS.RAW_INVALID`, bit 2 (R32). -/
def State.rawInvalid (s : State) : Bool := s.ctl.status.getLsbD 2

/-- `STATUS.TS_OVF`, bit 3 (R32). -/
def State.tsOvf (s : State) : Bool := s.ctl.status.getLsbD 3

/-- `STATUS.TS_DIVZ`, bit 4 (R32). -/
def State.tsDivz (s : State) : Bool := s.ctl.status.getLsbD 4

/-- `STATUS.CMD_ERR`, bit 5 (R32). -/
def State.cmdErr (s : State) : Bool := s.ctl.status.getLsbD 5

/-- `STATUS.DEC_OK`, bit 6 (R32). -/
def State.decOk (s : State) : Bool := s.ctl.status.getLsbD 6

/-- `CTRL.POLICY`, bit 0 (R33). -/
def State.policy (s : State) : Bool := s.ctl.ctrl.getLsbD 0

/-- `CTRL.BIAS_EN`, bit 1 (R33). -/
def State.biasEn (s : State) : Bool := s.ctl.ctrl.getLsbD 1

/-- `STATUS` with bit `i` made `b`; every other bit keeps its value. -/
def State.setStatusBit (i : Nat) (b : Bool) (s : State) : State :=
  { s with ctl := { s.ctl with status := setBit s.ctl.status i b } }

/-- `STATUS.BUSY <- b` (R32). -/
def State.setBusy (b : Bool) (s : State) : State := s.setStatusBit 0 b

/-- `STATUS.TS_VALID <- b` (R32). -/
def State.setTsValid (b : Bool) (s : State) : State := s.setStatusBit 1 b

/-- `STATUS.RAW_INVALID <- b` (R32). -/
def State.setRawInvalid (b : Bool) (s : State) : State := s.setStatusBit 2 b

/-- `STATUS.TS_OVF <- 1`, sticky (R32, R121). -/
def State.raiseTsOvf (s : State) : State := s.setStatusBit 3 true

/-- `STATUS.TS_DIVZ <- 1`, sticky (R32, R115, R117). -/
def State.raiseTsDivz (s : State) : State := s.setStatusBit 4 true

/-- `STATUS.CMD_ERR <- 1`, sticky (R32, R261). -/
def State.raiseCmdErr (s : State) : State := s.setStatusBit 5 true

/-- `STATUS.DEC_OK <- b` (R32). -/
def State.setDecOk (b : Bool) (s : State) : State := s.setStatusBit 6 b

/-- A host write to `STATUS`: "write-one-to-clear on bits 3, 4 and 5" and "no effect on any other bit" (R32). -/
def clearSticky (status : BitVec 7) (v : BitVec 7) : BitVec 7 := status &&& ~~~ (v &&& 0b0111000#7)

/-- `EXCH_MASK` after a write of `T[rd]` (R25, R121): bit `rd - 8` becomes 1 when `8 <= rd <= 13`. -/
def markExch (rd : Reg) (m : BitVec 6) : BitVec 6 :=
  if 8 ≤ rd.val ∧ rd.val ≤ 13 then setBit m (rd.val - 8) true else m

/-- `EXCH_MASK = 0b111111`: all six exchange registers are written (R25). -/
def exchComplete (m : BitVec 6) : Bool := m == 0b111111#6

/-- `RANGE_STATUS` with only `COMPUTED` (R40, R141). -/
def rsComputed : BitVec 8 := 0b00000001#8

/-- `RANGE_STATUS` with only `INCOMPLETE` (R40, R141). -/
def rsIncomplete : BitVec 8 := 0b00000010#8

/-- `RANGE_STATUS` with only `INVALID` (R40, R141). -/
def rsInvalid : BitVec 8 := 0b00000100#8

/-- `RANGE_STATUS` with only `DIVZERO` (R40, R141). -/
def rsDivzero : BitVec 8 := 0b00001000#8

/-- `RANGE_STATUS` after `RNG.CORRECT`: "`RANGE_STATUS[7:4] <- high ++ low ++ clamped ++ 1`", bits 3:0 left (R150). -/
def rsCorrected (high low clamped : Bool) (old : BitVec 8) : BitVec 8 :=
  BitVec.ofBool high ++ BitVec.ofBool low ++ BitVec.ofBool clamped ++ 1#1 ++ old.extractLsb' 0 4

/-- `RANGE_STATUS.INVALID`, bit 2 (R40). -/
def State.rangeInvalid (s : State) : Bool := s.rmu.rangeStatus.getLsbD 2

/-- `RANGE_STATUS.DIVZERO`, bit 3 (R40). -/
def State.rangeDivzero (s : State) : Bool := s.rmu.rangeStatus.getLsbD 3

end Sys2Proof.Machine
end

