-- ==== Sys2Proof/Machine/Ops.lean ====
section
/-! DEFINITION. The constants of R9 and R10, exact arithmetic (R12, R13), the frame buffers (R74 to R76), the
timestamp file (R121, R25), the two kinds of error (R261, R264) with the way back to `Idle` (R245), and the calls
of the transceiver port (R270). -/

namespace Sys2Proof.Machine

/-! ### Constants -/

/-- `TS_MOD` = 2^40 (R9). -/
def tsMod : Int := 1099511627776

/-- `MIN_TS` = -2^127 (R10). -/
def minTs : Int := -170141183460469231731687303715884105728

/-- `MAX_TS` = 2^127 - 1 (R10). -/
def maxTs : Int := 170141183460469231731687303715884105727

/-- `K_US` (R10): microseconds per tick in units of 10^-18 µs. -/
def kUs : Int := 15650040064103

/-- `K_M` (R10): metres per tick in units of `DU` = 10^-16 m. -/
def kM : Int := 46917639786159

/-- `MM` = 10^13 (R10): one millimetre in `DU`. -/
def mmDu : Int := 10000000000000

/-- `DIST_EPS` = 10^13 (R10): the least distance the clamp writes, 1 mm. -/
def distEps : Int := 10000000000000

/-- `FRAME_MAX` = 127 (R10). -/
def frameMax : Nat := 127

/-! ### Exact arithmetic -/

/-- The value lies in `[MIN_TS, MAX_TS]` (R121). -/
def fitsTs (v : Int) : Bool := decide (minTs ≤ v) && decide (v ≤ maxTs)

/-- `sat(v)` (R13). -/
def sat (v : Int) : Int := if v > maxTs then maxTs else if v < minTs then minTs else v

/-- `wrap(v)`: `v + TS_MOD` if `v < 0`, else `v` (R13, R118). -/
def wrap (v : Int) : Int := if v < 0 then v + tsMod else v

/-- `isValid(v)`: `0 <= v < TS_MOD` (R13, R119). -/
def isValid (v : Int) : Bool := decide (0 ≤ v) && decide (v < tsMod)

/-- `floor(a / b)` for `b != 0` (R12, R125: "In Lean 4 terms the quotient is `Int.fdiv`"). -/
def floorDiv (a b : Int) : Int := Int.fdiv a b

/-- The two's complement pattern of a value that fits a 128-bit register. -/
def toTs (v : Int) : TsWord := BitVec.ofInt 128 v

/-! ### Frame buffers -/

/-- One octet of a buffer; an unlisted offset holds 0, the reset value of every octet (R45, R49). -/
def readOctet : Memory → Nat → Octet
  | [], _ => 0
  | (b, w) :: m, a => if a = b then w else readOctet m a

/-- Store of one octet, keeping the canonical form: offsets rise and no entry is 0. -/
def writeOctet : Memory → Nat → Octet → Memory
  | [], a, v => if v = 0 then [] else [(a, v)]
  | (b, w) :: m, a, v =>
    if a < b then (if v = 0 then (b, w) :: m else (a, v) :: (b, w) :: m)
    else if a = b then (if v = 0 then m else (a, v) :: m)
    else (b, w) :: writeOctet m a v

/-- `MemRead(buf + a, n)` for `n` up to 8: least significant octet first (R13, R76). -/
def memRead (m : Memory) (a : Nat) : Nat → BitVec 64
  | 0 => 0
  | n + 1 => (memRead m (a + 1) n <<< 8) ||| (readOctet m a).setWidth 64

/-- `MemWrite(buf + a, n, v)`: the low `8n` bits of `v`, least significant octet first (R13, R76). -/
def memWrite (m : Memory) (a : Nat) : Nat → BitVec 64 → Memory
  | 0, _ => m
  | n + 1, v => memWrite (writeOctet m a (v.setWidth 8)) (a + 1) n (v >>> 8)

/-- `buf[a .. a + length - 1] <- octets`. -/
def writeOctets (m : Memory) (a : Nat) : List Octet → Memory
  | [] => m
  | v :: vs => writeOctets (writeOctet m a v) (a + 1) vs

/-- `buf[a .. a + n - 1]` as a list. -/
def readOctets (m : Memory) (a : Nat) : Nat → List Octet
  | 0 => []
  | n + 1 => readOctet m a :: readOctets m (a + 1) n

/-- The canonical form of a buffer: offsets strictly rising, all below `FRAME_MAX`, no entry equal to 0. -/
def Memory.wf : Memory → Bool
  | [] => true
  | [(a, v)] => decide (a < frameMax) && decide (v ≠ 0)
  | (a, v) :: (b, w) :: m => decide (a < b) && decide (v ≠ 0) && Memory.wf ((b, w) :: m)

/-! ### The timestamp file -/

/-- A read of `T[i]`: a signed integer (R13). -/
def readT (i : Reg) (s : State) : Int := (s.tsu.tregs[i]).toInt

/-- `TS_OVF <- 1` for an exact result outside `[MIN_TS, MAX_TS]`, else nothing (R121). -/
def noteOverflow (r : Int) (s : State) : Ctl := if fitsTs r then s.ctl else s.raiseTsOvf.ctl

/-- `writeT(rd, r)` (R121): the exact result if it fits, else `sat(r)` with `TS_OVF` set; the exchange mask bit of
`T[8]` to `T[13]`. -/
def writeT (rd : Reg) (r : Int) (s : State) : State :=
  { s with
    ctl := noteOverflow r s
    tsu := { s.tsu with tregs := s.tsu.tregs.set rd (toTs (sat r)), exchMask := markExch rd s.tsu.exchMask } }

/-- A write of `CONV` (R122, R123), saturating as `writeT` does. -/
def writeConv (r : Int) (s : State) : State :=
  { s with ctl := noteOverflow r s, tsu := { s.tsu with conv := toTs (sat r) } }

/-- `T[8..13] <- 0 ; EXCH_MASK <- 0`: create an exchange, and consume and discard one (R25, R142). -/
def clearExchange (s : State) : State :=
  { s with tsu := { s.tsu with
      tregs := (((((s.tsu.tregs.set 8 0).set 9 0).set 10 0).set 11 0).set 12 0).set 13 0
      exchMask := 0 } }

/-! ### Errors and the way back -/

/-- The code of a session state (R31). -/
def FsmState.code : FsmState → BitVec 5
  | .idle => 0 | .blinkSent => 1 | .awaitingInitiation => 2 | .pollSent => 3 | .awaitingResponse => 4
  | .finalSent => 5 | .awaitingConfirm => 6 | .nextAnchor => 7 | .done => 8 | .failed => 9
  | .awaitingPoll => 10 | .responseSent => 11 | .awaitingFinal => 12 | .rangeComputed => 13
  | .confirmSent => 14 | .finishedSent => 15 | .awaitingBlink => 16 | .initiationSent => 17 | .admitted => 18

/-- `fsm <- S` (R13). -/
def State.goto (f : FsmState) (s : State) : State := { s with ctl := { s.ctl with fsm := f } }

/-- `reject(code)` (R261): `CMD_ERR` and its code, "and nothing else". -/
def State.reject (c : RejectCode) (s : State) : State :=
  let s := s.raiseCmdErr
  { s with ctl := { s.ctl with cmdErrCode := c } }

/-- `ERR <- CLASS, DETAIL, STATE = FSM_STATE` (R34): what a failure records, in a session (R264) or outside (R177 (a)). -/
def State.recordErr (c : ErrClass) (d : ErrDetail) (s : State) : State :=
  { s with ctl := { s.ctl with err := ⟨c, d, s.ctl.fsm⟩ } }

/-- `ERR <- 0` (R190, R220, R240): class 0, detail 0, state 0. -/
def State.clearErr (s : State) : State :=
  { s with ctl := { s.ctl with err := ⟨.none, .none, .idle⟩ } }

/-- `RESULT <- v` (R42). -/
def State.setResult (v : BitVec 2) (s : State) : State := { s with ses := { s.ses with result := v } }

/-- The anchor's states, codes 10 to 15, whose failures write `RESULT` (R264). -/
def FsmState.anchorRanging : FsmState → Bool
  | .awaitingPoll | .responseSent | .awaitingFinal | .rangeComputed | .confirmSent | .finishedSent => true
  | .idle | .blinkSent | .awaitingInitiation | .pollSent | .awaitingResponse | .finalSent | .awaitingConfirm
  | .nextAnchor | .done | .failed | .awaitingBlink | .initiationSent | .admitted => false

/-- Taking a session error, `raise Class(detail)` (R264): it records the class, the detail and the state in `ERR`,
writes `RESULT <- 0b01` for a failure in states 10 to 15, goes to `Failed` and clears `BUSY`. "There is no handler,
no vector and no return". -/
def raiseErr (c : ErrClass) (d : ErrDetail) (s : State) : State :=
  { ((s.recordErr c d).goto .failed).setBusy false with
    ses := if s.ctl.fsm.anchorRanging then (s.setResult 0b01#2).ses else s.ses }

/-- The way back from a session's end (R245, R264): `SES.CLEAR`'s `fsm <- Idle`; "nothing else changes". -/
def returnToIdle (s : State) : State := s.goto .idle

/-! ### Acceptance of a command -/

/-- R95 test 1, the first of every command: with `STATUS.BUSY = 1` the command is rejected, else it runs. -/
def unlessBusy (body : State → State) (s : State) : Result :=
  if s.busy then .next (s.reject .busy) else .next (body s)

/-- R95 tests 1 and 5, for the three commands that start a session: not busy, and `FSM_STATE = Idle`. -/
def startSession (body : State → State) (s : State) : Result :=
  unlessBusy (fun s => if s.ctl.fsm = .idle then body s else s.reject .badState) s

/-! ### The transceiver port -/

/-- A call of a transceiver operation, recorded in its order (R83). -/
def State.call (c : TrxCall) (s : State) : State := { s with calls := s.calls ++ [c] }

/-- The frame in `TXBUF[0 .. TXLEN-1]`. -/
def State.txFrame (s : State) : List Octet := readOctets s.tx.buf 0 s.tx.len.toNat

/-- `trx.transmit(TXBUF[0 .. TXLEN-1])` (R271). -/
def transmit (s : State) : State := s.call (.transmit s.txFrame)

/-- `trx.transmitDelayed(TXBUF[0 .. TXLEN-1], fut)` (R271). -/
def transmitDelayed (fut : Raw40) (s : State) : State := s.call (.transmitDelayed s.txFrame fut)

/-- `trx.setOwnShortAddress(a)`: "replaces the short address" (R275). -/
def setOwnShortAddress (a : BitVec 16) (s : State) : State :=
  { s.call (.setOwnShortAddress a) with trx := { s.trx with shortAddr := a } }

/-- `RXLEN <- length(frame) ; RXBUF[0 .. RXLEN-1] <- frame` (R262), after `trx.getReceivedFrame()`. -/
def loadFrame (f : Frame) (s : State) : State :=
  { s with rx := { s.rx with len := BitVec.ofNat 7 f.octets.length, buf := writeOctets s.rx.buf 0 f.octets } }

end Sys2Proof.Machine
end

