-- ==== Sys2Proof/Machine/Operands.lean ====
section
/-! DEFINITION. The operand forms of R93: where each command's operands come from besides its register fields. -/

namespace Sys2Proof.Machine

/-- The raw value of `TS.FROMRAW`: `zext_40(RAWIN)` (R93, R110). -/
def rawinValue (s : State) : Int := s.tsu.rawin.toNat

/-- The scalar of `TS.MULS` and `TS.DIVS`: `sext_64(SCALAR)` (R93, R114). -/
def scalarValue (s : State) : Int := s.tsu.scalar.toInt

/-- A timestamp from the port, a 40-bit unsigned value (R197, R273). -/
def rawValue (v : Raw40) : Int := v.toNat

/-- `rawDistance` of `RNG.CORRECT`: `DIST_RAW`, signed (R93, R150). -/
def distRawValue (s : State) : Int := s.rmu.distRaw.toInt

/-- `p = sext_32(RXPWR)` (R150). -/
def rxpwrValue (s : State) : Int := s.rmu.rxpwr.toInt

/-- `k = 2 * BIASKEY[1] + BIASKEY[0]` (R39, R150). -/
def biasKeyIndex (s : State) : Fin 4 := s.rmu.biaskey.toFin

/-- `BAND_MAP[c] ++ PRF`: the bias key of a channel and a PRF bit (R228). -/
def biasKeyOf (bandMap : BitVec 16) (channel : BitVec 4) (prf : BitVec 1) : BitVec 2 :=
  BitVec.ofBool (bandMap.getLsbD channel.toNat) ++ prf

/-- The frame kind `k` of `FC.ENC` and `FC.DEC`; 7 to 15 name no kind (R93, R160). -/
def kindOfNum (k : KindNum) : Option Kind :=
  match k.val with
  | 0 => some .blink
  | 1 => some .rinit
  | 2 => some .poll
  | 3 => some .resp
  | 4 => some .final
  | 5 => some .confirm
  | 6 => some .finished
  | _ => none

/-- `PS`, `PR`, `RS`, `RR`, `FS`, `FR`: the exchange registers `T[8]` to `T[13]` (R22). -/
def psReg : Reg := 8
/-- `PR` = `T[9]` (R22). -/
def prReg : Reg := 9
/-- `RS` = `T[10]` (R22). -/
def rsReg : Reg := 10
/-- `RR` = `T[11]` (R22). -/
def rrReg : Reg := 11
/-- `FS` = `T[12]` (R22). -/
def fsReg : Reg := 12
/-- `FR` = `T[13]` (R22). -/
def frReg : Reg := 13

end Sys2Proof.Machine
end

