-- ==== Sys2Proof/Machine/Ranging.lean ====
section
/-! DEFINITION. The ranging math unit and the range bias corrector: the bodies of `RNG.COMPUTE` (R141) and
`RNG.CORRECT` (R150), which the anchor session runs too (R228), and the two commands. -/

namespace Sys2Proof.Machine

/-- The four wrapped differences of R141, exact: `round1`, `reply1`, `round2`, `reply2`. "Every difference is
wrapped on its own, before any is combined" (R143). -/
structure Legs where
  round1 : Int
  reply1 : Int
  round2 : Int
  reply2 : Int
  deriving DecidableEq, Repr

/-- The legs of the exchange in `T[8..13]` (R141). -/
def exchangeLegs (s : State) : Legs where
  round1 := wrap (readT rrReg s - readT psReg s)
  reply1 := wrap (readT rsReg s - readT prReg s)
  round2 := wrap (readT frReg s - readT rsReg s)
  reply2 := wrap (readT fsReg s - readT rrReg s)

/-- Every leg passes `isValid` (R141, R144). -/
def legsValid (l : Legs) : Bool :=
  isValid l.round1 && isValid l.reply1 && isValid l.round2 && isValid l.reply2

/-- `N = round1 * round2 - reply1 * reply2` (R141). -/
def tofNumerator (l : Legs) : Int := l.round1 * l.round2 - l.reply1 * l.reply2

/-- `D = round1 + round2 + reply1 + reply2` (R141). -/
def tofDenominator (l : Legs) : Int := l.round1 + l.round2 + l.reply1 + l.reply2

/-- The registers the formula writes once the legs are known (R141): the saturated legs always; the numerator, the
denominator, the distance and `RANGE_STATUS` by the three cases invalid, zero denominator, computed. -/
def rangeRegisters (l : Legs) (r : Rmu) : Rmu :=
  let r := { r with round1 := toTs (sat l.round1), reply1 := toTs (sat l.reply1),
                    round2 := toTs (sat l.round2), reply2 := toTs (sat l.reply2) }
  if legsValid l then
    let r := { r with tofNum := toTs (tofNumerator l), tofDen := toTs (tofDenominator l) }
    if tofDenominator l = 0 then { r with distRaw := 0, rangeStatus := rsDivzero }
    else { r with distRaw := toTs (floorDiv (tofNumerator l * kM) (tofDenominator l)), rangeStatus := rsComputed }
  else { r with tofNum := 0, tofDen := 0, distRaw := 0, rangeStatus := rsInvalid }

/-- The body of `RNG.COMPUTE` (R141, R142): an incomplete exchange is only reported; a complete one is consumed. -/
def computeRange (s : State) : State :=
  if exchComplete s.tsu.exchMask then
    { clearExchange s with rmu := rangeRegisters (exchangeLegs s) s.rmu }
  else { s with rmu := { s.rmu with rangeStatus := rsIncomplete } }

/-- The straight line through two rows, in `DU`, with one floor division (R150, R152). -/
def biasLine (lo hi : BiasRow) (p : Int) : Int :=
  lo.b.toInt * mmDu +
    floorDiv ((hi.b.toInt - lo.b.toInt) * mmDu * (p - lo.p.toInt)) (hi.p.toInt - lo.p.toInt)

/-- The bias of a power at or above the first row's: the line of the one interval `P[i] <= p < P[i+1]` that brackets
it (R150); past the last row, the last row's bias (R153, "no extrapolation"). -/
def biasFrom (lo : BiasRow) : List BiasRow → Int → Int
  | [], _ => lo.b.toInt * mmDu
  | hi :: rest, p => if p < hi.p.toInt then biasLine lo hi p else biasFrom hi rest p

/-- The bias of a table at power `p` (R150, R153): the first row's at or below it, else `biasFrom`. -/
def tableBias (t : BiasTable) (p : Int) : Int :=
  if p ≤ (t[0]).p.toInt then (t[0]).b.toInt * mmDu else biasFrom t[0] t.toList.tail p

/-- `PWR_LOW`: the power is strictly below the lowest breakpoint (R150, R153). -/
def powerLow (t : BiasTable) (p : Int) : Bool := decide (p < (t[0]).p.toInt)

/-- `PWR_HIGH`: the power is strictly above the highest breakpoint (R150, R153). -/
def powerHigh (t : BiasTable) (p : Int) : Bool := decide (p > (t[17]).p.toInt)

/-- `BIAS_ROM[k]` for the key in `BIASKEY` (R150, R151). -/
def selectedTable (s : State) : BiasTable := s.params.biasRom[biasKeyIndex s]

/-- The bias that `RNG.CORRECT` adds, in `DU`: 0 with `BIAS_EN` = 0, when "the table is not read" (R150, R156). -/
def correctionBias (s : State) : Int :=
  if s.biasEn then tableBias (selectedTable s) (rxpwrValue s) else 0

/-- What `DIST <- c` leaves for a positive `c` (R150): `c` where it fits the register. The spec states no value where
it does not (a `DIST_RAW` the host wrote near `MAX_TS` and a positive bias): there it is a free value of at least
`DIST_EPS`, the bound of R38. DESIGN CHOICE, safe (log entry 5). -/
def distOf (c : Int) (free : Nat) : TsWord := if c ≤ maxTs then toTs c else (Config.distOverflow free).word

/-- The body of `RNG.CORRECT` (R150, R154). DEDUCED, unsafe (log entry 6): a corrected distance from 1 to `DIST_EPS` - 1 is
stored as it is, as R150 and R154 say, where R38's words would have `DIST_EPS` at the least. -/
def correctRange (s : State) : State :=
  let b := correctionBias s
  let c := distRawValue s + b
  let low := s.biasEn && powerLow (selectedTable s) (rxpwrValue s)
  let high := s.biasEn && powerHigh (selectedTable s) (rxpwrValue s)
  let clamped := decide (c ≤ 0)
  { s with
    rmu := { s.rmu with
      bias := toTs b
      dist := if clamped then toTs distEps else distOf c s.free
      rangeStatus := rsCorrected high low clamped s.rmu.rangeStatus }
    free := if c ≤ maxTs then s.free else s.free + 1 }

/-- `RNG.COMPUTE` (R141). -/
def execRngCompute (s : State) : Result := unlessBusy computeRange s

/-- `RNG.CORRECT` (R150). -/
def execRngCorrect (s : State) : Result := unlessBusy correctRange s

end Sys2Proof.Machine
end

