-- ==== Sys2Proof/Machine/Codec.lean ====
section
/-! DEFINITION. The frame codec: the layouts of the seven kinds (R160 to R168), encode (R170), decode (R176, R177)
and the tag's one-of-two decode (R183), which the session steps share, and the two commands. -/

namespace Sys2Proof.Machine

/-- `FC[k]` (R160). -/
def functionCode (p : Params) : Kind → Octet
  | .blink => p.fcBlink
  | .rinit => p.fcRangingInit
  | .poll => p.fcPoll
  | .resp => p.fcResponse
  | .final => p.fcFinal
  | .confirm => p.fcConfirm
  | .finished => p.fcFinished

/-- `MINLEN[k]` in octets (R160): "both the exact length an encode produces and the minimum length a decode accepts". -/
def minLen : Kind → Nat
  | .blink => 10
  | .rinit => 16
  | .poll => 6
  | .resp => 7
  | .final => 18
  | .confirm => 8
  | .finished => 8

/-- The frame fields that a pair of registers `F_x`, `D_x` carries (R43, R44). -/
inductive Field where
  | eui | netId | dst | src | arg | act | ts0 | ts1 | ts2
  deriving DecidableEq, Repr

/-- A field's size in octets (R161 to R167). -/
def fieldOctets : Field → Nat
  | .eui => 8
  | .netId => 2
  | .dst => 2
  | .src => 2
  | .arg => 2
  | .act => 1
  | .ts0 => 4
  | .ts1 => 4
  | .ts2 => 4

/-- The fields of a kind after the function code (octet 0) and the sequence number (octet 1), each with its offset
(R161 to R167). -/
def layout : Kind → List (Nat × Field)
  | .blink => [(2, .eui)]
  | .rinit => [(2, .netId), (4, .eui), (12, .src), (14, .arg)]
  | .poll => [(2, .dst), (4, .src)]
  | .resp => [(2, .dst), (4, .src), (6, .act)]
  | .final => [(2, .dst), (4, .src), (6, .ts0), (10, .ts1), (14, .ts2)]
  | .confirm => [(2, .dst), (4, .src), (6, .arg)]
  | .finished => [(2, .dst), (4, .src), (6, .arg)]

/-- The register `F_x` of a field, as a number of 64 bits (R43). -/
def txField (t : Tx) : Field → BitVec 64
  | .eui => t.eui
  | .netId => t.netId.setWidth 64
  | .dst => t.dst.setWidth 64
  | .src => t.src.setWidth 64
  | .arg => t.arg.setWidth 64
  | .act => t.act.setWidth 64
  | .ts0 => t.ts0.setWidth 64
  | .ts1 => t.ts1.setWidth 64
  | .ts2 => t.ts2.setWidth 64

/-- `D_x <- v` (R44), at the register's width. -/
def setRxField (r : Rx) (f : Field) (v : BitVec 64) : Rx :=
  match f with
  | .eui => { r with eui := v }
  | .netId => { r with netId := v.setWidth 16 }
  | .dst => { r with dst := v.setWidth 16 }
  | .src => { r with src := v.setWidth 16 }
  | .arg => { r with arg := v.setWidth 16 }
  | .act => { r with act := v.setWidth 8 }
  | .ts0 => { r with ts0 := v.setWidth 32 }
  | .ts1 => { r with ts1 := v.setWidth 32 }
  | .ts2 => { r with ts2 := v.setWidth 32 }

/-- The buffer after the fields of a layout are stored (R170). -/
def writeFields (t : Tx) : Memory → List (Nat × Field) → Memory
  | m, [] => m
  | m, (a, f) :: rest => writeFields t (memWrite m a (fieldOctets f) (txField t f)) rest

/-- The `D_*` registers after the fields of a layout are read from the buffer (R176, R180). -/
def readFields (m : Memory) : Rx → List (Nat × Field) → Rx
  | r, [] => r
  | r, (a, f) :: rest => readFields m (setRxField r f (memRead m a (fieldOctets f))) rest

/-- `encode(k)` (R170): the frame in `TXBUF`, its length, and `SEQ` advanced mod 256 (R171). -/
def encodeFrame (k : Kind) (s : State) : State :=
  { s with tx := { s.tx with
      buf := writeFields s.tx (writeOctet (writeOctet s.tx.buf 0 (functionCode s.params k)) 1 s.tx.seq) (layout k)
      len := BitVec.ofNat 7 (minLen k)
      seq := s.tx.seq + 1 } }

/-- `decode(k)` (R176): the state after it, and the detail of `decode_fail` if the frame was not accepted. The
tests are in the order of R178; the `D_*` registers written before a failing test keep their new values (R177). -/
def decodeFrame (k : Kind) (s : State) : State × Option ErrDetail :=
  let s := s.setDecOk false
  if s.rx.len.toNat < 1 then (s, some .truncated)
  else
    let s := { s with rx := { s.rx with fc := readOctet s.rx.buf 0 } }
    if s.rx.fc ≠ functionCode s.params k then (s, some .badFc)
    else if s.rx.len.toNat < minLen k then (s, some .truncated)
    else
      let s := { s with rx := readFields s.rx.buf { s.rx with seq := readOctet s.rx.buf 1 } (layout k) }
      (s.setDecOk true, none)

/-- `decode_either(5, 6)` (R183): a RangingConfirm or an ActivityFinished, told apart by the function code. -/
def decodeEither (s : State) : State × Option ErrDetail :=
  let s := s.setDecOk false
  if s.rx.len.toNat < 1 then (s, some .truncated)
  else if readOctet s.rx.buf 0 = s.params.fcConfirm then decodeFrame .confirm s
  else if readOctet s.rx.buf 0 = s.params.fcFinished then decodeFrame .finished s
  else ({ s with rx := { s.rx with fc := readOctet s.rx.buf 0 } }, some .badFc)

/-- The effect of an accepted `FC.DEC k`: the decode, and `ERR` written on a failure (R177 (a)). -/
def decodeCommand (k : Kind) (s : State) : State :=
  match decodeFrame k s with
  | (s', none) => s'
  | (s', some d) => s'.recordErr .protocolViolation d

/-- `FC.ENC k` (R170); R95 test 4 rejects `k >= 7`. -/
def execFcEnc (k : KindNum) (s : State) : Result :=
  unlessBusy (fun s =>
    match kindOfNum k with
    | none => s.reject .badKind
    | some k => encodeFrame k s) s

/-- `FC.DEC k` (R176); R95 test 4 rejects `k >= 7`. -/
def execFcDec (k : KindNum) (s : State) : Result :=
  unlessBusy (fun s =>
    match kindOfNum k with
    | none => s.reject .badKind
    | some k => decodeCommand k s) s

end Sys2Proof.Machine
end

