-- ==== Sys2Proof/Machine/SessionTag.lean ====
section
/-! DEFINITION. The tag role (R190 to R202): `SES.TAG` and what each tag state does when its event arrives. -/

namespace Sys2Proof.Machine

/-- A step's decode, then the rest of the step, or `raise ProtocolViolation(detail)` (R177 (b)). -/
def withDecoded (d : State × Option ErrDetail) (rest : State → State) : State :=
  match d with
  | (s, none) => rest s
  | (s, some detail) => raiseErr .protocolViolation detail s

/-- `F_EUI <- trx.getOwnExtendedIdentifier()` (R190). -/
def loadOwnEui (s : State) : State :=
  let s := s.call .getOwnExtendedIdentifier
  { s with tx := { s.tx with eui := s.trx.eui } }

/-- The body of `SES.TAG` (R190). -/
def startTag (s : State) : State :=
  let s := s.clearErr
  let s := { s with ses := { s.ses with exchCount := 0 } }
  let s := s.setBusy true
  let s := loadOwnEui s
  let s := transmit (encodeFrame .blink s)
  s.goto .blinkSent

/-- `SES.TAG` (R190). -/
def execSesTag (s : State) : Result := startSession startTag s

/-- `trx.startReceive()` and `fsm <- S`: what every "...Sent" state with an answer to wait for does on transmit done
(R191, R195, R198, R225) and the two listening commands begin with (R220, R240). -/
def startListening (f : FsmState) (s : State) : State := (s.call .startReceive).goto f

/-- `send_poll()` (R194): create the exchange, then the Poll to `ANCHOR_ADDR`. -/
def sendPoll (s : State) : State :=
  let s := clearExchange s
  let s := s.call .getOwnShortAddress
  let s := { s with tx := { s.tx with dst := s.ses.anchorAddr, src := s.trx.shortAddr } }
  let s := transmit (encodeFrame .poll s)
  s.goto .pollSent

/-- `AwaitingInitiation` on receive done, after the decode (R193). -/
def acceptInitiation (s : State) : State :=
  let s := s.call .getOwnExtendedIdentifier
  if s.rx.eui ≠ s.trx.eui then raiseErr .protocolViolation .addrMismatch s
  else
    let s := setOwnShortAddress s.rx.arg s
    let s := { s with ses := { s.ses with anchorAddr := s.rx.src } }
    sendPoll s

/-- `AwaitingInitiation` on receive done (R193). -/
def onInitiation (s : State) : State := withDecoded (decodeFrame .rinit s) acceptInitiation

/-- The three timestamps of `AwaitingResponse` (R197): `PS`, `RR`, and `FS` = the scheduled send time `fut`, with the
transceiver calls that answer them. -/
def recordTagTimes (a : TrxAnswers) (fut : Raw40) (s : State) : State :=
  let s := writeT psReg (rawValue a.txTime) (s.call .getTransmitTimestamp)
  let s := writeT rrReg (rawValue a.rxTime) (s.call .getReceiveTimestamp)
  writeT fsReg (rawValue fut) (s.call .getSystemTimestamp)

/-- The FinalMessage's registers (R197): addresses, and the low 32 bits of `T[8]`, `T[11]`, `T[12]`. -/
def loadFinalFields (own : BitVec 16) (s : State) : State :=
  { s with tx := { s.tx with
      dst := s.ses.anchorAddr
      src := own
      ts0 := (s.tsu.tregs[psReg]).setWidth 32
      ts1 := (s.tsu.tregs[rrReg]).setWidth 32
      ts2 := (s.tsu.tregs[fsReg]).setWidth 32 } }

/-- `AwaitingResponse` on receive done, after the decode (R197): addresses, then the activity octet, then the
FinalMessage scheduled at `(now + REPLY_DELAY) mod 2^40`. -/
def acceptResponse (a : TrxAnswers) (s : State) : State :=
  let s := s.call .getOwnShortAddress
  let own := s.trx.shortAddr
  if s.rx.dst ≠ own ∨ s.rx.src ≠ s.ses.anchorAddr then raiseErr .protocolViolation .addrMismatch s
  else if s.rx.act ≠ s.params.actContinue then raiseErr .protocolViolation .notContinue s
  else
    let fut := a.sysTime + s.ses.replyDelay
    let s := recordTagTimes a fut s
    let s := encodeFrame .final (loadFinalFields own s)
    (transmitDelayed fut s).goto .finalSent

/-- `AwaitingResponse` on receive done (R197). -/
def onResponse (a : TrxAnswers) (s : State) : State := withDecoded (decodeFrame .resp s) (acceptResponse a)

/-- `EXCH_COUNT <- min(EXCH_COUNT + 1, 255)` (R199). -/
def countExchange (s : State) : State :=
  { s with ses := { s.ses with
      exchCount := if s.ses.exchCount = 255#8 then 255#8 else s.ses.exchCount + 1 } }

/-- RangingConfirm accepted (R200). -/
def chainToNext (s : State) : State :=
  { s with ses := { s.ses with anchorAddr := s.rx.arg } }.goto .nextAnchor

/-- ActivityFinished accepted (R201). -/
def finishTag (s : State) : State :=
  let s := { s with ses := { s.ses with blinkRate := s.rx.arg } }
  (s.goto .done).setBusy false

/-- `AwaitingConfirm` on receive done, after the decode (R199). -/
def acceptConfirm (s : State) : State :=
  let s := s.call .getOwnShortAddress
  if s.rx.dst ≠ s.trx.shortAddr ∨ s.rx.src ≠ s.ses.anchorAddr then raiseErr .protocolViolation .addrMismatch s
  else
    let s := countExchange s
    if s.rx.fc = s.params.fcConfirm then chainToNext s else finishTag s

/-- `AwaitingConfirm` on receive done (R199). -/
def onConfirm (s : State) : State := withDecoded (decodeEither s) acceptConfirm

end Sys2Proof.Machine
end

