-- ==== Sys2Proof/Machine/SessionAnchor.lean ====
section
/-! DEFINITION. The anchor role (R220 to R231), the admission of a tag (R240 to R242) and `SES.CLEAR` (R245). -/

namespace Sys2Proof.Machine

/-- The body of `SES.ANCHOR` (R220). -/
def startAnchor (s : State) : State :=
  let s := (s.clearErr.setResult 0).setBusy true
  startListening .awaitingPoll s

/-- `SES.ANCHOR` (R220). -/
def execSesAnchor (s : State) : Result := startSession startAnchor s

/-- `AwaitingPoll` on receive done, after the decode (R222). -/
def acceptPoll (a : TrxAnswers) (s : State) : State :=
  let s := s.call .getOwnShortAddress
  let own := s.trx.shortAddr
  if s.rx.dst ≠ own then raiseErr .protocolViolation .addrMismatch s
  else
    let s := { s with ses := { s.ses with peerAddr := s.rx.src } }
    let s := clearExchange s
    let s := writeT prReg (rawValue a.rxTime) (s.call .getReceiveTimestamp)
    let s := { s with tx := { s.tx with dst := s.ses.peerAddr, src := own, act := s.params.actContinue } }
    let s := transmit (encodeFrame .resp s)
    s.goto .responseSent

/-- `AwaitingPoll` on receive done (R222). -/
def onPoll (a : TrxAnswers) (s : State) : State := withDecoded (decodeFrame .poll s) (acceptPoll a)

/-- `ResponseSent` on transmit done (R225). -/
def onResponseSent (a : TrxAnswers) (s : State) : State :=
  let s := writeT rsReg (rawValue a.txTime) (s.call .getTransmitTimestamp)
  startListening .awaitingFinal s

/-- `(x - y) mod 2^32` of two 32-bit fields, as a number (R227). -/
def diff32 (x y : BitVec 32) : Int := (x - y).toNat

/-- The tag's three timestamps rebuilt from the FinalMessage's 32-bit fields so that they ascend (R227, D20). -/
def rebuildTagTimes (s : State) : State :=
  let ps : Int := s.rx.ts0.toNat
  let rr : Int := ps + diff32 s.rx.ts1 s.rx.ts0
  let fs : Int := rr + diff32 s.rx.ts2 s.rx.ts1
  writeT fsReg fs (writeT rrReg rr (writeT psReg ps s))

/-- `RXPWR` and `BIASKEY` from the port (R228). -/
def loadBiasInputs (a : TrxAnswers) (s : State) : State :=
  let s := ((s.call .getReceivePowerDbm).call .getChannel).call .getPulseRepetitionFrequency
  { s with rmu := { s.rmu with
      rxpwr := a.rxPower
      biaskey := biasKeyOf s.rmu.bandMap s.trx.channel s.trx.prf } }

/-- The range of a complete exchange (R228, R229): the body of `RNG.COMPUTE`, the caller's validity check, the body
of `RNG.CORRECT`. -/
def rangeExchange (s : State) : State :=
  let s := computeRange s
  if s.rangeInvalid then raiseErr .rangeInvalid .diffInvalid s
  else if s.rangeDivzero then raiseErr .rangeInvalid .divZero s
  else (correctRange s).goto .rangeComputed

/-- `AwaitingFinal` on receive done, after the decode (R227, R228). -/
def acceptFinal (a : TrxAnswers) (s : State) : State :=
  let s := s.call .getOwnShortAddress
  if s.rx.dst ≠ s.trx.shortAddr ∨ s.rx.src ≠ s.ses.peerAddr then raiseErr .protocolViolation .addrMismatch s
  else
    let s := writeT frReg (rawValue a.rxTime) (s.call .getReceiveTimestamp)
    rangeExchange (loadBiasInputs a (rebuildTagTimes s))

/-- `AwaitingFinal` on receive done (R227, R228). -/
def onFinal (a : TrxAnswers) (s : State) : State := withDecoded (decodeFrame .final s) (acceptFinal a)

/-- `RangeComputed`, the next step (R230): `CTRL.POLICY` chooses RangingConfirm or ActivityFinished. -/
def sendVerdict (s : State) : State :=
  let s := s.call .getOwnShortAddress
  let s := { s with tx := { s.tx with dst := s.ses.peerAddr, src := s.trx.shortAddr } }
  if s.policy then
    let s := { s with tx := { s.tx with arg := s.ses.nextAnchor } }
    (transmit (encodeFrame .confirm s)).goto .confirmSent
  else
    let s := { s with tx := { s.tx with arg := s.ses.blinkSuggest } }
    (transmit (encodeFrame .finished s)).goto .finishedSent

/-- `ConfirmSent` or `FinishedSent` on transmit done (R231): the RangeResult; `FSM_STATE` keeps its value. -/
def finishAnchor (s : State) : State := (s.setResult 0b11#2).setBusy false

/-- The body of `SES.ADMIT` (R240). -/
def startAdmit (s : State) : State := startListening .awaitingBlink (s.clearErr.setBusy true)

/-- `SES.ADMIT` (R240). -/
def execSesAdmit (s : State) : Result := startSession startAdmit s

/-- `AwaitingBlink` on receive done, after the decode (R241). -/
def acceptBlink (s : State) : State :=
  let s := { s with ses := { s.ses with peerEui := s.rx.eui } }
  let s := (s.call .getNetworkId).call .getOwnShortAddress
  let s := { s with tx := { s.tx with
      netId := s.trx.netId, eui := s.ses.peerEui, src := s.trx.shortAddr, arg := s.ses.assignAddr } }
  (transmit (encodeFrame .rinit s)).goto .initiationSent

/-- `AwaitingBlink` on receive done (R241). -/
def onBlink (s : State) : State := withDecoded (decodeFrame .blink s) acceptBlink

/-- `InitiationSent` on transmit done (R242). -/
def finishAdmit (s : State) : State := (s.goto .admitted).setBusy false

/-- `SES.CLEAR` (R245): "Accepted whenever `STATUS.BUSY = 0`, in any state." -/
def execSesClear (s : State) : Result := unlessBusy returnToIdle s

end Sys2Proof.Machine
end

