-- ==== Sys2Proof/Machine/Session.lean ====
section
/-! DEFINITION. The stepping of a session (R262 to R267): the polls of a wait state, their priority, and the state's
own rule. -/

namespace Sys2Proof.Machine

/-- The kinds of R31. -/
inductive FsmKind where
  | rest | transmitWait | receiveWait | internal | terminal
  deriving DecidableEq, Repr

/-- The kind of a state while `STATUS.BUSY = 1` (R31); `ConfirmSent` and `FinishedSent` are terminal only while
`STATUS.BUSY = 0`. -/
def FsmState.kind : FsmState → FsmKind
  | .idle => .rest
  | .blinkSent | .pollSent | .finalSent | .responseSent | .confirmSent | .finishedSent | .initiationSent => .transmitWait
  | .awaitingInitiation | .awaitingResponse | .awaitingConfirm | .awaitingPoll | .awaitingFinal
  | .awaitingBlink => .receiveWait
  | .nextAnchor | .rangeComputed => .internal
  | .done | .failed | .admitted => .terminal

/-- The state's "on transmit done" rule (R191, R195, R198, R225, R231, R242). -/
def onTransmitDone (a : TrxAnswers) (s : State) : State :=
  match s.ctl.fsm with
  | .blinkSent => startListening .awaitingInitiation s
  | .pollSent => startListening .awaitingResponse s
  | .finalSent => startListening .awaitingConfirm s
  | .responseSent => onResponseSent a s
  | .confirmSent => finishAnchor s
  | .finishedSent => finishAnchor s
  | .initiationSent => finishAdmit s
  | .idle | .awaitingInitiation | .awaitingResponse | .awaitingConfirm | .nextAnchor | .done | .failed
  | .awaitingPoll | .awaitingFinal | .rangeComputed | .awaitingBlink | .admitted => s

/-- The state's "on receive done" rule, the frame being in `RXBUF` (R193, R197, R199, R222, R227, R241). -/
def onReceiveDone (a : TrxAnswers) (s : State) : State :=
  match s.ctl.fsm with
  | .awaitingInitiation => onInitiation s
  | .awaitingResponse => onResponse a s
  | .awaitingConfirm => onConfirm s
  | .awaitingPoll => onPoll a s
  | .awaitingFinal => onFinal a s
  | .awaitingBlink => onBlink s
  | .idle | .blinkSent | .pollSent | .finalSent | .nextAnchor | .done | .failed | .responseSent
  | .rangeComputed | .confirmSent | .finishedSent | .initiationSent | .admitted => s

/-- The rule of an internal state (R202, R230). -/
def internalStep (s : State) : State :=
  match s.ctl.fsm with
  | .nextAnchor => sendPoll s
  | .rangeComputed => sendVerdict s
  | .idle | .blinkSent | .awaitingInitiation | .pollSent | .awaitingResponse | .finalSent | .awaitingConfirm
  | .done | .failed | .awaitingPoll | .responseSent | .awaitingFinal | .confirmSent | .finishedSent
  | .awaitingBlink | .initiationSent | .admitted => s

/-- A transmit wait (R262, R263): fault, then done, else nothing. -/
def transmitWait (a : TrxAnswers) (s : State) : State :=
  let s := s.call .isHardwareFault
  if a.hwFault then raiseErr .hardwareFault .none s
  else
    let s := s.call .isTransmitDone
    if a.txDone then onTransmitDone a s else s

/-- A receive wait (R262, R265): fault, then a frame, then the timeout, else nothing. -/
def receiveWait (a : TrxAnswers) (s : State) : State :=
  let s := s.call .isHardwareFault
  if a.hwFault then raiseErr .hardwareFault .none s
  else
    let s := s.call .isReceiveDone
    if a.rxDone then onReceiveDone a (loadFrame a.frame (s.call .getReceivedFrame))
    else
      let s := s.call .isReceiveTimedOut
      if a.rxTimedOut then raiseErr .exchangeTimeout .none (s.call .forceIdle) else s

/-- One session step with the transceiver's answers `a` (R262): "While `STATUS.BUSY = 1` the engine takes session
steps ...; while `STATUS.BUSY = 0` it takes none." -/
def engineStep (a : TrxAnswers) (s : State) : State :=
  if s.busy then
    match s.ctl.fsm.kind with
    | .transmitWait => transmitWait a s
    | .receiveWait => receiveWait a s
    | .internal => internalStep s
    | .rest | .terminal => s
  else s

/-- The engine with no outside event scheduled: a busy engine polls on, and what the transceiver then answers is a
free value (U4); an engine that is not busy does nothing (R262, R292). -/
def idleStep (s : State) : State :=
  if s.busy then engineStep (Config.answers s.free) { s with free := s.free + 1 } else s

end Sys2Proof.Machine
end

