-- ==== Sys2Proof/Machine/Tsu.lean ====
section
/-! DEFINITION. The timestamp unit's twelve commands (R110 to R125). "No `TS.*` command can fail once it has been
accepted" (R120): each is R95 test 1 and then its own effect. -/

namespace Sys2Proof.Machine

/-- Division with the zero divisor of R115 and R117: `MIN_TS` and `TS_DIVZ`, else the floor quotient. -/
def writeQuotient (rd : Reg) (a d : Int) (s : State) : State :=
  if d = 0 then (writeT rd minTs s).raiseTsDivz else writeT rd (floorDiv a d) s

/-- `TS.FROMRAW rd` (R110). -/
def execTsFromraw (rd : Reg) (s : State) : Result :=
  unlessBusy (fun s => writeT rd (rawinValue s) s) s

/-- `TS.TORAW ra` (R111): "the low 40 bits of the two's complement pattern", and `RAW_INVALID`. -/
def execTsToraw (ra : Reg) (s : State) : Result :=
  unlessBusy (fun s =>
    let s' := s.setRawInvalid (!isValid (readT ra s))
    { s' with tsu := { s'.tsu with rawout := (s.tsu.tregs[ra]).setWidth 40 } }) s

/-- `TS.ADD rd, ra, rb` (R112). -/
def execTsAdd (rd ra rb : Reg) (s : State) : Result :=
  unlessBusy (fun s => writeT rd (readT ra s + readT rb s) s) s

/-- `TS.SUB rd, ra, rb` (R113). -/
def execTsSub (rd ra rb : Reg) (s : State) : Result :=
  unlessBusy (fun s => writeT rd (readT ra s - readT rb s) s) s

/-- `TS.MULS rd, ra` (R114). -/
def execTsMuls (rd ra : Reg) (s : State) : Result :=
  unlessBusy (fun s => writeT rd (readT ra s * scalarValue s) s) s

/-- `TS.DIVS rd, ra` (R115). -/
def execTsDivs (rd ra : Reg) (s : State) : Result :=
  unlessBusy (fun s => writeQuotient rd (readT ra s) (scalarValue s) s) s

/-- `TS.MULT rd, ra, rb` (R116). -/
def execTsMult (rd ra rb : Reg) (s : State) : Result :=
  unlessBusy (fun s => writeT rd (readT ra s * readT rb s) s) s

/-- `TS.DIVT rd, ra, rb` (R117). -/
def execTsDivt (rd ra rb : Reg) (s : State) : Result :=
  unlessBusy (fun s => writeQuotient rd (readT ra s) (readT rb s) s) s

/-- `TS.WRAP rd, ra` (R118): at most one addition of the modulus. -/
def execTsWrap (rd ra : Reg) (s : State) : Result :=
  unlessBusy (fun s => writeT rd (wrap (readT ra s)) s) s

/-- `TS.VALID ra` (R119). -/
def execTsValid (ra : Reg) (s : State) : Result :=
  unlessBusy (fun s => s.setTsValid (isValid (readT ra s))) s

/-- `TS.TOUS ra` (R122). -/
def execTsTous (ra : Reg) (s : State) : Result :=
  unlessBusy (fun s => writeConv (readT ra s * kUs) s) s

/-- `TS.TOM ra` (R123). -/
def execTsTom (ra : Reg) (s : State) : Result :=
  unlessBusy (fun s => writeConv (readT ra s * kM) s) s

end Sys2Proof.Machine
end

