-- ==== Sys2Proof/Machine/Dispatch.lean ====
section
/-! DEFINITION. The meaning of a command: one arm per constructor of Instr. -/

namespace Sys2Proof.Machine

def exec (i : Instr) (s : State) : Host.Outcome State Fault Refusal :=
  match i with
  | .tsFromraw rd => Sys2Proof.Machine.execTsFromraw rd s
  | .tsToraw ra => Sys2Proof.Machine.execTsToraw ra s
  | .tsAdd rd ra rb => Sys2Proof.Machine.execTsAdd rd ra rb s
  | .tsSub rd ra rb => Sys2Proof.Machine.execTsSub rd ra rb s
  | .tsMuls rd ra => Sys2Proof.Machine.execTsMuls rd ra s
  | .tsDivs rd ra => Sys2Proof.Machine.execTsDivs rd ra s
  | .tsMult rd ra rb => Sys2Proof.Machine.execTsMult rd ra rb s
  | .tsDivt rd ra rb => Sys2Proof.Machine.execTsDivt rd ra rb s
  | .tsWrap rd ra => Sys2Proof.Machine.execTsWrap rd ra s
  | .tsValid ra => Sys2Proof.Machine.execTsValid ra s
  | .tsTous ra => Sys2Proof.Machine.execTsTous ra s
  | .tsTom ra => Sys2Proof.Machine.execTsTom ra s
  | .rngCompute => Sys2Proof.Machine.execRngCompute s
  | .rngCorrect => Sys2Proof.Machine.execRngCorrect s
  | .fcEnc k => Sys2Proof.Machine.execFcEnc k s
  | .fcDec k => Sys2Proof.Machine.execFcDec k s
  | .sesTag => Sys2Proof.Machine.execSesTag s
  | .sesAnchor => Sys2Proof.Machine.execSesAnchor s
  | .sesAdmit => Sys2Proof.Machine.execSesAdmit s
  | .sesClear => Sys2Proof.Machine.execSesClear s

end Sys2Proof.Machine
end

