-- ==== Sys2Proof/Machine/HostPort.lean ====
section
/-! DEFINITION. The host port (R70 to R80): the register map of R46, reads, refused and accepted writes, the frame
buffers, and the reset input (R290, R291). A write to `CMD` is in Command.lean. -/

namespace Sys2Proof.Machine

/-- The host-visible registers (R46). -/
inductive HostReg where
  | cmd | status | ctrl | err | fsmState | cmdErrCode
  | rawin | rawout | scalar | conv
  | round1 | reply1 | round2 | reply2 | tofNum | tofDen | distRaw | rxpwr | biaskey | bias | dist | rangeStatus
  | exchMask | bandMap
  | replyDelay | assignAddr | nextAnchor | blinkSuggest | anchorAddr | peerAddr | blinkRate | exchCount | result
  | peerEui
  | seq | fEui | fNetid | fDst | fSrc | fArg | fAct | fTs0 | fTs1 | fTs2 | txlen
  | dFc | dSeq | dEui | dNetid | dDst | dSrc | dArg | dAct | dTs0 | dTs1 | dTs2 | rxlen
  | t (i : Reg)
  deriving DecidableEq, Repr

/-- The register at an index (R46); an index not in the table is unimplemented. -/
def hostRegAt (idx : BitVec 8) : Option HostReg :=
  match idx.toNat with
  | 0x00 => some .cmd
  | 0x01 => some .status
  | 0x02 => some .ctrl
  | 0x03 => some .err
  | 0x04 => some .fsmState
  | 0x05 => some .cmdErrCode
  | 0x08 => some .rawin
  | 0x09 => some .rawout
  | 0x0A => some .scalar
  | 0x0B => some .conv
  | 0x10 => some .round1
  | 0x11 => some .reply1
  | 0x12 => some .round2
  | 0x13 => some .reply2
  | 0x14 => some .tofNum
  | 0x15 => some .tofDen
  | 0x16 => some .distRaw
  | 0x17 => some .rxpwr
  | 0x18 => some .biaskey
  | 0x19 => some .bias
  | 0x1A => some .dist
  | 0x1B => some .rangeStatus
  | 0x1C => some .exchMask
  | 0x1D => some .bandMap
  | 0x20 => some .replyDelay
  | 0x21 => some .assignAddr
  | 0x22 => some .nextAnchor
  | 0x23 => some .blinkSuggest
  | 0x24 => some .anchorAddr
  | 0x25 => some .peerAddr
  | 0x26 => some .blinkRate
  | 0x27 => some .exchCount
  | 0x28 => some .result
  | 0x29 => some .peerEui
  | 0x30 => some .seq
  | 0x31 => some .fEui
  | 0x32 => some .fNetid
  | 0x33 => some .fDst
  | 0x34 => some .fSrc
  | 0x35 => some .fArg
  | 0x36 => some .fAct
  | 0x37 => some .fTs0
  | 0x38 => some .fTs1
  | 0x39 => some .fTs2
  | 0x3A => some .txlen
  | 0x40 => some .dFc
  | 0x41 => some .dSeq
  | 0x42 => some .dEui
  | 0x43 => some .dNetid
  | 0x44 => some .dDst
  | 0x45 => some .dSrc
  | 0x46 => some .dArg
  | 0x47 => some .dAct
  | 0x48 => some .dTs0
  | 0x49 => some .dTs1
  | 0x4A => some .dTs2
  | 0x4B => some .rxlen
  | n => if 0x80 ≤ n ∧ n ≤ 0x8F then some (.t (Fin.ofNat 16 (n - 0x80))) else none

/-- A register's width in bits (R46, column "bits"). -/
def regWidth : HostReg → Nat
  | .cmd | .status | .ctrl | .err => 32
  | .fsmState | .cmdErrCode => 8
  | .rawin | .rawout | .replyDelay => 40
  | .scalar | .peerEui | .fEui | .dEui => 64
  | .conv | .round1 | .reply1 | .round2 | .reply2 | .tofNum | .tofDen | .distRaw | .bias | .dist | .t _ => 128
  | .rxpwr | .fTs0 | .fTs1 | .fTs2 | .dTs0 | .dTs1 | .dTs2 => 32
  | .biaskey | .result => 2
  | .rangeStatus | .exchCount | .seq | .fAct | .dFc | .dSeq | .dAct => 8
  | .exchMask => 6
  | .bandMap | .assignAddr | .nextAnchor | .blinkSuggest | .anchorAddr | .peerAddr | .blinkRate => 16
  | .fNetid | .fDst | .fSrc | .fArg | .dNetid | .dDst | .dSrc | .dArg => 16
  | .txlen | .rxlen => 7

/-- `ERR.CLASS` (R34). -/
def ErrClass.code : ErrClass → BitVec 3
  | .none => 0 | .exchangeTimeout => 1 | .protocolViolation => 2 | .hardwareFault => 3 | .rangeInvalid => 4

/-- `ERR.DETAIL` (R34). -/
def ErrDetail.code : ErrDetail → BitVec 4
  | .none => 0 | .truncated => 1 | .badFc => 2 | .addrMismatch => 3 | .notContinue => 4 | .diffInvalid => 5
  | .divZero => 6

/-- `CMD_ERR_CODE` (R35). -/
def RejectCode.code : RejectCode → BitVec 8
  | .none => 0 | .illegalOpcode => 1 | .reservedBits => 2 | .busy => 3 | .badState => 4 | .badKind => 5
  | .writeRefused => 6

/-- The word of `ERR`: `STATE` in bits 12:8, `DETAIL` in bits 7:4, bit 3 zero, `CLASS` in bits 2:0 (R34). -/
def errWord (e : ErrReg) : BitVec 32 :=
  (0#19 ++ e.state.code ++ e.detail.code ++ 0#1 ++ e.cls.code : BitVec 32)

/-- The value of a register, zero-extended to the port's carrier (R71). `CMD` reads 0 (R36, R72); the reserved bits of
`STATUS`, `CTRL`, `ERR`, `FSM_STATE` and `CMD_ERR_CODE` read 0 (R30, R32 to R35). -/
def readReg (r : HostReg) (s : State) : BitVec 128 :=
  match r with
  | .cmd => 0
  | .status => s.ctl.status.setWidth 128
  | .ctrl => s.ctl.ctrl.setWidth 128
  | .err => (errWord s.ctl.err).setWidth 128
  | .fsmState => s.ctl.fsm.code.setWidth 128
  | .cmdErrCode => s.ctl.cmdErrCode.code.setWidth 128
  | .rawin => s.tsu.rawin.setWidth 128
  | .rawout => s.tsu.rawout.setWidth 128
  | .scalar => s.tsu.scalar.setWidth 128
  | .conv => s.tsu.conv
  | .round1 => s.rmu.round1
  | .reply1 => s.rmu.reply1
  | .round2 => s.rmu.round2
  | .reply2 => s.rmu.reply2
  | .tofNum => s.rmu.tofNum
  | .tofDen => s.rmu.tofDen
  | .distRaw => s.rmu.distRaw
  | .rxpwr => s.rmu.rxpwr.setWidth 128
  | .biaskey => s.rmu.biaskey.setWidth 128
  | .bias => s.rmu.bias
  | .dist => s.rmu.dist
  | .rangeStatus => s.rmu.rangeStatus.setWidth 128
  | .exchMask => s.tsu.exchMask.setWidth 128
  | .bandMap => s.rmu.bandMap.setWidth 128
  | .replyDelay => s.ses.replyDelay.setWidth 128
  | .assignAddr => s.ses.assignAddr.setWidth 128
  | .nextAnchor => s.ses.nextAnchor.setWidth 128
  | .blinkSuggest => s.ses.blinkSuggest.setWidth 128
  | .anchorAddr => s.ses.anchorAddr.setWidth 128
  | .peerAddr => s.ses.peerAddr.setWidth 128
  | .blinkRate => s.ses.blinkRate.setWidth 128
  | .exchCount => s.ses.exchCount.setWidth 128
  | .result => s.ses.result.setWidth 128
  | .peerEui => s.ses.peerEui.setWidth 128
  | .seq => s.tx.seq.setWidth 128
  | .fEui => s.tx.eui.setWidth 128
  | .fNetid => s.tx.netId.setWidth 128
  | .fDst => s.tx.dst.setWidth 128
  | .fSrc => s.tx.src.setWidth 128
  | .fArg => s.tx.arg.setWidth 128
  | .fAct => s.tx.act.setWidth 128
  | .fTs0 => s.tx.ts0.setWidth 128
  | .fTs1 => s.tx.ts1.setWidth 128
  | .fTs2 => s.tx.ts2.setWidth 128
  | .txlen => s.tx.len.setWidth 128
  | .dFc => s.rx.fc.setWidth 128
  | .dSeq => s.rx.seq.setWidth 128
  | .dEui => s.rx.eui.setWidth 128
  | .dNetid => s.rx.netId.setWidth 128
  | .dDst => s.rx.dst.setWidth 128
  | .dSrc => s.rx.src.setWidth 128
  | .dArg => s.rx.arg.setWidth 128
  | .dAct => s.rx.act.setWidth 128
  | .dTs0 => s.rx.ts0.setWidth 128
  | .dTs1 => s.rx.ts1.setWidth 128
  | .dTs2 => s.rx.ts2.setWidth 128
  | .rxlen => s.rx.len.setWidth 128
  | .t i => s.tsu.tregs[i]

/-- `HostRead(idx)` (R70, R72): an unlisted index returns 0. -/
def hostReadValue (idx : BitVec 8) (s : State) : BitVec 128 :=
  match hostRegAt idx with
  | none => 0
  | some r => readReg r s

/-- A write of a register with "w" access (R46): only that register changes (R79). `none` for every other register,
which the port refuses (R72); `CMD` and `STATUS` are not plain registers and are treated before this. -/
def writeReg (r : HostReg) (v : BitVec 128) (s : State) : Option State :=
  match r with
  | .ctrl => some { s with ctl := { s.ctl with ctrl := v.setWidth 2 } }
  | .rawin => some { s with tsu := { s.tsu with rawin := v.setWidth 40 } }
  | .scalar => some { s with tsu := { s.tsu with scalar := v.setWidth 64 } }
  | .distRaw => some { s with rmu := { s.rmu with distRaw := v } }
  | .rxpwr => some { s with rmu := { s.rmu with rxpwr := v.setWidth 32 } }
  | .biaskey => some { s with rmu := { s.rmu with biaskey := v.setWidth 2 } }
  | .bandMap => some { s with rmu := { s.rmu with bandMap := v.setWidth 16 } }
  | .replyDelay => some { s with ses := { s.ses with replyDelay := v.setWidth 40 } }
  | .assignAddr => some { s with ses := { s.ses with assignAddr := v.setWidth 16 } }
  | .nextAnchor => some { s with ses := { s.ses with nextAnchor := v.setWidth 16 } }
  | .blinkSuggest => some { s with ses := { s.ses with blinkSuggest := v.setWidth 16 } }
  | .fEui => some { s with tx := { s.tx with eui := v.setWidth 64 } }
  | .fNetid => some { s with tx := { s.tx with netId := v.setWidth 16 } }
  | .fDst => some { s with tx := { s.tx with dst := v.setWidth 16 } }
  | .fSrc => some { s with tx := { s.tx with src := v.setWidth 16 } }
  | .fArg => some { s with tx := { s.tx with arg := v.setWidth 16 } }
  | .fAct => some { s with tx := { s.tx with act := v.setWidth 8 } }
  | .fTs0 => some { s with tx := { s.tx with ts0 := v.setWidth 32 } }
  | .fTs1 => some { s with tx := { s.tx with ts1 := v.setWidth 32 } }
  | .fTs2 => some { s with tx := { s.tx with ts2 := v.setWidth 32 } }
  | .rxlen => some { s with rx := { s.rx with len := v.setWidth 7 } }
  | .cmd | .status | .err | .fsmState | .cmdErrCode | .rawout | .conv | .round1 | .reply1 | .round2 | .reply2
  | .tofNum | .tofDen | .bias | .dist | .rangeStatus | .exchMask | .anchorAddr | .peerAddr | .blinkRate
  | .exchCount | .result | .peerEui | .seq | .txlen | .dFc | .dSeq | .dEui | .dNetid | .dDst | .dSrc | .dArg
  | .dAct | .dTs0 | .dTs1 | .dTs2 | .t _ => none

/-- `HostWrite(STATUS, v)` (R32): accepted whether or not `BUSY` is 1. -/
def writeStatus (v : BitVec 128) (s : State) : State :=
  { s with ctl := { s.ctl with status := clearSticky s.ctl.status (v.setWidth 7) } }

/-- `HostWrite` to a register other than `CMD` and `STATUS` (R72, R73): refused while a session runs, and where the
register is not listed or not writable. -/
def writePlain (r : Option HostReg) (v : BitVec 128) (s : State) : State :=
  if s.busy then s.reject .writeRefused
  else
    match r with
    | none => s.reject .writeRefused
    | some r =>
      match writeReg r v s with
      | none => s.reject .writeRefused
      | some s' => s'

/-- `HostBufRead(buf, off)` (R74, R75): an offset above 126 reads 0. -/
def hostBufReadValue (b : BufName) (off : Nat) (s : State) : Octet :=
  if off < frameMax then
    match b with
    | .txbuf => readOctet s.tx.buf off
    | .rxbuf => readOctet s.rx.buf off
  else 0

/-- `HostBufWrite(buf, off, v)` (R73 to R75): only an octet of `RXBUF` inside the buffer, and only while no session
runs; every other such write is refused. -/
def hostBufWrite (b : BufName) (off : Nat) (v : Octet) (s : State) : State :=
  if s.busy then s.reject .writeRefused
  else
    match b with
    | .txbuf => s.reject .writeRefused
    | .rxbuf =>
      if off < frameMax then { s with rx := { s.rx with buf := writeOctet s.rx.buf off v } }
      else s.reject .writeRefused

/-- The host's answer, recorded in its order. -/
def State.reply (r : HostReply) (s : State) : State := { s with replies := s.replies ++ [r] }

/-- The reset input (R290, R291): every register and buffer octet of the engine takes its reset value; "no transceiver
call is made", and what is outside the engine keeps its state. -/
def resetEngine (s : State) : State :=
  { s with ctl := State.reset.ctl, tsu := State.reset.tsu, rmu := State.reset.rmu, ses := State.reset.ses,
           tx := State.reset.tx, rx := State.reset.rx }

end Sys2Proof.Machine
end

