-- ==== Sys2Proof/Machine/Command.lean ====
section
/-! DEFINITION. A write to `CMD` (R90, R95), the host's operations as steps (R70, R78), and one event of the
machine's order (R82). -/

namespace Sys2Proof.Machine

/-- The rejection code of a word that is no command (R95 tests 2 to 4, R261). -/
def rejectCodeOf : DecodeError → RejectCode
  | .illegalOpcode => .illegalOpcode
  | .reservedBits => .reservedBits
  | .badKind => .badKind

/-- `HostWrite(CMD, w)` (R90, R95): "If `STATUS.BUSY = 1`: `reject(BUSY)`, whatever `w` is", then the word's own
tests, then the command, whose meaning makes the test of `FSM_STATE`. -/
def submit (w : CmdWord) (s : State) : Result :=
  if s.busy then .next (s.reject .busy)
  else
    match decode w with
    | .error e => .next (s.reject (rejectCodeOf e))
    | .ok i => exec i s

/-- `HostWrite(idx, v)` (R70, R72, R73). -/
def hostWrite (idx : BitVec 8) (v : BitVec 128) (s : State) : Result :=
  match hostRegAt idx with
  | some .cmd => submit (v.setWidth 32) s
  | some .status => .next (writeStatus v s)
  | r => .next (writePlain r v s)

/-- One operation of the host (R70, R74). Reads change nothing of the engine (R79); what they return is recorded. -/
def hostStep (op : HostOp) (s : State) : Result :=
  match op with
  | .read idx => .next (s.reply (.reg idx (hostReadValue idx s)))
  | .write idx v => hostWrite idx v s
  | .bufRead b off => .next (s.reply (.octet b off (hostBufReadValue b off s)))
  | .bufWrite b off v => .next (hostBufWrite b off v s)

/-- What one event does (R78, R82). -/
def eventStep (e : Event) (s : State) : Result :=
  match e with
  | .host op => hostStep op s
  | .poll a => .next (engineStep a s)
  | .reset => .next (resetEngine s)

/-- The index of `CMD` (R36). -/
def cmdIndex : BitVec 8 := 0x00#8

/-- The event in which the host writes the command word that an `nbits`-bit instruction `w` stands for. -/
def commandEvent (nbits w : Nat) : Event :=
  .host (.write cmdIndex ((BitVec.ofNat 32 (w % 2 ^ nbits)).setWidth 128))

end Sys2Proof.Machine
end

