-- ==== Sys2Proof/Machine/Step.lean ====
section
/-! DEFINITION. One step of the machine, and the placing of a command as the step's next event. -/

namespace Sys2Proof.Machine

/-- One step (R78, R82): the next event of the schedule; with none scheduled, the engine alone (R262). -/
def step (s : State) : Host.Outcome State Fault Refusal :=
  match s.sched with
  | [] => .next (idleStep s)
  | e :: rest => eventStep e { s with sched := rest }

/-- The engine "fetches nothing" (R30): a command is executed when the host writes it to `CMD`. The command placed
here is the host's next operation (log entry 2). -/
def State.withFetchWord (s : State) (nbits w : Nat) : State := { s with sched := commandEvent nbits w :: s.sched }

end Sys2Proof.Machine
end

