-- ==== Sys2Proof/Machine/Assembler.lean ====
section
/-! DEFINITION. The text form of commands (R97) and the pseudo-instructions (R98), as lists of host operations. -/

namespace Sys2Proof.Machine

/-- The mnemonic of a command (R94). -/
def mnemonic : Instr → String
  | .tsFromraw _ => "TS.FROMRAW"
  | .tsToraw _ => "TS.TORAW"
  | .tsAdd _ _ _ => "TS.ADD"
  | .tsSub _ _ _ => "TS.SUB"
  | .tsMuls _ _ => "TS.MULS"
  | .tsDivs _ _ => "TS.DIVS"
  | .tsMult _ _ _ => "TS.MULT"
  | .tsDivt _ _ _ => "TS.DIVT"
  | .tsWrap _ _ => "TS.WRAP"
  | .tsValid _ => "TS.VALID"
  | .tsTous _ => "TS.TOUS"
  | .tsTom _ => "TS.TOM"
  | .rngCompute => "RNG.COMPUTE"
  | .rngCorrect => "RNG.CORRECT"
  | .fcEnc _ => "FC.ENC"
  | .fcDec _ => "FC.DEC"
  | .sesTag => "SES.TAG"
  | .sesAnchor => "SES.ANCHOR"
  | .sesAdmit => "SES.ADMIT"
  | .sesClear => "SES.CLEAR"

/-- A timestamp register's text, `T0` to `T15` (R97). -/
def regText (r : Reg) : String := "T" ++ toString r.val

/-- The aliases of `T8` to `T13` (R22, R97). -/
def regOfAlias : String → Option Reg
  | "PS" => some psReg
  | "PR" => some prReg
  | "RS" => some rsReg
  | "RR" => some rrReg
  | "FS" => some fsReg
  | "FR" => some frReg
  | _ => none

/-- A frame kind's text (R97); a number that names no kind is written as it is. -/
def kindText (k : KindNum) : String :=
  match kindOfNum k with
  | some .blink => "BLINK"
  | some .rinit => "RINIT"
  | some .poll => "POLL"
  | some .resp => "RESP"
  | some .final => "FINAL"
  | some .confirm => "CONFIRM"
  | some .finished => "FINISHED"
  | none => toString k.val

/-- The operands of a command, in the order of R94's mnemonic column. -/
def operandTexts : Instr → List String
  | .tsFromraw rd => [regText rd]
  | .tsToraw ra => [regText ra]
  | .tsAdd rd ra rb => [regText rd, regText ra, regText rb]
  | .tsSub rd ra rb => [regText rd, regText ra, regText rb]
  | .tsMuls rd ra => [regText rd, regText ra]
  | .tsDivs rd ra => [regText rd, regText ra]
  | .tsMult rd ra rb => [regText rd, regText ra, regText rb]
  | .tsDivt rd ra rb => [regText rd, regText ra, regText rb]
  | .tsWrap rd ra => [regText rd, regText ra]
  | .tsValid ra => [regText ra]
  | .tsTous ra => [regText ra]
  | .tsTom ra => [regText ra]
  | .rngCompute => []
  | .rngCorrect => []
  | .fcEnc k => [kindText k]
  | .fcDec k => [kindText k]
  | .sesTag => []
  | .sesAnchor => []
  | .sesAdmit => []
  | .sesClear => []

/-- A command's line of text: "its mnemonic followed by its operands separated by commas" (R97). -/
def commandText (i : Instr) : String :=
  match operandTexts i with
  | [] => mnemonic i
  | [a] => mnemonic i ++ " " ++ a
  | a :: rest => rest.foldl (fun t b => t ++ ", " ++ b) (mnemonic i ++ " " ++ a)

/-- The name of a register (R46), as the text form writes it (R97). -/
def hostRegName : HostReg → String
  | .cmd => "CMD"
  | .status => "STATUS"
  | .ctrl => "CTRL"
  | .err => "ERR"
  | .fsmState => "FSM_STATE"
  | .cmdErrCode => "CMD_ERR_CODE"
  | .rawin => "RAWIN"
  | .rawout => "RAWOUT"
  | .scalar => "SCALAR"
  | .conv => "CONV"
  | .round1 => "ROUND1"
  | .reply1 => "REPLY1"
  | .round2 => "ROUND2"
  | .reply2 => "REPLY2"
  | .tofNum => "TOF_NUM"
  | .tofDen => "TOF_DEN"
  | .distRaw => "DIST_RAW"
  | .rxpwr => "RXPWR"
  | .biaskey => "BIASKEY"
  | .bias => "BIAS"
  | .dist => "DIST"
  | .rangeStatus => "RANGE_STATUS"
  | .exchMask => "EXCH_MASK"
  | .bandMap => "BAND_MAP"
  | .replyDelay => "REPLY_DELAY"
  | .assignAddr => "ASSIGN_ADDR"
  | .nextAnchor => "NEXT_ANCHOR"
  | .blinkSuggest => "BLINK_SUGGEST"
  | .anchorAddr => "ANCHOR_ADDR"
  | .peerAddr => "PEER_ADDR"
  | .blinkRate => "BLINK_RATE"
  | .exchCount => "EXCH_COUNT"
  | .result => "RESULT"
  | .peerEui => "PEER_EUI"
  | .seq => "SEQ"
  | .fEui => "F_EUI"
  | .fNetid => "F_NETID"
  | .fDst => "F_DST"
  | .fSrc => "F_SRC"
  | .fArg => "F_ARG"
  | .fAct => "F_ACT"
  | .fTs0 => "F_TS0"
  | .fTs1 => "F_TS1"
  | .fTs2 => "F_TS2"
  | .txlen => "TXLEN"
  | .dFc => "D_FC"
  | .dSeq => "D_SEQ"
  | .dEui => "D_EUI"
  | .dNetid => "D_NETID"
  | .dDst => "D_DST"
  | .dSrc => "D_SRC"
  | .dArg => "D_ARG"
  | .dAct => "D_ACT"
  | .dTs0 => "D_TS0"
  | .dTs1 => "D_TS1"
  | .dTs2 => "D_TS2"
  | .rxlen => "RXLEN"
  | .t i => regText i

/-- A buffer's name (R45). -/
def bufNameText : BufName → String
  | .txbuf => "TXBUF"
  | .rxbuf => "RXBUF"

/-- The line of a host operation (R97): `WR`, `RD`, `WRB`, `RDB`, and a command's own text for the write of its word to
`CMD`. Values are decimal (R12). An index with no register has no name.
DESIGN CHOICE (log entry 22), safe: R97 gives `WRB` for `RXBUF` only and no text for a write to `TXBUF`, which the vectors
spell as the operation (V104: `HostBufWrite(TXBUF, 0, 1)`); here it is written `WRB TXBUF+off, value`. It is text only: the
operation itself is refused (R74). -/
def hostOpText : HostOp → Option String
  | .read idx => (hostRegAt idx).map fun r => "RD " ++ hostRegName r
  | .write idx v =>
    match hostRegAt idx, decode (v.setWidth 32) with
    | some .cmd, .ok i => some (commandText i)
    | some r, _ => some ("WR " ++ hostRegName r ++ ", " ++ toString v.toNat)
    | none, _ => none
  | .bufRead b off => some ("RDB " ++ bufNameText b ++ "+" ++ toString off)
  | .bufWrite b off v => some ("WRB " ++ bufNameText b ++ "+" ++ toString off ++ ", " ++ toString v.toNat)

/-- A `WAIT` that reads `STATUS` `n + 1` times (R97: "repeat `RD STATUS` until `BUSY` = 0"). Other events may fall between
the reads (R82). -/
def waitOps (n : Nat) : List HostOp := List.replicate (n + 1) (.read 0x01#8)

/-- A `WAIT` whose reads of `STATUS` returned `answers`, in order, has ended: the last has `BUSY` = 0 and every one
before it `BUSY` = 1 (R97). -/
def waitEnded : List (BitVec 128) → Bool
  | [] => false
  | [v] => !v.getLsbD 0
  | v :: rest => v.getLsbD 0 && waitEnded rest

/-- A command line "stands for `HostWrite(CMD, word)`" (R97). -/
def commandOp (i : Instr) : HostOp := .write cmdIndex ((encode i).setWidth 128)

/-- `TS.LI rd, v`: `WR RAWIN, v` then `TS.FROMRAW rd` (R98). -/
def pseudoLi (rd : Reg) (v : Raw40) : List HostOp := [.write 0x08#8 (v.setWidth 128), commandOp (.tsFromraw rd)]

/-- `TS.WDIFF rd, ra, rb`: `TS.SUB rd, ra, rb` then `TS.WRAP rd, rd` (R98). -/
def pseudoWdiff (rd ra rb : Reg) : List HostOp := [commandOp (.tsSub rd ra rb), commandOp (.tsWrap rd rd)]

/-- `TS.MOV rd, ra`: `WR SCALAR, 1` then `TS.MULS rd, ra` (R98). -/
def pseudoMov (rd ra : Reg) : List HostOp := [.write 0x0A#8 1#128, commandOp (.tsMuls rd ra)]

/-- `CLRFLAGS`: `WR STATUS, 0x38` (R98). -/
def pseudoClrflags : List HostOp := [.write 0x01#8 0x38#128]

end Sys2Proof.Machine
end

