-- ==== Sys2Proof/Safety.lean ====
section
/-! DEFINITION. The terms the claims use: saturation, what a step keeps (frames), the octets of a frame written out
from the layouts, and the invariants of the machine. No meaning calls anything of this file. -/

namespace Sys2Proof.Machine

/-! ### Values -/

/-- `v` is what a 128-bit signed register holds after the exact result `r` is written with saturation (R121). -/
def SaturatesTo (r v : Int) : Prop :=
  (r < -2 ^ 127 → v = -2 ^ 127) ∧ (2 ^ 127 ≤ r → v = 2 ^ 127 - 1) ∧ (-2 ^ 127 ≤ r → r < 2 ^ 127 → v = r)

/-- The exact result `r` lies outside `[MIN_TS, MAX_TS]`. -/
def outOfRange (r : Int) : Bool := decide (r < -2 ^ 127) || decide (2 ^ 127 ≤ r)

/-- A valid timestamp: `0 <= value < 2^40` (R15). -/
def ValidTs (v : Int) : Prop := 0 ≤ v ∧ v < 2 ^ 40

/-- The wrapped difference of two timestamps of one clock (R15): the modulus is added once if it is negative. -/
def wrappedDiff (a b : Int) : Int := if a - b < 0 then a - b + 2 ^ 40 else a - b

/-- The octets of a 16-bit field, least significant first (R76). -/
def le16 (v : BitVec 16) : List Octet := [v.extractLsb' 0 8, v.extractLsb' 8 8]

/-- The octets of a 32-bit field, least significant first (R76). -/
def le32 (v : BitVec 32) : List Octet :=
  [v.extractLsb' 0 8, v.extractLsb' 8 8, v.extractLsb' 16 8, v.extractLsb' 24 8]

/-- The octets of a 64-bit field, least significant first (R76). -/
def le64 (v : BitVec 64) : List Octet :=
  [v.extractLsb' 0 8, v.extractLsb' 8 8, v.extractLsb' 16 8, v.extractLsb' 24 8,
   v.extractLsb' 32 8, v.extractLsb' 40 8, v.extractLsb' 48 8, v.extractLsb' 56 8]

/-- The function code of each kind (R160). -/
def codeOfKind (p : Params) (k : Kind) : Octet :=
  match k with
  | .blink => p.fcBlink
  | .rinit => p.fcRangingInit
  | .poll => p.fcPoll
  | .resp => p.fcResponse
  | .final => p.fcFinal
  | .confirm => p.fcConfirm
  | .finished => p.fcFinished

/-- The frame of kind `k` with the fields of `t`, octet by octet (R161 to R167). -/
def frameOf (p : Params) (t : Tx) (k : Kind) : List Octet :=
  codeOfKind p k :: t.seq ::
    match k with
    | .blink => le64 t.eui
    | .rinit => le16 t.netId ++ le64 t.eui ++ le16 t.src ++ le16 t.arg
    | .poll => le16 t.dst ++ le16 t.src
    | .resp => le16 t.dst ++ le16 t.src ++ [t.act]
    | .final => le16 t.dst ++ le16 t.src ++ le32 t.ts0 ++ le32 t.ts1 ++ le32 t.ts2
    | .confirm => le16 t.dst ++ le16 t.src ++ le16 t.arg
    | .finished => le16 t.dst ++ le16 t.src ++ le16 t.arg

/-- The kind a number names (R160): 0 to 6 in the table's order. -/
def kindNumber : Kind → KindNum
  | .blink => 0 | .rinit => 1 | .poll => 2 | .resp => 3 | .final => 4 | .confirm => 5 | .finished => 6

/-- `off`-th and next octet of a buffer as a 16-bit number, least significant octet first (R76). -/
def num16 (m : Memory) (off : Nat) : BitVec 16 := readOctet m (off + 1) ++ readOctet m off

/-- Four octets of a buffer as a 32-bit number, least significant octet first (R76). -/
def num32 (m : Memory) (off : Nat) : BitVec 32 :=
  (readOctet m (off + 3) ++ readOctet m (off + 2) ++ readOctet m (off + 1) ++ readOctet m off : BitVec 32)

/-- Eight octets of a buffer as a 64-bit number, least significant octet first (R76). -/
def num64 (m : Memory) (off : Nat) : BitVec 64 :=
  (readOctet m (off + 7) ++ readOctet m (off + 6) ++ readOctet m (off + 5) ++ readOctet m (off + 4) ++
    readOctet m (off + 3) ++ readOctet m (off + 2) ++ readOctet m (off + 1) ++ readOctet m off : BitVec 64)

/-- The `D_*` registers `d` after the decode of an accepted frame of kind `k` in `r.buf` (R161 to R167, R176): the
registers the layout names hold their fields, "The others keep what an earlier decode left" (R180). -/
def decodedFrom (r : Rx) (k : Kind) : Rx :=
  let r := { r with fc := readOctet r.buf 0, seq := readOctet r.buf 1 }
  match k with
  | .blink => { r with eui := num64 r.buf 2 }
  | .rinit => { r with netId := num16 r.buf 2, eui := num64 r.buf 4, src := num16 r.buf 12, arg := num16 r.buf 14 }
  | .poll => { r with dst := num16 r.buf 2, src := num16 r.buf 4 }
  | .resp => { r with dst := num16 r.buf 2, src := num16 r.buf 4, act := readOctet r.buf 6 }
  | .final => { r with dst := num16 r.buf 2, src := num16 r.buf 4,
                       ts0 := num32 r.buf 6, ts1 := num32 r.buf 10, ts2 := num32 r.buf 14 }
  | .confirm => { r with dst := num16 r.buf 2, src := num16 r.buf 4, arg := num16 r.buf 6 }
  | .finished => { r with dst := num16 r.buf 2, src := num16 r.buf 4, arg := num16 r.buf 6 }

/-- The `D_*` registers `r` after a frame of kind `k` built from the `F_*` registers `x` is decoded (R182): the function
code, the sequence number, and each field of the layout. -/
def copiedFrom (p : Params) (x : Tx) (k : Kind) (r : Rx) : Rx :=
  let r := { r with fc := codeOfKind p k, seq := x.seq }
  match k with
  | .blink => { r with eui := x.eui }
  | .rinit => { r with netId := x.netId, eui := x.eui, src := x.src, arg := x.arg }
  | .poll => { r with dst := x.dst, src := x.src }
  | .resp => { r with dst := x.dst, src := x.src, act := x.act }
  | .final => { r with dst := x.dst, src := x.src, ts0 := x.ts0, ts1 := x.ts1, ts2 := x.ts2 }
  | .confirm => { r with dst := x.dst, src := x.src, arg := x.arg }
  | .finished => { r with dst := x.dst, src := x.src, arg := x.arg }

/-! ### Command words -/

/-- The word with these fields (R91): `op` in bits 31:24, `rd` in 23:20, `ra` in 19:16, `rb` in 15:12. -/
def wordOf (op rd ra rb : Nat) : CmdWord := BitVec.ofNat 32 (op * 2 ^ 24 + rd * 2 ^ 20 + ra * 2 ^ 16 + rb * 2 ^ 12)

/-- The columns `match` and `mask` of R94, row by row. -/
def opcodeTable : List (CmdWord × CmdWord) :=
  [(0x10000000#32, 0xFF0FFFFF#32), (0x11000000#32, 0xFFF0FFFF#32), (0x12000000#32, 0xFF000FFF#32),
   (0x13000000#32, 0xFF000FFF#32), (0x14000000#32, 0xFF00FFFF#32), (0x15000000#32, 0xFF00FFFF#32),
   (0x16000000#32, 0xFF000FFF#32), (0x17000000#32, 0xFF000FFF#32), (0x18000000#32, 0xFF00FFFF#32),
   (0x19000000#32, 0xFFF0FFFF#32), (0x1A000000#32, 0xFFF0FFFF#32), (0x1B000000#32, 0xFFF0FFFF#32),
   (0x20000000#32, 0xFFFFFFFF#32), (0x21000000#32, 0xFFFFFFFF#32), (0x30000000#32, 0xFF0FFFFF#32),
   (0x31000000#32, 0xFF0FFFFF#32), (0x40000000#32, 0xFFFFFFFF#32), (0x41000000#32, 0xFFFFFFFF#32),
   (0x42000000#32, 0xFFFFFFFF#32), (0x43000000#32, 0xFFFFFFFF#32)]

/-- `w[31:24]` is one of the 20 opcodes (R95 test 2). -/
def knownOpcode (w : CmdWord) : Bool := opcodeTable.any fun row => row.1 >>> 24 == w >>> 24

/-- The word selects a row, `(w AND mask) = match`: no must-be-zero bit is 1 (R94, R95 test 3). -/
def legalForm (w : CmdWord) : Bool := opcodeTable.any fun row => w &&& row.2 == row.1

/-- `FC.ENC` or `FC.DEC` with `k >= 7` (R95 test 4). -/
def badKindWord (w : CmdWord) : Bool :=
  (w >>> 24 == 0x30#32 || w >>> 24 == 0x31#32) && decide (7 ≤ (w.extractLsb' 20 4).toNat)

/-- `SES.TAG`, `SES.ANCHOR` or `SES.ADMIT` (R95 test 5). -/
def startWord (w : CmdWord) : Bool := w >>> 24 == 0x40#32 || w >>> 24 == 0x41#32 || w >>> 24 == 0x42#32

/-! ### The register map -/

/-- The registers with "r, w" access (R46) and the width of what they store; `CTRL` stores bits 1:0 (R33). -/
def writableRegs : List (BitVec 8 × Nat) :=
  [(0x02#8, 2), (0x08#8, 40), (0x0A#8, 64), (0x16#8, 128), (0x17#8, 32), (0x18#8, 2), (0x1D#8, 16), (0x20#8, 40),
   (0x21#8, 16), (0x22#8, 16), (0x23#8, 16), (0x31#8, 64), (0x32#8, 16), (0x33#8, 16), (0x34#8, 16), (0x35#8, 16),
   (0x36#8, 8), (0x37#8, 32), (0x38#8, 32), (0x39#8, 32), (0x4B#8, 7)]

/-- The indices that R46 lists, `CMD` left out: those a read returns a register's value for. -/
def listedIndex (idx : BitVec 8) : Bool :=
  let i := idx.toNat
  decide (1 ≤ i ∧ i ≤ 5) || decide (8 ≤ i ∧ i ≤ 0x0B) || decide (0x10 ≤ i ∧ i ≤ 0x1D) || decide (0x20 ≤ i ∧ i ≤ 0x29)
    || decide (0x30 ≤ i ∧ i ≤ 0x3A) || decide (0x40 ≤ i ∧ i ≤ 0x4B) || decide (0x80 ≤ i ∧ i ≤ 0x8F)

/-- The states of the session machine in the order of their codes (R31). -/
def fsmStates : List FsmState :=
  [.idle, .blinkSent, .awaitingInitiation, .pollSent, .awaitingResponse, .finalSent, .awaitingConfirm, .nextAnchor, .done,
   .failed, .awaitingPoll, .responseSent, .awaitingFinal, .rangeComputed, .confirmSent, .finishedSent, .awaitingBlink,
   .initiationSent, .admitted]

/-- `ERR.CLASS` in the order of its codes (R34). -/
def errClasses : List ErrClass := [.none, .exchangeTimeout, .protocolViolation, .hardwareFault, .rangeInvalid]

/-- `ERR.DETAIL` in the order of its codes (R34). -/
def errDetails : List ErrDetail := [.none, .truncated, .badFc, .addrMismatch, .notContinue, .diffInvalid, .divZero]

/-- `CMD_ERR_CODE` in the order of its codes (R35). -/
def rejectCodes : List RejectCode :=
  [.none, .illegalOpcode, .reservedBits, .busy, .badState, .badKind, .writeRefused]

/-- The value of `ERR`: `CLASS` from bit 0, `DETAIL` from bit 4, `STATE` from bit 8 (R34). -/
def errValue (e : ErrReg) : BitVec 128 :=
  BitVec.ofNat 128 (errClasses.idxOf e.cls + 16 * errDetails.idxOf e.detail + 256 * fsmStates.idxOf e.state)

/-- Every readable register of R46 but `CMD`, by index, with the value it holds (R21 to R44), zero-extended. -/
def registerValues (s : State) : List (BitVec 8 × BitVec 128) :=
  [(0x01#8, s.ctl.status.setWidth 128), (0x02#8, s.ctl.ctrl.setWidth 128), (0x03#8, errValue s.ctl.err),
   (0x04#8, BitVec.ofNat 128 (fsmStates.idxOf s.ctl.fsm)),
   (0x05#8, BitVec.ofNat 128 (rejectCodes.idxOf s.ctl.cmdErrCode)), (0x08#8, s.tsu.rawin.setWidth 128),
   (0x09#8, s.tsu.rawout.setWidth 128), (0x0A#8, s.tsu.scalar.setWidth 128), (0x0B#8, s.tsu.conv),
   (0x10#8, s.rmu.round1), (0x11#8, s.rmu.reply1), (0x12#8, s.rmu.round2), (0x13#8, s.rmu.reply2),
   (0x14#8, s.rmu.tofNum), (0x15#8, s.rmu.tofDen), (0x16#8, s.rmu.distRaw), (0x17#8, s.rmu.rxpwr.setWidth 128),
   (0x18#8, s.rmu.biaskey.setWidth 128), (0x19#8, s.rmu.bias), (0x1A#8, s.rmu.dist),
   (0x1B#8, s.rmu.rangeStatus.setWidth 128), (0x1C#8, s.tsu.exchMask.setWidth 128),
   (0x1D#8, s.rmu.bandMap.setWidth 128), (0x20#8, s.ses.replyDelay.setWidth 128),
   (0x21#8, s.ses.assignAddr.setWidth 128), (0x22#8, s.ses.nextAnchor.setWidth 128),
   (0x23#8, s.ses.blinkSuggest.setWidth 128), (0x24#8, s.ses.anchorAddr.setWidth 128),
   (0x25#8, s.ses.peerAddr.setWidth 128), (0x26#8, s.ses.blinkRate.setWidth 128),
   (0x27#8, s.ses.exchCount.setWidth 128), (0x28#8, s.ses.result.setWidth 128),
   (0x29#8, s.ses.peerEui.setWidth 128), (0x30#8, s.tx.seq.setWidth 128), (0x31#8, s.tx.eui.setWidth 128),
   (0x32#8, s.tx.netId.setWidth 128), (0x33#8, s.tx.dst.setWidth 128), (0x34#8, s.tx.src.setWidth 128),
   (0x35#8, s.tx.arg.setWidth 128), (0x36#8, s.tx.act.setWidth 128), (0x37#8, s.tx.ts0.setWidth 128),
   (0x38#8, s.tx.ts1.setWidth 128), (0x39#8, s.tx.ts2.setWidth 128), (0x3A#8, s.tx.len.setWidth 128),
   (0x40#8, s.rx.fc.setWidth 128), (0x41#8, s.rx.seq.setWidth 128), (0x42#8, s.rx.eui.setWidth 128),
   (0x43#8, s.rx.netId.setWidth 128), (0x44#8, s.rx.dst.setWidth 128), (0x45#8, s.rx.src.setWidth 128),
   (0x46#8, s.rx.arg.setWidth 128), (0x47#8, s.rx.act.setWidth 128), (0x48#8, s.rx.ts0.setWidth 128),
   (0x49#8, s.rx.ts1.setWidth 128), (0x4A#8, s.rx.ts2.setWidth 128), (0x4B#8, s.rx.len.setWidth 128),
   (0x80#8, s.tsu.tregs[0]), (0x81#8, s.tsu.tregs[1]), (0x82#8, s.tsu.tregs[2]), (0x83#8, s.tsu.tregs[3]),
   (0x84#8, s.tsu.tregs[4]), (0x85#8, s.tsu.tregs[5]), (0x86#8, s.tsu.tregs[6]), (0x87#8, s.tsu.tregs[7]),
   (0x88#8, s.tsu.tregs[8]), (0x89#8, s.tsu.tregs[9]), (0x8A#8, s.tsu.tregs[10]), (0x8B#8, s.tsu.tregs[11]),
   (0x8C#8, s.tsu.tregs[12]), (0x8D#8, s.tsu.tregs[13]), (0x8E#8, s.tsu.tregs[14]), (0x8F#8, s.tsu.tregs[15])]

/-! ### Frames -/

/-- Every octet of both buffers reads as before. -/
def OctetsKept (s t : State) : Prop := ∀ b off, hostBufReadValue b off t = hostBufReadValue b off s

/-- Every bit of `STATUS` but those listed is as before. -/
def StatusKept (but : List Nat) (s t : State) : Prop :=
  ∀ i : Fin 7, i.val ∉ but → t.ctl.status.getLsbD i = s.ctl.status.getLsbD i

/-- `FSM_STATE`, `CTRL`, `ERR` and `CMD_ERR_CODE` are as before. -/
structure ControlKept (s t : State) : Prop where
  fsm : t.ctl.fsm = s.ctl.fsm
  ctrl : t.ctl.ctrl = s.ctl.ctrl
  err : t.ctl.err = s.ctl.err
  cmdErrCode : t.ctl.cmdErrCode = s.ctl.cmdErrCode

/-- Every timestamp register but those listed, as before. -/
def TimestampsKept (but : List Reg) (s t : State) : Prop := ∀ r, r ∉ but → readT r t = readT r s

/-- What lies outside the engine is as before: parameters, transceiver, schedule, records of calls and answers. -/
structure SurroundingsKept (s t : State) : Prop where
  params : t.params = s.params
  trx : t.trx = s.trx
  sched : t.sched = s.sched
  calls : t.calls = s.calls
  replies : t.replies = s.replies

/-- The units other than the timestamp unit are as before, every octet of the buffers among them. -/
structure OtherUnitsKept (s t : State) : Prop where
  rmu : t.rmu = s.rmu
  ses : t.ses = s.ses
  tx : t.tx = s.tx
  rx : t.rx = s.rx
  octets : OctetsKept s t
  free : t.free = s.free

/-- The one effect of a `TS.*` command with a destination (R121), and its frame: `T[rd]` holds the exact result `r`
saturated, its exchange bit is set if it is one of the six, and everything else but `STATUS` is as before. -/
structure WritesTimestamp (rd : Reg) (r : Int) (s t : State) : Prop where
  value : SaturatesTo r (readT rd t)
  others : TimestampsKept [rd] s t
  mask : ∀ i : Fin 6, t.tsu.exchMask.getLsbD i = (decide (rd.val = 8 + i.val) || s.tsu.exchMask.getLsbD i)
  rawin : t.tsu.rawin = s.tsu.rawin
  rawout : t.tsu.rawout = s.tsu.rawout
  scalar : t.tsu.scalar = s.tsu.scalar
  conv : t.tsu.conv = s.tsu.conv
  control : ControlKept s t
  units : OtherUnitsKept s t
  surroundings : SurroundingsKept s t

/-- The timestamp file and the exchange mask are as before. -/
structure FileKept (s t : State) : Prop where
  tregs : TimestampsKept [] s t
  mask : t.tsu.exchMask = s.tsu.exchMask

/-- The exchange is empty: `T[8..13]` = 0 and `EXCH_MASK` = 0 (R25). -/
structure ExchangeCleared (t : State) : Prop where
  regs : ∀ r : Reg, 8 ≤ r.val → r.val ≤ 13 → readT r t = 0
  mask : t.tsu.exchMask = 0

/-- Only `CMD_ERR` and `CMD_ERR_CODE` changed (R96, R261). -/
def OnlyRejected (c : RejectCode) (s t : State) : Prop :=
  t = { s with ctl := { s.ctl with status := s.ctl.status ||| 0b0100000#7, cmdErrCode := c } }

/-- A session failure was recorded in `t` (R264): class and detail, the state it happened in, `Failed`, not busy. -/
structure FailedWith (c : ErrClass) (d : ErrDetail) (s t : State) : Prop where
  err : t.ctl.err = ⟨c, d, s.ctl.fsm⟩
  fsm : t.ctl.fsm = .failed
  busy : t.busy = false
  result : t.ses.result = if 10 ≤ s.ctl.fsm.code.toNat ∧ s.ctl.fsm.code.toNat ≤ 15 then 0b01#2 else s.ses.result

/-- The operand and result registers of the timestamp unit are as before (R37). -/
structure OperandsKept (s t : State) : Prop where
  rawin : t.tsu.rawin = s.tsu.rawin
  rawout : t.tsu.rawout = s.tsu.rawout
  scalar : t.tsu.scalar = s.tsu.scalar
  conv : t.tsu.conv = s.tsu.conv

/-- The registers `RNG.COMPUTE` does not write (R141), and all else but the exchange it consumes. -/
structure ComputeKept (s t : State) : Prop where
  ctl : t.ctl = s.ctl
  timestamps : TimestampsKept [8, 9, 10, 11, 12, 13] s t
  operands : OperandsKept s t
  rxpwr : t.rmu.rxpwr = s.rmu.rxpwr
  biaskey : t.rmu.biaskey = s.rmu.biaskey
  bandMap : t.rmu.bandMap = s.rmu.bandMap
  bias : t.rmu.bias = s.rmu.bias
  dist : t.rmu.dist = s.rmu.dist
  ses : t.ses = s.ses
  tx : t.tx = s.tx
  rx : t.rx = s.rx
  octets : OctetsKept s t
  free : t.free = s.free
  surroundings : SurroundingsKept s t

/-- The registers `RNG.CORRECT` does not write (R150), and all else. -/
structure CorrectKept (s t : State) : Prop where
  ctl : t.ctl = s.ctl
  tsu : t.tsu = s.tsu
  legs : t.rmu.round1 = s.rmu.round1 ∧ t.rmu.reply1 = s.rmu.reply1 ∧ t.rmu.round2 = s.rmu.round2 ∧ t.rmu.reply2 = s.rmu.reply2
  tof : t.rmu.tofNum = s.rmu.tofNum ∧ t.rmu.tofDen = s.rmu.tofDen
  distRaw : t.rmu.distRaw = s.rmu.distRaw
  inputs : t.rmu.rxpwr = s.rmu.rxpwr ∧ t.rmu.biaskey = s.rmu.biaskey ∧ t.rmu.bandMap = s.rmu.bandMap
  ses : t.ses = s.ses
  tx : t.tx = s.tx
  rx : t.rx = s.rx
  octets : OctetsKept s t
  surroundings : SurroundingsKept s t

/-- What `RNG.CORRECT` leaves in `BIAS`, `DIST` and `RANGE_STATUS[7:4]` for the uncorrected distance `raw`, the table
`table` and the power `p` (R150, R153, R154, R156). Past `MAX_TS` the value of `DIST` is free (the model's choice, log
entry 5) but for R38's bound. From 1 to 10^13 - 1 it is the corrected distance, as R150 and R154 say and against R38's words
(the model's reading: log entry 6, DEDUCED, unsafe). -/
structure Corrected (enabled : Bool) (table : BiasTable) (p raw : Int) (r : Rmu) : Prop where
  disabled : enabled = false → r.bias.toInt = 0
  lowEdge : enabled = true → p ≤ (table[0]).p.toInt → r.bias.toInt = (table[0]).b.toInt * 10 ^ 13
  highEdge : enabled = true → (table[17]).p.toInt ≤ p → r.bias.toInt = (table[17]).b.toInt * 10 ^ 13
  between : enabled = true → ∀ i : Fin 17, (table[i.castSucc]).p.toInt ≤ p → p < (table[i.succ]).p.toInt →
    r.bias.toInt = (table[i.castSucc]).b.toInt * 10 ^ 13 +
      Int.fdiv (((table[i.succ]).b.toInt - (table[i.castSucc]).b.toInt) * 10 ^ 13 * (p - (table[i.castSucc]).p.toInt))
        ((table[i.succ]).p.toInt - (table[i.castSucc]).p.toInt)
  clamp : raw + r.bias.toInt ≤ 0 → r.dist.toInt = 10 ^ 13
  exact : 0 < raw + r.bias.toInt → raw + r.bias.toInt < 2 ^ 127 → r.dist.toInt = raw + r.bias.toInt
  overflow : 2 ^ 127 ≤ raw + r.bias.toInt → 10 ^ 13 ≤ r.dist.toInt
  corrected : r.rangeStatus.getLsbD 4 = true
  clamped : r.rangeStatus.getLsbD 5 = true ↔ raw + r.bias.toInt ≤ 0
  pwrLow : r.rangeStatus.getLsbD 6 = true ↔ enabled = true ∧ p < (table[0]).p.toInt
  pwrHigh : r.rangeStatus.getLsbD 7 = true ↔ enabled = true ∧ (table[17]).p.toInt < p

/-- `BIAS` after an `RNG.CORRECT` at power `p` (R155: "`b(p)` the value rule R150 gives `BIAS` at power `p`"). -/
def biasAfter (s : State) (p : BitVec 32) : Int :=
  match exec .rngCorrect { s with rmu := { s.rmu with rxpwr := p } } with
  | .next t => t.rmu.bias.toInt
  | .fault _ => 0
  | .refused _ => 0

/-- The octets of `TXBUF` are those of `f` and, past its end, as before. -/
def TxHolds (f : List Octet) (s t : State) : Prop :=
  ∀ off, off < 127 → hostBufReadValue .txbuf off t = if off < f.length then f.getD off 0 else hostBufReadValue .txbuf off s

/-- The octets of `RXBUF` are those of `f` and, past its end, as before. -/
def RxHolds (f : List Octet) (s t : State) : Prop :=
  ∀ off, off < 127 → hostBufReadValue .rxbuf off t = if off < f.length then f.getD off 0 else hostBufReadValue .rxbuf off s

/-- A frame of kind `k` was encoded from the field registers `x` (R170): `TXBUF`, `TXLEN`, `SEQ`, the `F_*`. -/
structure Encoded (x : Tx) (k : Kind) (s t : State) : Prop where
  octets : TxHolds (frameOf s.params x k) s t
  len : t.tx.len.toNat = (frameOf s.params x k).length
  seq : t.tx.seq = x.seq + 1
  fields : t.tx = { x with seq := t.tx.seq, len := t.tx.len, buf := t.tx.buf }

/-- The transceiver presents, with no fault, a frame that begins with the frame of kind `k` built from `x`. -/
def Presents (s : State) (a : TrxAnswers) (x : Tx) (k : Kind) : Prop :=
  a.hwFault = false ∧ a.rxDone = true ∧ ∃ extra, a.frame.octets = frameOf s.params x k ++ extra

/-- The presented frame was loaded and decoded (R262, R176): `RXBUF`, `RXLEN`, the `D_*` of its layout, `DEC_OK`. -/
structure Heard (x : Tx) (k : Kind) (a : TrxAnswers) (s t : State) : Prop where
  octets : RxHolds a.frame.octets s t
  len : t.rx.len.toNat = a.frame.octets.length
  fields : t.rx = copiedFrom s.params x k { s.rx with len := t.rx.len, buf := t.rx.buf }
  decOk : t.decOk = true

/-- A session step went on to state `f` with these transceiver calls, in this order (R83); of the rest of the control
registers and the surroundings nothing changed. -/
structure WentTo (f : FsmState) (calls : List TrxCall) (s t : State) : Prop where
  fsm : t.ctl.fsm = f
  err : t.ctl.err = s.ctl.err
  ctrl : t.ctl.ctrl = s.ctl.ctrl
  cmdErrCode : t.ctl.cmdErrCode = s.ctl.cmdErrCode
  calls : t.calls = s.calls ++ calls
  params : t.params = s.params
  sched : t.sched = s.sched
  replies : t.replies = s.replies
  free : t.free = s.free

/-- A failing step made these calls and touched neither the timestamp unit, the ranging registers, the transmit side nor
the transceiver's state. -/
structure FailedQuietly (calls : List TrxCall) (s t : State) : Prop where
  calls : t.calls = s.calls ++ calls
  tsu : t.tsu = s.tsu
  rmu : t.rmu = s.rmu
  tx : t.tx = s.tx
  ses : t.ses = { s.ses with result := t.ses.result }
  ctrl : t.ctl.ctrl = s.ctl.ctrl
  cmdErrCode : t.ctl.cmdErrCode = s.ctl.cmdErrCode
  trx : t.trx = s.trx
  params : t.params = s.params
  sched : t.sched = s.sched
  replies : t.replies = s.replies
  free : t.free = s.free

/-- The kinds a receive wait state expects (R193, R197, R199, R222, R227, R241). -/
def expectedKinds : FsmState → List Kind
  | .awaitingInitiation => [.rinit]
  | .awaitingResponse => [.resp]
  | .awaitingConfirm => [.confirm, .finished]
  | .awaitingPoll => [.poll]
  | .awaitingFinal => [.final]
  | .awaitingBlink => [.blink]
  | .idle | .blinkSent | .pollSent | .finalSent | .nextAnchor | .done | .failed | .responseSent | .rangeComputed
  | .confirmSent | .finishedSent | .initiationSent | .admitted => []

/-- The transmit wait states (R31). -/
def transmitWaits : List FsmState :=
  [.blinkSent, .pollSent, .finalSent, .responseSent, .confirmSent, .finishedSent, .initiationSent]

/-- The receive wait states (R31). -/
def receiveWaits : List FsmState :=
  [.awaitingInitiation, .awaitingResponse, .awaitingConfirm, .awaitingPoll, .awaitingFinal, .awaitingBlink]

/-! ### Invariants -/

/-- Both buffers are in canonical form. -/
def buffersCanonical (s : State) : Bool := Memory.wf s.tx.buf && Memory.wf s.rx.buf

/-- The states in which a session can be running (R31, R246): the wait states and the two internal ones. -/
def FsmState.running : FsmState → Bool
  | .blinkSent | .awaitingInitiation | .pollSent | .awaitingResponse | .finalSent | .awaitingConfirm | .nextAnchor
  | .awaitingPoll | .responseSent | .awaitingFinal | .rangeComputed | .confirmSent | .finishedSent
  | .awaitingBlink | .initiationSent => true
  | .idle | .done | .failed | .admitted => false

/-- The states in which no session is running (R31, R246): `Idle` and the terminal states. -/
def FsmState.atRest : FsmState → Bool
  | .idle | .done | .failed | .admitted | .confirmSent | .finishedSent => true
  | .blinkSent | .awaitingInitiation | .pollSent | .awaitingResponse | .finalSent | .awaitingConfirm | .nextAnchor
  | .awaitingPoll | .responseSent | .awaitingFinal | .rangeComputed | .awaitingBlink | .initiationSent => false

/-- `STATUS.BUSY` and `FSM_STATE` agree (R246: "A session has ended exactly when `STATUS.BUSY` returns to 0"). -/
def sessionConsistent (s : State) : Bool := if s.busy then s.ctl.fsm.running else s.ctl.fsm.atRest

/-- What `EXCH_MASK` is in each state of a running session, where the rules fix it (R194, R197, R222, R225, R228). -/
def exchangeMaskOf : FsmState → Option (BitVec 6)
  | .pollSent | .awaitingResponse => some 0
  | .finalSent | .awaitingConfirm | .nextAnchor => some 0b011001#6
  | .responseSent => some 0b000010#6
  | .awaitingFinal => some 0b000110#6
  | .rangeComputed | .confirmSent | .finishedSent => some 0
  | .idle | .blinkSent | .awaitingInitiation | .done | .failed | .awaitingPoll | .awaitingBlink | .initiationSent
  | .admitted => none

/-- A running session's exchange mask is the one its state requires. -/
def exchangeTracked (s : State) : Bool :=
  !s.busy || match exchangeMaskOf s.ctl.fsm with
    | none => true
    | some m => s.tsu.exchMask == m

/-- The anchor's own timestamps recorded so far are valid (R229, R273): `PR` in `ResponseSent`, `PR` and `RS` in
`AwaitingFinal`. -/
def localTimesValid (s : State) : Bool :=
  !s.busy || match s.ctl.fsm with
    | .responseSent => isValid (readT prReg s)
    | .awaitingFinal => isValid (readT prReg s) && isValid (readT rsReg s)
    | _ => true

/-- The combinations of class and detail that `ERR` may hold (R260: "No other combination of class and detail is ever
written"), and none. -/
def errLegal (s : State) : Bool :=
  match s.ctl.err.cls, s.ctl.err.detail with
  | .none, .none => true
  | .exchangeTimeout, .none => true
  | .protocolViolation, .truncated => true
  | .protocolViolation, .badFc => true
  | .protocolViolation, .addrMismatch => true
  | .protocolViolation, .notContinue => true
  | .hardwareFault, .none => true
  | .rangeInvalid, .diffInvalid => true
  | .rangeInvalid, .divZero => true
  | _, _ => false

/-- `RANGE_STATUS` (R40): of bits 0 to 3 none (before any `RNG.COMPUTE`) or exactly one; `CLAMPED`, `PWR_LOW` and
`PWR_HIGH` only with `CORRECTED`; never `PWR_LOW` and `PWR_HIGH` together. -/
def rangeStatusLegal (s : State) : Bool :=
  let v := s.rmu.rangeStatus
  (v.extractLsb' 0 4 == 0#4 || v.extractLsb' 0 4 == 1#4 || v.extractLsb' 0 4 == 2#4 || v.extractLsb' 0 4 == 4#4
    || v.extractLsb' 0 4 == 8#4)
  && (v.getLsbD 4 || !(v.getLsbD 5 || v.getLsbD 6 || v.getLsbD 7))
  && !(v.getLsbD 6 && v.getLsbD 7)

/-- `TOF_DEN` is "never negative" (R38), and below 2^42 (R145). -/
def denominatorLegal (s : State) : Bool := decide (0 ≤ s.rmu.tofDen.toInt) && decide (s.rmu.tofDen.toInt < 2 ^ 42)

/-- `TXLEN` is 0 before any encode and then the length of one of the seven kinds (R160, R170). -/
def txlenLegal (s : State) : Bool :=
  s.tx.len == 0#7 || s.tx.len == 6#7 || s.tx.len == 7#7 || s.tx.len == 8#7 || s.tx.len == 10#7 || s.tx.len == 16#7
    || s.tx.len == 18#7

/-- The tag's states (R31, R208). -/
def FsmState.tagState : FsmState → Bool
  | .blinkSent | .awaitingInitiation | .pollSent | .awaitingResponse | .finalSent | .awaitingConfirm
  | .nextAnchor => true
  | .idle | .done | .failed | .awaitingPoll | .responseSent | .awaitingFinal | .rangeComputed | .confirmSent
  | .finishedSent | .awaitingBlink | .initiationSent | .admitted => false

/-- The moves of `FSM_STATE` that one session step may make besides the failure exit and staying (R204, R221). -/
def sessionMoves : FsmState → List FsmState
  | .blinkSent => [.awaitingInitiation]
  | .awaitingInitiation => [.pollSent]
  | .pollSent => [.awaitingResponse]
  | .awaitingResponse => [.finalSent]
  | .finalSent => [.awaitingConfirm]
  | .awaitingConfirm => [.nextAnchor, .done]
  | .nextAnchor => [.pollSent]
  | .awaitingPoll => [.responseSent]
  | .responseSent => [.awaitingFinal]
  | .awaitingFinal => [.rangeComputed]
  | .rangeComputed => [.confirmSent, .finishedSent]
  | .awaitingBlink => [.initiationSent]
  | .initiationSent => [.admitted]
  | .idle | .done | .failed | .confirmSent | .finishedSent | .admitted => []

end Sys2Proof.Machine
end

