-- ==== Sys2Proof/Certificates/Slice0/Obligations.lean ====
section
/-! DEFINITION. The statements for the provers. Every command has a statement whose conclusion is the next state its rule
gives, with its frame; the session steps, the host port, reset, the properties the spec states and the invariants follow. -/

open Sys2Proof Sys2Proof.Machine

/-! ### Encoding and the execution of a command -/

/-- A word for each opcode group, written out from R91, R92 and R94. -/
def Obligations.DecodeSampleWords : Prop :=
  decode 0x10800000#32 = .ok (.tsFromraw 8) ∧ decode 0x110F0000#32 = .ok (.tsToraw 15) ∧
  decode 0x12201000#32 = .ok (.tsAdd 2 0 1) ∧ decode 0x13DE5000#32 = .ok (.tsSub 13 14 5) ∧
  decode 0x17F0F000#32 = .ok (.tsDivt 15 0 15) ∧ decode 0x18220000#32 = .ok (.tsWrap 2 2) ∧
  decode 0x20000000#32 = .ok .rngCompute ∧ decode 0x30600000#32 = .ok (.fcEnc 6) ∧
  decode 0x31400000#32 = .ok (.fcDec 4) ∧ decode 0x43000000#32 = .ok .sesClear ∧
  decode 0x00000000#32 = .error .illegalOpcode ∧ decode 0xFFFFFFFF#32 = .error .illegalOpcode ∧
  decode 0x12201001#32 = .error .reservedBits ∧ decode 0x30700000#32 = .error .badKind

/-- Decode and encode agree on every command in a legal form, at every value of every field. -/
def Obligations.DecodeEncode : Prop := ∀ i : Instr, i.wf = true → decode (encode i) = .ok i

/-- A word that decodes to a command is the one word of that command, and the command is in a legal form. -/
def Obligations.EncodeDecode : Prop := ∀ (w : CmdWord) (i : Instr), decode w = .ok i → encode i = w ∧ i.wf = true

/-- R95: the acceptance test of a `HostWrite(CMD, w)`, in its order; a rejection changes `CMD_ERR` and its code only. -/
def Obligations.CommandAcceptance : Prop :=
  ∀ (s : State) (w : CmdWord),
    (s.busy = true →
      ∃ t, hostStep (.write 0x00#8 (w.setWidth 128)) s = .next t ∧ OnlyRejected .busy s t) ∧
    (s.busy = false → knownOpcode w = false →
      ∃ t, hostStep (.write 0x00#8 (w.setWidth 128)) s = .next t ∧ OnlyRejected .illegalOpcode s t) ∧
    (s.busy = false → knownOpcode w = true → legalForm w = false →
      ∃ t, hostStep (.write 0x00#8 (w.setWidth 128)) s = .next t ∧ OnlyRejected .reservedBits s t) ∧
    (s.busy = false → legalForm w = true → badKindWord w = true →
      ∃ t, hostStep (.write 0x00#8 (w.setWidth 128)) s = .next t ∧ OnlyRejected .badKind s t) ∧
    (s.busy = false → legalForm w = true → startWord w = true → s.ctl.fsm ≠ .idle →
      ∃ t, hostStep (.write 0x00#8 (w.setWidth 128)) s = .next t ∧ OnlyRejected .badState s t) ∧
    (s.busy = false → legalForm w = true → badKindWord w = false → (startWord w = true → s.ctl.fsm = .idle) →
      ∃ i : Instr, i.wf = true ∧ encode i = w ∧
        hostStep (.write 0x00#8 (w.setWidth 128)) s = exec i s)

/-- A step whose next event is the host's write of a command word runs the decoded command on the state with that event
taken off the schedule; `withFetchWord` places such an event (the schedule and the placing are the model's own, log entries 1
and 2). -/
def Obligations.StepRunsCommand : Prop :=
  (∀ (s : State) (rest : List Event) (v : BitVec 128) (i : Instr),
    s.sched = .host (.write 0x00#8 v) :: rest → decode (v.setWidth 32) = .ok i →
      step s = exec i { s with sched := rest }) ∧
  (∀ (s : State) (w : CmdWord) (i : Instr), decode w = .ok i → step (s.withFetchWord 32 w.toNat) = exec i s)

/-- Every other step (the schedule is the model's own, log entry 1): an engine step takes the scheduled answers; with
nothing scheduled a machine that is not busy stays as it is, and a busy one polls on with a free set of answers (the
model's choice, log entry 4). -/
def Obligations.StepTakesNextEvent : Prop :=
  (∀ (s : State) (rest : List Event) (a : TrxAnswers), s.sched = .poll a :: rest →
    step s = .next (engineStep a { s with sched := rest })) ∧
  (∀ (s : State) (a : TrxAnswers), s.busy = false → engineStep a s = s) ∧
  (∀ s : State, s.sched = [] → s.busy = false → step s = .next s) ∧
  (∀ s : State, s.sched = [] → s.busy = true → ∃ a, step s = .next (engineStep a { s with free := s.free + 1 }))

/-- Every step answers a next state: the engine has no trap and no command that stops it. -/
def Obligations.StepAlwaysAnswers : Prop := ∀ s : State, ∃ t, step s = .next t

/-! ### The timestamp unit -/

/-- `TS.FROMRAW`, R110. -/
def Obligations.TsFromrawLoads : Prop :=
  ∀ (rd : Reg) (s : State),
    decode (wordOf 0x10 rd.val 0 0) = .ok (.tsFromraw rd) ∧
    (s.busy = false → ∃ t, exec (.tsFromraw rd) s = .next t ∧
      readT rd t = s.tsu.rawin.toNat ∧ ValidTs (readT rd t) ∧
      WritesTimestamp rd s.tsu.rawin.toNat s t ∧ StatusKept [] s t)

/-- `TS.TORAW`, R111. -/
def Obligations.TsTorawStores : Prop :=
  ∀ (ra : Reg) (s : State),
    decode (wordOf 0x11 0 ra.val 0) = .ok (.tsToraw ra) ∧
    (s.busy = false → ∃ t, exec (.tsToraw ra) s = .next t ∧
      (t.tsu.rawout.toNat : Int) = readT ra s % 2 ^ 40 ∧ (t.rawInvalid = true ↔ ¬ ValidTs (readT ra s)) ∧
      StatusKept [2] s t ∧ ControlKept s t ∧ FileKept s t ∧ t.tsu.rawin = s.tsu.rawin ∧ t.tsu.scalar = s.tsu.scalar ∧
      t.tsu.conv = s.tsu.conv ∧ OtherUnitsKept s t ∧ SurroundingsKept s t)

/-- `TS.ADD`, `TS.SUB` and `TS.MULT`, R112, R113 and R116: the exact result, saturated; `TS_OVF` is sticky. -/
def Obligations.TsAddSubMult : Prop :=
  ∀ (rd ra rb : Reg) (s : State),
    (decode (wordOf 0x12 rd.val ra.val rb.val) = .ok (.tsAdd rd ra rb) ∧
      decode (wordOf 0x13 rd.val ra.val rb.val) = .ok (.tsSub rd ra rb) ∧
      decode (wordOf 0x16 rd.val ra.val rb.val) = .ok (.tsMult rd ra rb)) ∧
    (s.busy = false →
      (∃ t, exec (.tsAdd rd ra rb) s = .next t ∧ WritesTimestamp rd (readT ra s + readT rb s) s t ∧
        StatusKept [3] s t ∧ t.tsOvf = (s.tsOvf || outOfRange (readT ra s + readT rb s))) ∧
      (∃ t, exec (.tsSub rd ra rb) s = .next t ∧ WritesTimestamp rd (readT ra s - readT rb s) s t ∧
        StatusKept [3] s t ∧ t.tsOvf = (s.tsOvf || outOfRange (readT ra s - readT rb s))) ∧
      (∃ t, exec (.tsMult rd ra rb) s = .next t ∧ WritesTimestamp rd (readT ra s * readT rb s) s t ∧
        StatusKept [3] s t ∧ t.tsOvf = (s.tsOvf || outOfRange (readT ra s * readT rb s))))

/-- `TS.MULS`, R114: the scalar is signed and 64 bits wide. -/
def Obligations.TsMulsScales : Prop :=
  ∀ (rd ra : Reg) (s : State),
    decode (wordOf 0x14 rd.val ra.val 0) = .ok (.tsMuls rd ra) ∧
    (s.busy = false → ∃ t, exec (.tsMuls rd ra) s = .next t ∧
      WritesTimestamp rd (readT ra s * s.tsu.scalar.toInt) s t ∧ StatusKept [3] s t ∧
      t.tsOvf = (s.tsOvf || outOfRange (readT ra s * s.tsu.scalar.toInt)))

/-- `TS.DIVS` and `TS.DIVT`, R115 and R117: the floor quotient, or `MIN_TS` and `TS_DIVZ` for a zero divisor. -/
def Obligations.TsDivides : Prop :=
  ∀ (rd ra rb : Reg) (s : State),
    (decode (wordOf 0x15 rd.val ra.val 0) = .ok (.tsDivs rd ra) ∧
      decode (wordOf 0x17 rd.val ra.val rb.val) = .ok (.tsDivt rd ra rb)) ∧
    (s.busy = false →
      (∃ t, exec (.tsDivs rd ra) s = .next t ∧
        (s.tsu.scalar.toInt = 0 →
          WritesTimestamp rd (-2 ^ 127) s t ∧ StatusKept [4] s t ∧ t.tsDivz = true) ∧
        (s.tsu.scalar.toInt ≠ 0 →
          WritesTimestamp rd (Int.fdiv (readT ra s) s.tsu.scalar.toInt) s t ∧ StatusKept [3] s t ∧
          t.tsOvf = (s.tsOvf || outOfRange (Int.fdiv (readT ra s) s.tsu.scalar.toInt)))) ∧
      (∃ t, exec (.tsDivt rd ra rb) s = .next t ∧
        (readT rb s = 0 → WritesTimestamp rd (-2 ^ 127) s t ∧ StatusKept [4] s t ∧ t.tsDivz = true) ∧
        (readT rb s ≠ 0 →
          WritesTimestamp rd (Int.fdiv (readT ra s) (readT rb s)) s t ∧ StatusKept [3] s t ∧
          t.tsOvf = (s.tsOvf || outOfRange (Int.fdiv (readT ra s) (readT rb s))))))

/-- `TS.WRAP`, R118: the modulus is added at most once, and the write never overflows. -/
def Obligations.TsWrapNormalizes : Prop :=
  ∀ (rd ra : Reg) (s : State),
    decode (wordOf 0x18 rd.val ra.val 0) = .ok (.tsWrap rd ra) ∧
    (s.busy = false → ∃ t, exec (.tsWrap rd ra) s = .next t ∧
      (readT ra s < 0 → readT rd t = readT ra s + 2 ^ 40) ∧ (0 ≤ readT ra s → readT rd t = readT ra s) ∧
      (ValidTs (readT rd t) ↔ -2 ^ 40 ≤ readT ra s ∧ readT ra s < 2 ^ 40) ∧
      WritesTimestamp rd (readT rd t) s t ∧ StatusKept [] s t)

/-- `TS.VALID`, R119: only `TS_VALID` changes. -/
def Obligations.TsValidTests : Prop :=
  ∀ (ra : Reg) (s : State),
    decode (wordOf 0x19 0 ra.val 0) = .ok (.tsValid ra) ∧
    (s.busy = false → ∃ t, exec (.tsValid ra) s = .next t ∧
      (t.tsValid = true ↔ 0 ≤ readT ra s ∧ readT ra s < 2 ^ 40) ∧
      StatusKept [1] s t ∧ ControlKept s t ∧ t.tsu = s.tsu ∧ OtherUnitsKept s t ∧ SurroundingsKept s t)

/-- `TS.TOUS` and `TS.TOM`, R122 and R123: the exact product with `K_US` or `K_M`, saturated, in `CONV`. -/
def Obligations.TsConverts : Prop :=
  ∀ (ra : Reg) (s : State),
    (decode (wordOf 0x1A 0 ra.val 0) = .ok (.tsTous ra) ∧ decode (wordOf 0x1B 0 ra.val 0) = .ok (.tsTom ra)) ∧
    (s.busy = false → ∀ (i : Instr) (k : Int),
      (i = .tsTous ra ∧ k = 15650040064103) ∨ (i = .tsTom ra ∧ k = 46917639786159) →
      ∃ t, exec i s = .next t ∧ SaturatesTo (readT ra s * k) t.tsu.conv.toInt ∧
        t.tsOvf = (s.tsOvf || outOfRange (readT ra s * k)) ∧ StatusKept [3] s t ∧ ControlKept s t ∧ FileKept s t ∧
        t.tsu.rawin = s.tsu.rawin ∧ t.tsu.rawout = s.tsu.rawout ∧ t.tsu.scalar = s.tsu.scalar ∧
        OtherUnitsKept s t ∧ SurroundingsKept s t)

/-- R121's last sentence: a sum, a difference or a product of two valid timestamps is exact and sets no flag. -/
def Obligations.ValidOperandsNeverOverflow : Prop :=
  ∀ (rd ra rb : Reg) (s : State), s.busy = false → ValidTs (readT ra s) → ValidTs (readT rb s) →
    ∀ (i : Instr) (r : Int),
      (i = .tsAdd rd ra rb ∧ r = readT ra s + readT rb s) ∨ (i = .tsSub rd ra rb ∧ r = readT ra s - readT rb s) ∨
        (i = .tsMult rd ra rb ∧ r = readT ra s * readT rb s) →
      ∃ t, exec i s = .next t ∧ readT rd t = r ∧ t.ctl.status = s.ctl.status

/-- R126, (a) to (c) marked there as derived from R113 and R118, over the commands: (a) wrapping is idempotent and lands in `[0, 2^40)` on `[-2^40, 2^40)`; (b) a wrapped
difference of valid timestamps is the difference modulo 2^40; (c) it does not see a common offset `c`. -/
def Obligations.WrapLaws : Prop :=
  (∀ (rd ra : Reg) (s : State), s.busy = false → -2 ^ 40 ≤ readT ra s → readT ra s < 2 ^ 40 →
    ∃ t u, exec (.tsWrap rd ra) s = .next t ∧ exec (.tsWrap rd rd) t = .next u ∧
      readT rd u = readT rd t ∧ ValidTs (readT rd t)) ∧
  (∀ (rd ra rb : Reg) (s : State), s.busy = false → ValidTs (readT ra s) → ValidTs (readT rb s) →
    ∃ t u, exec (.tsSub rd ra rb) s = .next t ∧ exec (.tsWrap rd rd) t = .next u ∧
      readT rd u = (readT ra s - readT rb s) % 2 ^ 40) ∧
  (∀ (rd ra rb : Reg) (s s' : State) (c : Int), s.busy = false → s'.busy = false →
    ValidTs (readT ra s) → ValidTs (readT rb s) →
    readT ra s' = (readT ra s + c) % 2 ^ 40 → readT rb s' = (readT rb s + c) % 2 ^ 40 →
    ∃ t u t' u', exec (.tsSub rd ra rb) s = .next t ∧ exec (.tsWrap rd rd) t = .next u ∧
      exec (.tsSub rd ra rb) s' = .next t' ∧ exec (.tsWrap rd rd) t' = .next u' ∧ readT rd u' = readT rd u)

/-! ### The ranging math -/

/-- `RNG.COMPUTE`, R141 and R142. -/
def Obligations.RngComputeMeasures : Prop :=
  decode (wordOf 0x20 0 0 0) = .ok .rngCompute ∧
  ∀ s : State, s.busy = false → ∃ t, exec .rngCompute s = .next t ∧
    (s.tsu.exchMask ≠ 0b111111#6 → t = { s with rmu := { s.rmu with rangeStatus := 0b00000010#8 } }) ∧
    (s.tsu.exchMask = 0b111111#6 →
      let round1 := wrappedDiff (readT 11 s) (readT 8 s)
      let reply1 := wrappedDiff (readT 10 s) (readT 9 s)
      let round2 := wrappedDiff (readT 13 s) (readT 10 s)
      let reply2 := wrappedDiff (readT 12 s) (readT 11 s)
      let n := round1 * round2 - reply1 * reply2
      let d := round1 + round2 + reply1 + reply2
      ComputeKept s t ∧ ExchangeCleared t ∧
      SaturatesTo round1 t.rmu.round1.toInt ∧ SaturatesTo reply1 t.rmu.reply1.toInt ∧
      SaturatesTo round2 t.rmu.round2.toInt ∧ SaturatesTo reply2 t.rmu.reply2.toInt ∧
      (¬ (ValidTs round1 ∧ ValidTs reply1 ∧ ValidTs round2 ∧ ValidTs reply2) →
        t.rmu.tofNum.toInt = 0 ∧ t.rmu.tofDen.toInt = 0 ∧ t.rmu.distRaw.toInt = 0 ∧
        t.rmu.rangeStatus = 0b00000100#8) ∧
      (ValidTs round1 ∧ ValidTs reply1 ∧ ValidTs round2 ∧ ValidTs reply2 →
        t.rmu.tofNum.toInt = n ∧ t.rmu.tofDen.toInt = d ∧
        (d = 0 → t.rmu.distRaw.toInt = 0 ∧ t.rmu.rangeStatus = 0b00001000#8) ∧
        (d ≠ 0 → t.rmu.distRaw.toInt = Int.fdiv (n * 46917639786159) d ∧ t.rmu.rangeStatus = 0b00000001#8)))

/-- R142: an exchange is consumed once; a second `RNG.COMPUTE` finds it empty and writes `RANGE_STATUS` only. -/
def Obligations.ExchangeConsumedOnce : Prop :=
  ∀ s : State, s.busy = false → s.tsu.exchMask = 0b111111#6 →
    ∃ t, exec .rngCompute s = .next t ∧ ExchangeCleared t ∧
      exec .rngCompute t = .next { t with rmu := { t.rmu with rangeStatus := 0b00000010#8 } }

/-- R144 and R145: with six valid timestamps the exchange is never `INVALID`, and the numerator, the denominator and the
scaled numerator stay in their bounds. -/
def Obligations.ValidExchangeIsExact : Prop :=
  ∀ s : State, s.busy = false → s.tsu.exchMask = 0b111111#6 →
    (∀ r : Reg, 8 ≤ r.val → r.val ≤ 13 → ValidTs (readT r s)) →
    ∃ t, exec .rngCompute s = .next t ∧ t.rangeInvalid = false ∧
      (∀ v ∈ [t.rmu.round1, t.rmu.reply1, t.rmu.round2, t.rmu.reply2], ValidTs v.toInt) ∧
      t.rmu.tofNum.toInt = t.rmu.round1.toInt * t.rmu.round2.toInt - t.rmu.reply1.toInt * t.rmu.reply2.toInt ∧
      -2 ^ 80 < t.rmu.tofNum.toInt ∧ t.rmu.tofNum.toInt < 2 ^ 80 ∧
      t.rmu.tofDen.toInt = t.rmu.round1.toInt + t.rmu.round2.toInt + t.rmu.reply1.toInt + t.rmu.reply2.toInt ∧
      0 ≤ t.rmu.tofDen.toInt ∧ t.rmu.tofDen.toInt < 2 ^ 42 ∧
      -2 ^ 126 < t.rmu.tofNum.toInt * 46917639786159 ∧ t.rmu.tofNum.toInt * 46917639786159 < 2 ^ 126

/-- R147 (a): one constant added to all three of one node's timestamps, modulo 2^40, changes no result. -/
def Obligations.OffsetInvariance : Prop :=
  ∀ (s s' : State) (c : Int), s.busy = false → s'.busy = false →
    s.tsu.exchMask = 0b111111#6 → s'.tsu.exchMask = 0b111111#6 →
    (∀ r : Reg, 8 ≤ r.val → r.val ≤ 13 → ValidTs (readT r s)) →
    ((∀ r ∈ ([8, 11, 12] : List Reg), readT r s' = (readT r s + c) % 2 ^ 40) ∧
        (∀ r ∈ ([9, 10, 13] : List Reg), readT r s' = readT r s)) ∨
      ((∀ r ∈ ([8, 11, 12] : List Reg), readT r s' = readT r s) ∧
        (∀ r ∈ ([9, 10, 13] : List Reg), readT r s' = (readT r s + c) % 2 ^ 40)) →
    ∃ t t', exec .rngCompute s = .next t ∧ exec .rngCompute s' = .next t' ∧
      t'.rmu.round1 = t.rmu.round1 ∧ t'.rmu.reply1 = t.rmu.reply1 ∧ t'.rmu.round2 = t.rmu.round2 ∧
      t'.rmu.reply2 = t.rmu.reply2 ∧ t'.rmu.tofNum = t.rmu.tofNum ∧ t'.rmu.tofDen = t.rmu.tofDen ∧
      t'.rmu.distRaw = t.rmu.distRaw ∧ t'.rmu.rangeStatus = t.rmu.rangeStatus

/-- R147 (b): where the round trips exceed the replies by `2 * tof` each, the distance is exactly `tof * K_M`. -/
def Obligations.RecoversTimeOfFlight : Prop :=
  ∀ (s : State) (tof : Int), s.busy = false → s.tsu.exchMask = 0b111111#6 → 0 ≤ tof →
    let round1 := wrappedDiff (readT 11 s) (readT 8 s)
    let reply1 := wrappedDiff (readT 10 s) (readT 9 s)
    let round2 := wrappedDiff (readT 13 s) (readT 10 s)
    let reply2 := wrappedDiff (readT 12 s) (readT 11 s)
    ValidTs round1 → ValidTs reply1 → ValidTs round2 → ValidTs reply2 →
    round1 = reply1 + 2 * tof → round2 = reply2 + 2 * tof → ¬ (round1 = 0 ∧ reply1 = 0 ∧ round2 = 0 ∧ reply2 = 0) →
    ∃ t, exec .rngCompute s = .next t ∧ t.rmu.tofNum.toInt = tof * t.rmu.tofDen.toInt ∧
      t.rmu.distRaw.toInt = tof * 46917639786159 ∧ t.rmu.rangeStatus = 0b00000001#8

/-- `RNG.CORRECT`, R150: the bias, the corrected distance, the clamp and the flags, and the frame. Where the corrected
distance does not fit its register the value of `DIST` is free (the model's choice, log entry 5) but for R38's bound. Where it
is from 1 to 10^13 - 1, R38's words and R150 with R154 disagree: the clause `DIST = DIST_RAW + BIAS` follows R150 and R154
there, against R38 (the model's reading: log entry 6, DEDUCED, unsafe). -/
def Obligations.RngCorrectAddsBias : Prop :=
  decode (wordOf 0x21 0 0 0) = .ok .rngCorrect ∧
  ∀ (s : State) (k : Fin 4), s.busy = false →
    k.val = 2 * (s.rmu.biaskey.getLsbD 1).toNat + (s.rmu.biaskey.getLsbD 0).toNat →
    ∃ t, exec .rngCorrect s = .next t ∧ CorrectKept s t ∧
      Corrected s.biasEn s.params.biasRom[k] s.rmu.rxpwr.toInt s.rmu.distRaw.toInt t.rmu ∧
      (∀ i : Fin 4, t.rmu.rangeStatus.getLsbD i.val = s.rmu.rangeStatus.getLsbD i.val)

/-- R155, (a) to (d) marked there as derived from R150 and R152: the bias is monotonic between two breakpoints, takes the row's value at each breakpoint, moves by a bounded
amount for one step of power, and is flat outside the table. -/
def Obligations.BiasLaws : Prop :=
  ∀ (s : State) (k : Fin 4), s.busy = false → s.biasEn = true → s.rmu.biaskey.toNat = k.val →
    let table := s.params.biasRom[k]
    (∀ (i : Fin 17) (p q : BitVec 32), (table[i.castSucc]).p.toInt ≤ p.toInt → p.toInt ≤ q.toInt →
      q.toInt ≤ (table[i.succ]).p.toInt →
      ((table[i.castSucc]).b.toInt ≤ (table[i.succ]).b.toInt → biasAfter s p ≤ biasAfter s q) ∧
      ((table[i.succ]).b.toInt ≤ (table[i.castSucc]).b.toInt → biasAfter s q ≤ biasAfter s p)) ∧
    (∀ i : Fin 18, biasAfter s (table[i]).p = (table[i]).b.toInt * 10 ^ 13) ∧
    (∀ (i : Fin 17) (p q : BitVec 32), (table[i.castSucc]).p.toInt ≤ p.toInt → q.toInt = p.toInt + 1 →
      q.toInt ≤ (table[i.succ]).p.toInt →
      |biasAfter s q - biasAfter s p| ≤
        -Int.fdiv (-(|(table[i.succ]).b.toInt - (table[i.castSucc]).b.toInt| * 10 ^ 13))
          ((table[i.succ]).p.toInt - (table[i.castSucc]).p.toInt)) ∧
    (∀ p : BitVec 32, p.toInt ≤ (table[0]).p.toInt → biasAfter s p = biasAfter s (table[0]).p) ∧
    (∀ p : BitVec 32, (table[17]).p.toInt ≤ p.toInt → biasAfter s p = biasAfter s (table[17]).p)

/-! ### The frame codec -/

/-- `FC.ENC`, R170, for every kind; a number 7 to 15 is rejected with `BAD_KIND`. -/
def Obligations.FcEncStoresFrame : Prop :=
  (∀ (k : Kind) (s : State),
    decode (wordOf 0x30 (kindNumber k).val 0 0) = .ok (.fcEnc (kindNumber k)) ∧
    (s.busy = false → buffersCanonical s = true → ∃ t, exec (.fcEnc (kindNumber k)) s = .next t ∧
      Encoded s.tx k s t ∧ t.ctl = s.ctl ∧ t.tsu = s.tsu ∧ t.rmu = s.rmu ∧ t.ses = s.ses ∧ t.rx = s.rx ∧
      t.free = s.free ∧ SurroundingsKept s t)) ∧
  (∀ (n : KindNum) (s : State), 7 ≤ n.val → s.busy = false →
    ∃ t, exec (.fcEnc n) s = .next t ∧ OnlyRejected .badKind s t)

/-- `FC.DEC`, R176 with R177 (a) and R178, for every kind; a number 7 to 15 is rejected with `BAD_KIND`. -/
def Obligations.FcDecReadsFrame : Prop :=
  (∀ (k : Kind) (s : State),
    decode (wordOf 0x31 (kindNumber k).val 0 0) = .ok (.fcDec (kindNumber k)) ∧
    (s.busy = false → ∃ t, exec (.fcDec (kindNumber k)) s = .next t ∧
      (s.rx.len.toNat = 0 →
        t.rx = s.rx ∧ t.decOk = false ∧ t.ctl.err = ⟨.protocolViolation, .truncated, s.ctl.fsm⟩) ∧
      (0 < s.rx.len.toNat → readOctet s.rx.buf 0 ≠ codeOfKind s.params k →
        t.rx = { s.rx with fc := readOctet s.rx.buf 0 } ∧ t.decOk = false ∧
        t.ctl.err = ⟨.protocolViolation, .badFc, s.ctl.fsm⟩) ∧
      (0 < s.rx.len.toNat → readOctet s.rx.buf 0 = codeOfKind s.params k →
        s.rx.len.toNat < (frameOf s.params s.tx k).length →
        t.rx = { s.rx with fc := readOctet s.rx.buf 0 } ∧ t.decOk = false ∧
        t.ctl.err = ⟨.protocolViolation, .truncated, s.ctl.fsm⟩) ∧
      (readOctet s.rx.buf 0 = codeOfKind s.params k → (frameOf s.params s.tx k).length ≤ s.rx.len.toNat →
        t.rx = decodedFrom s.rx k ∧ t.decOk = true ∧ t.ctl.err = s.ctl.err) ∧
      StatusKept [6] s t ∧ t.ctl.fsm = s.ctl.fsm ∧ t.ctl.ctrl = s.ctl.ctrl ∧ t.ctl.cmdErrCode = s.ctl.cmdErrCode ∧
      t.tsu = s.tsu ∧ t.rmu = s.rmu ∧ t.ses = s.ses ∧ t.tx = s.tx ∧ OctetsKept s t ∧ t.free = s.free ∧
      SurroundingsKept s t)) ∧
  (∀ (n : KindNum) (s : State), 7 ≤ n.val → s.busy = false →
    ∃ t, exec (.fcDec n) s = .next t ∧ OnlyRejected .badKind s t)

/-- R182, marked there as derived from R170, R176 and R76: what an encode stores, a decode of the same octets gives back, for every kind and every field value. -/
def Obligations.FrameRoundTrip : Prop :=
  ∀ (k : Kind) (s : State) (buf : Memory), s.busy = false → buffersCanonical s = true →
    ∃ t, exec (.fcEnc (kindNumber k)) s = .next t ∧
      ((∀ i, i < t.tx.len.toNat → readOctet buf i = readOctet t.tx.buf i) →
        ∃ u, exec (.fcDec (kindNumber k)) { t with rx := { t.rx with buf := buf, len := t.tx.len } } = .next u ∧
          u.decOk = true ∧ u.ctl.err = s.ctl.err ∧
          u.rx = copiedFrom s.params s.tx k { s.rx with buf := buf, len := t.tx.len })

/-- A decode depends on no octet at or above `RXLEN` or the kind's minimum length (R75, R176, R179). -/
def Obligations.DecodeReadsOnlyTheFrame : Prop :=
  ∀ (k : Kind) (s : State) (buf : Memory), s.busy = false →
    (∀ i, i < s.rx.len.toNat → i < (frameOf s.params s.tx k).length → readOctet buf i = readOctet s.rx.buf i) →
    ∃ t, exec (.fcDec (kindNumber k)) s = .next t ∧
      exec (.fcDec (kindNumber k)) { s with rx := { s.rx with buf := buf } } =
        .next { t with rx := { t.rx with buf := buf } }

/-! ### The session commands -/

/-- `SES.TAG`, R190. -/
def Obligations.SesTagStarts : Prop :=
  decode (wordOf 0x40 0 0 0) = .ok .sesTag ∧
  ∀ s : State, s.busy = false → s.ctl.fsm = .idle → buffersCanonical s = true →
    let x := { s.tx with eui := s.trx.eui }
    ∃ t, exec .sesTag s = .next t ∧ t.ctl.fsm = .blinkSent ∧ t.busy = true ∧ StatusKept [0] s t ∧
      t.ctl.err = ⟨.none, .none, .idle⟩ ∧ t.ctl.ctrl = s.ctl.ctrl ∧ t.ctl.cmdErrCode = s.ctl.cmdErrCode ∧
      t.ses = { s.ses with exchCount := 0 } ∧ Encoded x .blink s t ∧
      t.calls = s.calls ++ [.getOwnExtendedIdentifier, .transmit (frameOf s.params x .blink)] ∧
      t.tsu = s.tsu ∧ t.rmu = s.rmu ∧ t.rx = s.rx ∧ t.trx = s.trx ∧ t.params = s.params ∧ t.sched = s.sched ∧
      t.replies = s.replies ∧ t.free = s.free

/-- `SES.ANCHOR`, R220. -/
def Obligations.SesAnchorListens : Prop :=
  decode (wordOf 0x41 0 0 0) = .ok .sesAnchor ∧
  ∀ s : State, s.busy = false → s.ctl.fsm = .idle →
    ∃ t, exec .sesAnchor s = .next t ∧ t.ctl.fsm = .awaitingPoll ∧ t.busy = true ∧ StatusKept [0] s t ∧
      t.ctl.err = ⟨.none, .none, .idle⟩ ∧ t.ctl.ctrl = s.ctl.ctrl ∧ t.ctl.cmdErrCode = s.ctl.cmdErrCode ∧
      t.ses = { s.ses with result := 0 } ∧ t.calls = s.calls ++ [.startReceive] ∧
      t.tsu = s.tsu ∧ t.rmu = s.rmu ∧ t.tx = s.tx ∧ t.rx = s.rx ∧ OctetsKept s t ∧ t.trx = s.trx ∧
      t.params = s.params ∧ t.sched = s.sched ∧ t.replies = s.replies ∧ t.free = s.free

/-- `SES.ADMIT`, R240. -/
def Obligations.SesAdmitListens : Prop :=
  decode (wordOf 0x42 0 0 0) = .ok .sesAdmit ∧
  ∀ s : State, s.busy = false → s.ctl.fsm = .idle →
    ∃ t, exec .sesAdmit s = .next t ∧ t.ctl.fsm = .awaitingBlink ∧ t.busy = true ∧ StatusKept [0] s t ∧
      t.ctl.err = ⟨.none, .none, .idle⟩ ∧ t.ctl.ctrl = s.ctl.ctrl ∧ t.ctl.cmdErrCode = s.ctl.cmdErrCode ∧
      t.ses = s.ses ∧ t.calls = s.calls ++ [.startReceive] ∧
      t.tsu = s.tsu ∧ t.rmu = s.rmu ∧ t.tx = s.tx ∧ t.rx = s.rx ∧ OctetsKept s t ∧ t.trx = s.trx ∧
      t.params = s.params ∧ t.sched = s.sched ∧ t.replies = s.replies ∧ t.free = s.free

/-- `SES.CLEAR`, R245: accepted in every state of a machine that is not busy; only `FSM_STATE` changes. -/
def Obligations.SesClearReturns : Prop :=
  decode (wordOf 0x43 0 0 0) = .ok .sesClear ∧
  ∀ s : State,
    (s.busy = false → exec .sesClear s = .next { s with ctl := { s.ctl with fsm := .idle } }) ∧
    (s.busy = true → ∃ t, exec .sesClear s = .next t ∧ OnlyRejected .busy s t)

/-! ### The host port and reset -/

/-- R70 to R72, R75, R79: a read returns the register that R46 gives the index, zero-extended from its width, or the octet
of the named buffer, 0 where there is none, and changes nothing of the engine. The record of the answers and the carrier
they are zero-extended to are the model's own (log entries 12 and 8). -/
def Obligations.HostReadsChangeNothing : Prop :=
  ∀ s : State,
    (∀ idx, hostStep (.read idx) s = .next { s with replies := s.replies ++ [.reg idx (hostReadValue idx s)] }) ∧
    (∀ r ∈ registerValues s, hostReadValue r.1 s = r.2) ∧
    (∀ idx, listedIndex idx = true → ∃ v, (idx, v) ∈ registerValues s) ∧
    (∀ idx, listedIndex idx = false → hostReadValue idx s = 0) ∧
    (∀ idx r, hostRegAt idx = some r → (hostReadValue idx s).toNat < 2 ^ regWidth r) ∧
    (∀ b off, hostStep (.bufRead b off) s =
      .next { s with replies := s.replies ++ [.octet b off (hostBufReadValue b off s)] }) ∧
    (∀ off, off < 127 → hostBufReadValue .txbuf off s = readOctet s.tx.buf off ∧
      hostBufReadValue .rxbuf off s = readOctet s.rx.buf off) ∧
    (∀ b off, 126 < off → hostBufReadValue b off s = 0)

/-- R46, R72, R79: with no session running, a write to a writable register is read back and changes nothing else; every
other write, `CMD` and `STATUS` apart, is refused. The write's 128-bit carrier, of which a register takes the low bits of its
own width, is the model's choice (log entry 8). -/
def Obligations.HostWrites : Prop :=
  ∀ (s : State) (idx : BitVec 8) (v : BitVec 128), s.busy = false →
    (∀ w, (idx, w) ∈ writableRegs → ∃ t, hostStep (.write idx v) s = .next t ∧
      hostReadValue idx t = (v.setWidth w).setWidth 128 ∧ (∀ j, j ≠ idx → hostReadValue j t = hostReadValue j s) ∧
      OctetsKept s t ∧ SurroundingsKept s t ∧ t.free = s.free) ∧
    (idx ≠ 0x00#8 → idx ≠ 0x01#8 → (∀ w, (idx, w) ∉ writableRegs) →
      ∃ t, hostStep (.write idx v) s = .next t ∧ OnlyRejected .writeRefused s t)

/-- R32: a write to `STATUS` clears the sticky flags written with 1 and does nothing else, busy or not. -/
def Obligations.StatusWriteClears : Prop :=
  ∀ (s : State) (v : BitVec 128), ∃ t, hostStep (.write 0x01#8 v) s = .next t ∧
    (∀ i : Fin 7, t.ctl.status.getLsbD i.val =
      (s.ctl.status.getLsbD i.val && !(v.getLsbD i.val && (decide (i.val = 3) || decide (i.val = 4) || decide (i.val = 5))))) ∧
    t = { s with ctl := { s.ctl with status := t.ctl.status } }

/-- R74, R75: with no session running the host writes octets 0 to 126 of `RXBUF`; `TXBUF` and offsets above are refused. -/
def Obligations.HostBufferWrites : Prop :=
  ∀ (s : State) (off : Nat) (v : Octet), s.busy = false →
    (off ≤ 126 → buffersCanonical s = true → ∃ t, hostStep (.bufWrite .rxbuf off v) s = .next t ∧
      (∀ b o, hostBufReadValue b o t = if b = .rxbuf ∧ o = off then v else hostBufReadValue b o s) ∧
      t = { s with rx := { s.rx with buf := t.rx.buf } }) ∧
    (126 < off → ∃ t, hostStep (.bufWrite .rxbuf off v) s = .next t ∧ OnlyRejected .writeRefused s t) ∧
    (∃ t, hostStep (.bufWrite .txbuf off v) s = .next t ∧ OnlyRejected .writeRefused s t)

/-- R73: while a session runs the host can read, clear sticky flags and be refused, and nothing more. -/
def Obligations.HostCannotDisturbSession : Prop :=
  ∀ (s : State) (op : HostOp), s.busy = true → ∃ t, hostStep op s = .next t ∧
    t.tsu = s.tsu ∧ t.rmu = s.rmu ∧ t.ses = s.ses ∧ t.tx = s.tx ∧ t.rx = s.rx ∧ t.trx = s.trx ∧ t.params = s.params ∧
    t.calls = s.calls ∧ t.sched = s.sched ∧ t.free = s.free ∧ t.ctl.fsm = s.ctl.fsm ∧ t.ctl.ctrl = s.ctl.ctrl ∧
    t.ctl.err = s.ctl.err ∧ t.busy = true ∧ StatusKept [3, 4, 5] s t ∧
    (∀ v, op = .write 0x00#8 v → OnlyRejected .busy s t) ∧
    (∀ idx v, op = .write idx v → idx ≠ 0x00#8 → idx ≠ 0x01#8 → OnlyRejected .writeRefused s t) ∧
    (∀ b off v, op = .bufWrite b off v → OnlyRejected .writeRefused s t)

/-- R49 and R290: after reset every register reads 0 but `CTRL`, which reads 2, and every octet is 0; the reset input
gives those values in any state, calls no transceiver operation and leaves the transceiver as it is (R291). -/
def Obligations.ResetValues : Prop :=
  (∀ idx, hostReadValue idx State.reset = if idx = 0x02#8 then 2 else 0) ∧
  (∀ b off, hostBufReadValue b off State.reset = 0) ∧
  (∀ s : State, ∃ t, eventStep .reset s = .next t ∧
    (∀ idx, hostReadValue idx t = if idx = 0x02#8 then 2 else 0) ∧ (∀ b off, hostBufReadValue b off t = 0) ∧
    t.calls = s.calls ∧ t.trx = s.trx ∧ t.params = s.params ∧ t.busy = false ∧ t.ctl.fsm = .idle)

/-! ### The session steps -/

/-- R191, R195, R198, R231, R242 and R225: what a transmit wait does when the transmission is done. -/
def Obligations.TransmitDoneSteps : Prop :=
  ∀ (s : State) (a : TrxAnswers), s.busy = true → a.hwFault = false → a.txDone = true →
    (∀ f g, (f, g) ∈ ([(.blinkSent, .awaitingInitiation), (.pollSent, .awaitingResponse),
        (.finalSent, .awaitingConfirm)] : List (FsmState × FsmState)) → s.ctl.fsm = f →
      engineStep a s = { s with ctl := { s.ctl with fsm := g },
                                calls := s.calls ++ [.isHardwareFault, .isTransmitDone, .startReceive] }) ∧
    (s.ctl.fsm = .confirmSent ∨ s.ctl.fsm = .finishedSent →
      engineStep a s = { s with ctl := { s.ctl with status := s.ctl.status &&& 0b1111110#7 },
                                ses := { s.ses with result := 0b11#2 },
                                calls := s.calls ++ [.isHardwareFault, .isTransmitDone] }) ∧
    (s.ctl.fsm = .initiationSent →
      engineStep a s = { s with ctl := { s.ctl with fsm := .admitted, status := s.ctl.status &&& 0b1111110#7 },
                                calls := s.calls ++ [.isHardwareFault, .isTransmitDone] }) ∧
    (s.ctl.fsm = .responseSent →
      let t := engineStep a s
      WentTo .awaitingFinal [.isHardwareFault, .isTransmitDone, .getTransmitTimestamp, .startReceive] s t ∧
      readT 10 t = a.txTime.toNat ∧ TimestampsKept [10] s t ∧ t.tsu.exchMask = s.tsu.exchMask ||| 0b000100#6 ∧
      OperandsKept s t ∧ t.ctl.status = s.ctl.status ∧ t.rmu = s.rmu ∧ t.ses = s.ses ∧ t.tx = s.tx ∧ t.rx = s.rx ∧
      t.trx = s.trx)

/-- R193 and R194: the tag takes its address from the RangingInitiation addressed to it and sends its Poll. -/
def Obligations.InitiationAccepted : Prop :=
  ∀ (s : State) (a : TrxAnswers) (peer : Tx), s.busy = true → s.ctl.fsm = .awaitingInitiation →
    buffersCanonical s = true → Presents s a peer .rinit → peer.eui = s.trx.eui →
    let t := engineStep a s
    let x := { s.tx with dst := peer.src, src := peer.arg }
    WentTo .pollSent [.isHardwareFault, .isReceiveDone, .getReceivedFrame, .getOwnExtendedIdentifier,
      .setOwnShortAddress peer.arg, .getOwnShortAddress, .transmit (frameOf s.params x .poll)] s t ∧
    Heard peer .rinit a s t ∧ StatusKept [6] s t ∧ t.trx = { s.trx with shortAddr := peer.arg } ∧
    t.ses = { s.ses with anchorAddr := peer.src } ∧ ExchangeCleared t ∧ TimestampsKept [8, 9, 10, 11, 12, 13] s t ∧
    OperandsKept s t ∧ Encoded x .poll s t ∧ t.rmu = s.rmu

/-- R197: the tag records its three times and schedules the FinalMessage at `(now + REPLY_DELAY) mod 2^40`. -/
def Obligations.ResponseAccepted : Prop :=
  ∀ (s : State) (a : TrxAnswers) (peer : Tx), s.busy = true → s.ctl.fsm = .awaitingResponse →
    buffersCanonical s = true → Presents s a peer .resp → peer.dst = s.trx.shortAddr → peer.src = s.ses.anchorAddr →
    peer.act = s.params.actContinue →
    let t := engineStep a s
    let fut : Nat := (a.sysTime.toNat + s.ses.replyDelay.toNat) % 2 ^ 40
    let x := { s.tx with
      dst := s.ses.anchorAddr, src := s.trx.shortAddr, ts0 := BitVec.ofNat 32 a.txTime.toNat,
      ts1 := BitVec.ofNat 32 a.rxTime.toNat, ts2 := BitVec.ofNat 32 fut }
    WentTo .finalSent [.isHardwareFault, .isReceiveDone, .getReceivedFrame, .getOwnShortAddress, .getTransmitTimestamp,
      .getReceiveTimestamp, .getSystemTimestamp,
      .transmitDelayed (frameOf s.params x .final) (BitVec.ofNat 40 fut)] s t ∧
    Heard peer .resp a s t ∧ StatusKept [6] s t ∧
    readT 8 t = a.txTime.toNat ∧ readT 11 t = a.rxTime.toNat ∧ readT 12 t = fut ∧ TimestampsKept [8, 11, 12] s t ∧
    t.tsu.exchMask = s.tsu.exchMask ||| 0b011001#6 ∧ OperandsKept s t ∧ Encoded x .final s t ∧
    t.rmu = s.rmu ∧ t.ses = s.ses ∧ t.trx = s.trx

/-- R199, R200 and R201: a RangingConfirm chains to the next anchor, an ActivityFinished ends the session. -/
def Obligations.ConfirmAccepted : Prop :=
  ∀ (s : State) (a : TrxAnswers) (peer : Tx), s.busy = true → s.ctl.fsm = .awaitingConfirm →
    buffersCanonical s = true → peer.dst = s.trx.shortAddr → peer.src = s.ses.anchorAddr →
    let t := engineStep a s
    let count : BitVec 8 := BitVec.ofNat 8 (min (s.ses.exchCount.toNat + 1) 255)
    let calls := [.isHardwareFault, .isReceiveDone, .getReceivedFrame, .getOwnShortAddress]
    (Presents s a peer .confirm →
      WentTo .nextAnchor calls s t ∧ Heard peer .confirm a s t ∧ StatusKept [6] s t ∧
      t.ses = { s.ses with exchCount := count, anchorAddr := peer.arg } ∧
      t.tsu = s.tsu ∧ t.rmu = s.rmu ∧ t.tx = s.tx ∧ t.trx = s.trx) ∧
    (Presents s a peer .finished →
      WentTo .done calls s t ∧ Heard peer .finished a s t ∧ StatusKept [0, 6] s t ∧ t.busy = false ∧
      t.ses = { s.ses with exchCount := count, blinkRate := peer.arg } ∧
      t.tsu = s.tsu ∧ t.rmu = s.rmu ∧ t.tx = s.tx ∧ t.trx = s.trx)

/-- R222: the anchor takes the Poll's sender as its peer, begins the exchange and answers. -/
def Obligations.PollAccepted : Prop :=
  ∀ (s : State) (a : TrxAnswers) (peer : Tx), s.busy = true → s.ctl.fsm = .awaitingPoll →
    buffersCanonical s = true → Presents s a peer .poll → peer.dst = s.trx.shortAddr →
    let t := engineStep a s
    let x := { s.tx with dst := peer.src, src := s.trx.shortAddr, act := s.params.actContinue }
    WentTo .responseSent [.isHardwareFault, .isReceiveDone, .getReceivedFrame, .getOwnShortAddress,
      .getReceiveTimestamp, .transmit (frameOf s.params x .resp)] s t ∧
    Heard peer .poll a s t ∧ StatusKept [6] s t ∧ t.ses = { s.ses with peerAddr := peer.src } ∧
    readT 9 t = a.rxTime.toNat ∧ (∀ r ∈ ([8, 10, 11, 12, 13] : List Reg), readT r t = 0) ∧
    TimestampsKept [8, 9, 10, 11, 12, 13] s t ∧ t.tsu.exchMask = 0b000010#6 ∧ OperandsKept s t ∧
    Encoded x .resp s t ∧ t.rmu = s.rmu ∧ t.trx = s.trx

/-- R227 and R228: the anchor's range from its own three times and the FinalMessage's three 32-bit fields, in one step:
the legs, the numerator, the denominator, the distance and its correction at the measured power (R150), or
`RangeInvalid(DIV_ZERO)`. For a corrected distance from 1 to 10^13 - 1 `DIST` is that distance, as R150 and R154 say and
against R38's words (the model's reading: log entry 6, DEDUCED, unsafe). -/
def Obligations.FinalAccepted : Prop :=
  ∀ (s : State) (a : TrxAnswers) (peer : Tx), s.busy = true → s.ctl.fsm = .awaitingFinal →
    buffersCanonical s = true → s.tsu.exchMask = 0b000110#6 → ValidTs (readT 9 s) → ValidTs (readT 10 s) →
    Presents s a peer .final → peer.dst = s.trx.shortAddr → peer.src = s.ses.peerAddr →
    let t := engineStep a s
    let round1 : Int := ((peer.ts1.toNat : Int) - peer.ts0.toNat) % 2 ^ 32
    let reply1 : Int := (readT 10 s - readT 9 s) % 2 ^ 40
    let round2 : Int := ((a.rxTime.toNat : Int) - readT 10 s) % 2 ^ 40
    let reply2 : Int := ((peer.ts2.toNat : Int) - peer.ts1.toNat) % 2 ^ 32
    let n := round1 * round2 - reply1 * reply2
    let d := round1 + round2 + reply1 + reply2
    Heard peer .final a s t ∧ ExchangeCleared t ∧ TimestampsKept [8, 9, 10, 11, 12, 13] s t ∧ OperandsKept s t ∧
    t.tx = s.tx ∧ t.trx = s.trx ∧ t.params = s.params ∧ StatusKept [0, 6] s t ∧ t.ctl.ctrl = s.ctl.ctrl ∧
    t.ctl.cmdErrCode = s.ctl.cmdErrCode ∧ t.rmu.bandMap = s.rmu.bandMap ∧ t.sched = s.sched ∧ t.replies = s.replies ∧
    t.free = s.free ∧ t.calls = s.calls ++ [.isHardwareFault, .isReceiveDone, .getReceivedFrame, .getOwnShortAddress,
      .getReceiveTimestamp, .getReceivePowerDbm, .getChannel, .getPulseRepetitionFrequency] ∧
    t.rmu.rxpwr = a.rxPower ∧ t.rmu.biaskey.getLsbD 0 = s.trx.prf.getLsbD 0 ∧
    t.rmu.biaskey.getLsbD 1 = s.rmu.bandMap.getLsbD s.trx.channel.toNat ∧
    t.rmu.round1.toInt = round1 ∧ t.rmu.reply1.toInt = reply1 ∧ t.rmu.round2.toInt = round2 ∧
    t.rmu.reply2.toInt = reply2 ∧ t.rmu.tofNum.toInt = n ∧ t.rmu.tofDen.toInt = d ∧
    (d = 0 → FailedWith .rangeInvalid .divZero s t ∧ t.rmu.distRaw.toInt = 0 ∧ t.rmu.bias = s.rmu.bias ∧
      t.rmu.dist = s.rmu.dist ∧ t.rmu.rangeStatus = 0b00001000#8 ∧ t.ses = { s.ses with result := t.ses.result }) ∧
    (d ≠ 0 → t.ctl.fsm = .rangeComputed ∧ t.busy = true ∧ t.ctl.err = s.ctl.err ∧ t.ses = s.ses ∧
      t.rmu.distRaw.toInt = Int.fdiv (n * 46917639786159) d ∧
      (∀ i : Fin 4, t.rmu.rangeStatus.getLsbD i = decide (i.val = 0)) ∧
      (∀ k : Fin 4, k.val = 2 * (s.rmu.bandMap.getLsbD s.trx.channel.toNat).toNat + (s.trx.prf.getLsbD 0).toNat →
        Corrected s.biasEn s.params.biasRom[k] a.rxPower.toInt t.rmu.distRaw.toInt t.rmu) ∧
      t.rmu.distRaw.toInt + t.rmu.bias.toInt < 2 ^ 127)

/-- R227's derivation: the 32-bit truncations of two times of one 40-bit clock give back the wrapped difference of the
times themselves whenever that difference is below 2^32 ticks. -/
def Obligations.TruncationLosesNothing : Prop :=
  ∀ (earlier later : Raw40) (s : State) (rd ra rb : Reg), s.busy = false →
    readT ra s = later.toNat → readT rb s = earlier.toNat → (later - earlier).toNat < 2 ^ 32 →
    ∃ t u, exec (.tsSub rd ra rb) s = .next t ∧ exec (.tsWrap rd rd) t = .next u ∧
      readT rd u = ((later.setWidth 32 - earlier.setWidth 32 : BitVec 32).toNat : Int)

/-- R202 and R230: the two internal states send the next Poll, and the verdict that `CTRL.POLICY` chooses. -/
def Obligations.InternalSteps : Prop :=
  ∀ (s : State) (a : TrxAnswers), s.busy = true → buffersCanonical s = true →
    let t := engineStep a s
    (s.ctl.fsm = .nextAnchor →
      let x := { s.tx with dst := s.ses.anchorAddr, src := s.trx.shortAddr }
      WentTo .pollSent [.getOwnShortAddress, .transmit (frameOf s.params x .poll)] s t ∧ ExchangeCleared t ∧
      TimestampsKept [8, 9, 10, 11, 12, 13] s t ∧ OperandsKept s t ∧ Encoded x .poll s t ∧
      t.ctl.status = s.ctl.status ∧ t.rmu = s.rmu ∧ t.ses = s.ses ∧ t.rx = s.rx ∧ t.trx = s.trx) ∧
    (s.ctl.fsm = .rangeComputed → s.policy = true →
      let x := { s.tx with dst := s.ses.peerAddr, src := s.trx.shortAddr, arg := s.ses.nextAnchor }
      WentTo .confirmSent [.getOwnShortAddress, .transmit (frameOf s.params x .confirm)] s t ∧ Encoded x .confirm s t ∧
      t.ctl.status = s.ctl.status ∧ t.tsu = s.tsu ∧ t.rmu = s.rmu ∧ t.ses = s.ses ∧ t.rx = s.rx ∧ t.trx = s.trx) ∧
    (s.ctl.fsm = .rangeComputed → s.policy = false →
      let x := { s.tx with dst := s.ses.peerAddr, src := s.trx.shortAddr, arg := s.ses.blinkSuggest }
      WentTo .finishedSent [.getOwnShortAddress, .transmit (frameOf s.params x .finished)] s t ∧
      Encoded x .finished s t ∧ t.ctl.status = s.ctl.status ∧ t.tsu = s.tsu ∧ t.rmu = s.rmu ∧ t.ses = s.ses ∧
      t.rx = s.rx ∧ t.trx = s.trx)

/-- R241: an admitting anchor answers a Blink with the RangingInitiation that carries `ASSIGN_ADDR`. -/
def Obligations.BlinkAccepted : Prop :=
  ∀ (s : State) (a : TrxAnswers) (peer : Tx), s.busy = true → s.ctl.fsm = .awaitingBlink →
    buffersCanonical s = true → Presents s a peer .blink →
    let t := engineStep a s
    let x := { s.tx with
      netId := s.trx.netId, eui := peer.eui, src := s.trx.shortAddr, arg := s.ses.assignAddr }
    WentTo .initiationSent [.isHardwareFault, .isReceiveDone, .getReceivedFrame, .getNetworkId, .getOwnShortAddress,
      .transmit (frameOf s.params x .rinit)] s t ∧
    Heard peer .blink a s t ∧ StatusKept [6] s t ∧ t.ses = { s.ses with peerEui := peer.eui } ∧
    Encoded x .rinit s t ∧ t.tsu = s.tsu ∧ t.rmu = s.rmu ∧ t.trx = s.trx

/-- R262, R263, R265 and R266: a fault wins over all; a receive wait times out only with no frame, after `forceIdle`; a
transmit wait knows no timeout; with no event a wait state only polls. -/
def Obligations.WaitStatePriorities : Prop :=
  ∀ (s : State) (a : TrxAnswers), s.busy = true →
    let t := engineStep a s
    (s.ctl.fsm ∈ transmitWaits ++ receiveWaits → a.hwFault = true →
      FailedWith .hardwareFault .none s t ∧ FailedQuietly [.isHardwareFault] s t ∧ StatusKept [0] s t ∧ t.rx = s.rx) ∧
    (s.ctl.fsm ∈ transmitWaits → a.hwFault = false → a.txDone = false →
      t = { s with calls := s.calls ++ [.isHardwareFault, .isTransmitDone] }) ∧
    (s.ctl.fsm ∈ receiveWaits → a.hwFault = false → a.rxDone = false → a.rxTimedOut = true →
      FailedWith .exchangeTimeout .none s t ∧
      FailedQuietly [.isHardwareFault, .isReceiveDone, .isReceiveTimedOut, .forceIdle] s t ∧ StatusKept [0] s t ∧
      t.rx = s.rx) ∧
    (s.ctl.fsm ∈ receiveWaits → a.hwFault = false → a.rxDone = false → a.rxTimedOut = false →
      t = { s with calls := s.calls ++ [.isHardwareFault, .isReceiveDone, .isReceiveTimedOut] })

/-- R177 (b), R178, R183 and R267: an empty frame, a frame of another kind and a short frame fail the session, in the
order empty, function code, length, whatever the receive wait state. -/
def Obligations.MalformedFrameFails : Prop :=
  ∀ (s : State) (a : TrxAnswers), s.busy = true → buffersCanonical s = true → s.ctl.fsm ∈ receiveWaits →
    a.hwFault = false → a.rxDone = true →
    let t := engineStep a s
    let calls := [.isHardwareFault, .isReceiveDone, .getReceivedFrame]
    (a.frame.octets = [] →
      FailedWith .protocolViolation .truncated s t ∧ FailedQuietly calls s t ∧ t.decOk = false ∧
      StatusKept [0, 6] s t ∧ t.rx = { s.rx with len := 0 }) ∧
    (∀ c rest, a.frame.octets = c :: rest → (∀ k ∈ expectedKinds s.ctl.fsm, c ≠ codeOfKind s.params k) →
      FailedWith .protocolViolation .badFc s t ∧ FailedQuietly calls s t ∧ t.decOk = false ∧ StatusKept [0, 6] s t ∧
      RxHolds (c :: rest) s t ∧ t.rx.len.toNat = (c :: rest).length ∧
      t.rx = { s.rx with fc := c, len := t.rx.len, buf := t.rx.buf }) ∧
    (∀ c rest k, a.frame.octets = c :: rest → k ∈ expectedKinds s.ctl.fsm → c = codeOfKind s.params k →
      (c :: rest).length < (frameOf s.params s.tx k).length →
      FailedWith .protocolViolation .truncated s t ∧ FailedQuietly calls s t ∧ t.decOk = false ∧
      StatusKept [0, 6] s t ∧ RxHolds (c :: rest) s t ∧ t.rx.len.toNat = (c :: rest).length ∧
      t.rx = { s.rx with fc := c, len := t.rx.len, buf := t.rx.buf })

/-- R193, R197, R199, R222, R227: a well-formed frame with the wrong addresses fails with `ADDR_MISMATCH`, and a
ResponseToPoll that does not say "continue" with `NOT_CONTINUE`, tested in that order. -/
def Obligations.WrongAddressFails : Prop :=
  ∀ (s : State) (a : TrxAnswers) (peer : Tx) (k : Kind), s.busy = true → buffersCanonical s = true →
    Presents s a peer k → k ∈ expectedKinds s.ctl.fsm →
    let t := engineStep a s
    let polls := [.isHardwareFault, .isReceiveDone, .getReceivedFrame]
    (k = .rinit → peer.eui ≠ s.trx.eui →
      FailedWith .protocolViolation .addrMismatch s t ∧ FailedQuietly (polls ++ [.getOwnExtendedIdentifier]) s t ∧
      Heard peer k a s t ∧ StatusKept [0, 6] s t) ∧
    (k = .poll → peer.dst ≠ s.trx.shortAddr →
      FailedWith .protocolViolation .addrMismatch s t ∧ FailedQuietly (polls ++ [.getOwnShortAddress]) s t ∧
      Heard peer k a s t ∧ StatusKept [0, 6] s t) ∧
    (k = .resp ∨ k = .confirm ∨ k = .finished → peer.dst ≠ s.trx.shortAddr ∨ peer.src ≠ s.ses.anchorAddr →
      FailedWith .protocolViolation .addrMismatch s t ∧ FailedQuietly (polls ++ [.getOwnShortAddress]) s t ∧
      Heard peer k a s t ∧ StatusKept [0, 6] s t) ∧
    (k = .final → peer.dst ≠ s.trx.shortAddr ∨ peer.src ≠ s.ses.peerAddr →
      FailedWith .protocolViolation .addrMismatch s t ∧ FailedQuietly (polls ++ [.getOwnShortAddress]) s t ∧
      Heard peer k a s t ∧ StatusKept [0, 6] s t) ∧
    (k = .resp → peer.dst = s.trx.shortAddr → peer.src = s.ses.anchorAddr → peer.act ≠ s.params.actContinue →
      FailedWith .protocolViolation .notContinue s t ∧ FailedQuietly (polls ++ [.getOwnShortAddress]) s t ∧
      Heard peer k a s t ∧ StatusKept [0, 6] s t)

/-! ### Whole-machine rules -/

/-- R204, R221, R205 and R232: an engine step stays, fails, or makes one of the listed moves; and it ends a session only
in `Failed`, `Done`, `Admitted`, `ConfirmSent` or `FinishedSent` (R246). -/
def Obligations.SessionMoves : Prop :=
  ∀ (s : State) (a : TrxAnswers), s.busy = true →
    let t := engineStep a s
    (t.ctl.fsm = s.ctl.fsm ∨ t.ctl.fsm = .failed ∨ t.ctl.fsm ∈ sessionMoves s.ctl.fsm) ∧
    (t.busy = false → t.ctl.fsm ∈ ([.failed, .done, .admitted, .confirmSent, .finishedSent] : List FsmState)) ∧
    (t.ctl.fsm = .failed → s.ctl.fsm ≠ .failed → t.busy = false ∧ t.ctl.err.cls ≠ .none ∧ t.ctl.err.state = s.ctl.fsm)

/-- R206 and R208: a tag's step computes no range, writes no result and stays out of the anchor's states. -/
def Obligations.TagComputesNothing : Prop :=
  ∀ (s : State) (a : TrxAnswers), s.busy = true → s.ctl.fsm.tagState = true →
    (engineStep a s).rmu = s.rmu ∧ (engineStep a s).ses.result = s.ses.result ∧
    ((engineStep a s).ctl.fsm.tagState = true ∨ (engineStep a s).ctl.fsm = .done ∨ (engineStep a s).ctl.fsm = .failed)

/-- R275, R11, R83: no step changes a parameter or the transceiver's configuration; the short address changes only in
a running tag session that waits for its RangingInitiation; the records of calls and answers, the model's own (log entry
12), only grow. -/
def Obligations.IdentityIsStable : Prop :=
  ∀ s t : State, step s = .next t →
    t.params = s.params ∧ t.trx = { s.trx with shortAddr := t.trx.shortAddr } ∧
    (t.trx.shortAddr ≠ s.trx.shortAddr → s.busy = true ∧ s.ctl.fsm = .awaitingInitiation) ∧
    s.calls <+: t.calls ∧ s.replies <+: t.replies

/-- R229: "Inside a session `INVALID` cannot happen": no step of a machine that keeps the anchor's records raises
`RangeInvalid(DIFF_INVALID)`. -/
def Obligations.SessionNeverInvalid : Prop :=
  ∀ (s : State) (a : TrxAnswers), exchangeTracked s = true → localTimesValid s = true →
    s.ctl.err.detail ≠ .diffInvalid → (engineStep a s).ctl.err.detail ≠ .diffInvalid ∧
    (s.busy = true → s.ctl.fsm = .awaitingFinal → (engineStep a s).rmu ≠ s.rmu →
      (engineStep a s).rmu.rangeStatus.getLsbD 1 = false ∧ (engineStep a s).rmu.rangeStatus.getLsbD 2 = false)

/-! ### Invariants -/

/-- Every step keeps both buffers in the model's canonical form (log entry 15) and `TXLEN` a frame length (R160, R170). -/
def Obligations.BuffersStayCanonical : Prop :=
  ∀ s t : State, buffersCanonical s = true → txlenLegal s = true → step s = .next t →
    buffersCanonical t = true ∧ txlenLegal t = true

/-- Every step keeps `STATUS.BUSY` and `FSM_STATE` in agreement (R31, R246). -/
def Obligations.SessionStaysConsistent : Prop :=
  ∀ s t : State, sessionConsistent s = true → step s = .next t → sessionConsistent t = true

/-- Every step keeps the exchange mask as the state of the session requires (R197, R222, R225, R228), and the anchor's
recorded times valid. -/
def Obligations.ExchangeStaysTracked : Prop :=
  ∀ s t : State, exchangeTracked s = true → localTimesValid s = true → step s = .next t →
    exchangeTracked t = true ∧ localTimesValid t = true

/-- R260: "No other combination of class and detail is ever written", by any step. -/
def Obligations.ErrStaysLegal : Prop :=
  ∀ s t : State, errLegal s = true → step s = .next t → errLegal t = true

/-- Every step keeps `RANGE_STATUS` one of its legal values (R40) and `TOF_DEN` in `[0, 2^42)` (R38, R145). -/
def Obligations.RangeRegistersStayLegal : Prop :=
  ∀ s t : State, rangeStatusLegal s = true → denominatorLegal s = true → step s = .next t →
    rangeStatusLegal t = true ∧ denominatorLegal t = true

/-- The machine after reset meets every invariant above. -/
def Obligations.ResetMeetsInvariants : Prop :=
  buffersCanonical State.reset = true ∧ txlenLegal State.reset = true ∧ sessionConsistent State.reset = true ∧
  exchangeTracked State.reset = true ∧ localTimesValid State.reset = true ∧ errLegal State.reset = true ∧
  rangeStatusLegal State.reset = true ∧ denominatorLegal State.reset = true
end

