-- ==== Sys2Proof/Laws/Decode.lean ====
section
/-! SUPPORT. The fields of a packed word, and what the decoder answers for each row. -/

namespace Sys2Proof

/-- A packed word as a number: each field at its place (R91). -/
theorem toNat_packWord (op : Octet) (rd ra rb : Fin 16) :
    (packWord op rd ra rb).toNat = op.toNat * 2 ^ 24 + rd.val * 2 ^ 20 + ra.val * 2 ^ 16 + rb.val * 2 ^ 12 := by
  have := op.isLt; have := rd.isLt; have := ra.isLt; have := rb.isLt
  simp only [packWord, BitVec.toNat_append, BitVec.toNat_ofFin, BitVec.toNat_ofNat, Nat.zero_mod, Nat.or_zero]
  rw [← Nat.shiftLeft_add_eq_or_of_lt (by omega), ← Nat.shiftLeft_add_eq_or_of_lt (by omega),
    ← Nat.shiftLeft_add_eq_or_of_lt (by omega)]
  simp only [Nat.shiftLeft_eq]
  omega

theorem toNat_field (w : CmdWord) (a n : Nat) : (w.extractLsb' a n).toNat = w.toNat / 2 ^ a % 2 ^ n := by
  simp [BitVec.extractLsb'_toNat, Nat.shiftRight_eq_div_pow]

@[simp] theorem opField_packWord (op : Octet) (rd ra rb : Fin 16) : opField (packWord op rd ra rb) = op := by
  have := op.isLt; have := rd.isLt; have := ra.isLt; have := rb.isLt
  apply BitVec.eq_of_toNat_eq
  rw [opField, toNat_field, toNat_packWord]; omega

@[simp] theorem rdField_packWord (op : Octet) (rd ra rb : Fin 16) : rdField (packWord op rd ra rb) = rd := by
  have := op.isLt; have := rd.isLt; have := ra.isLt; have := rb.isLt
  apply Fin.ext
  show BitVec.toNat _ = _
  rw [toNat_field, toNat_packWord]; omega

@[simp] theorem raField_packWord (op : Octet) (rd ra rb : Fin 16) : raField (packWord op rd ra rb) = ra := by
  have := op.isLt; have := rd.isLt; have := ra.isLt; have := rb.isLt
  apply Fin.ext
  show BitVec.toNat _ = _
  rw [toNat_field, toNat_packWord]; omega

@[simp] theorem rbField_packWord (op : Octet) (rd ra rb : Fin 16) : rbField (packWord op rd ra rb) = rb := by
  have := op.isLt; have := rd.isLt; have := ra.isLt; have := rb.isLt
  apply Fin.ext
  show BitVec.toNat _ = _
  rw [toNat_field, toNat_packWord]; omega

theorem and_low (w : CmdWord) (n : Nat) (hn : n ≤ 32) (h : w.toNat % 2 ^ n = 0) :
    w &&& BitVec.ofNat 32 (2 ^ n - 1) = 0#32 := by
  apply BitVec.eq_of_toNat_eq
  have : 2 ^ n - 1 < 2 ^ 32 := by
    have := Nat.pow_le_pow_right (n := 2) (by omega) hn
    have := Nat.two_pow_pos n
    omega
  rw [BitVec.toNat_and, BitVec.toNat_ofNat, Nat.mod_eq_of_lt this, Nat.and_two_pow_sub_one_eq_mod, h]
  rfl

/-- The must-be-zero bits of a packed word, for each format with a field (R92). -/
theorem packWord_dab (op : Octet) (rd ra rb : Fin 16) : packWord op rd ra rb &&& Format.mustBeZero .DAB = 0#32 :=
  and_low _ 12 (by omega) (by rw [toNat_packWord]; omega)

theorem packWord_da (op : Octet) (rd ra : Fin 16) : packWord op rd ra 0 &&& Format.mustBeZero .DA = 0#32 :=
  and_low _ 16 (by omega) (by rw [toNat_packWord]; simp only [Fin.val_zero]; omega)

theorem packWord_d (op : Octet) (rd : Fin 16) : packWord op rd 0 0 &&& Format.mustBeZero .D = 0#32 :=
  and_low _ 20 (by omega) (by rw [toNat_packWord]; simp only [Fin.val_zero]; omega)

theorem packWord_a (op : Octet) (ra : Fin 16) : packWord op 0 ra 0 &&& Format.mustBeZero .A = 0#32 := by
  have h : packWord op 0 ra 0 =
      op ++ BitVec.ofFin (w := 4) 0 ++ BitVec.ofFin (w := 4) ra ++ BitVec.ofFin (w := 4) 0 ++ 0#12 := rfl
  have hm : Format.mustBeZero .A = (0#8 ++ 15#4 ++ 0#4 ++ 15#4 ++ 0xFFF#12 : BitVec 32) := by decide
  rw [h, hm, BitVec.and_append, BitVec.and_append, BitVec.and_append, BitVec.and_append]
  simp

/-- A packed word decodes to its row's command where the format and the kind allow it. -/
theorem decode_packWord {op : Octet} {rd ra rb : Fin 16} {f : Format} {mk : Reg → Reg → Reg → Instr}
    (hrow : opcodeRow op = some (f, mk)) (hz : packWord op rd ra rb &&& f.mustBeZero = 0#32)
    (hw : (mk rd ra rb).wf = true) : decode (packWord op rd ra rb) = .ok (mk rd ra rb) := by
  simp [decode, hrow, hz, hw]

end Sys2Proof
end

