-- ==== Sys2Proof/Laws/State.lean ====
section
/-! SUPPORT. One lemma per field and per update of the state: what each shared operation leaves as it was, and the
plain value of what it writes. All true by unfolding; later proofs cite these and unfold no record update. -/

namespace Sys2Proof.Machine

@[simp] theorem State.setStatusBit_tsu (i : Nat) (b : Bool) (s : State) : (s.setStatusBit i b).tsu = s.tsu := rfl
@[simp] theorem State.setStatusBit_rmu (i : Nat) (b : Bool) (s : State) : (s.setStatusBit i b).rmu = s.rmu := rfl
@[simp] theorem State.setStatusBit_ses (i : Nat) (b : Bool) (s : State) : (s.setStatusBit i b).ses = s.ses := rfl
@[simp] theorem State.setStatusBit_tx (i : Nat) (b : Bool) (s : State) : (s.setStatusBit i b).tx = s.tx := rfl
@[simp] theorem State.setStatusBit_rx (i : Nat) (b : Bool) (s : State) : (s.setStatusBit i b).rx = s.rx := rfl
@[simp] theorem State.setStatusBit_params (i : Nat) (b : Bool) (s : State) : (s.setStatusBit i b).params = s.params := rfl
@[simp] theorem State.setStatusBit_trx (i : Nat) (b : Bool) (s : State) : (s.setStatusBit i b).trx = s.trx := rfl
@[simp] theorem State.setStatusBit_sched (i : Nat) (b : Bool) (s : State) : (s.setStatusBit i b).sched = s.sched := rfl
@[simp] theorem State.setStatusBit_calls (i : Nat) (b : Bool) (s : State) : (s.setStatusBit i b).calls = s.calls := rfl
@[simp] theorem State.setStatusBit_replies (i : Nat) (b : Bool) (s : State) : (s.setStatusBit i b).replies = s.replies := rfl
@[simp] theorem State.setStatusBit_free (i : Nat) (b : Bool) (s : State) : (s.setStatusBit i b).free = s.free := rfl

@[simp] theorem State.setBusy_tsu (b : Bool) (s : State) : (s.setBusy b).tsu = s.tsu := rfl
@[simp] theorem State.setBusy_rmu (b : Bool) (s : State) : (s.setBusy b).rmu = s.rmu := rfl
@[simp] theorem State.setBusy_ses (b : Bool) (s : State) : (s.setBusy b).ses = s.ses := rfl
@[simp] theorem State.setBusy_tx (b : Bool) (s : State) : (s.setBusy b).tx = s.tx := rfl
@[simp] theorem State.setBusy_rx (b : Bool) (s : State) : (s.setBusy b).rx = s.rx := rfl
@[simp] theorem State.setBusy_params (b : Bool) (s : State) : (s.setBusy b).params = s.params := rfl
@[simp] theorem State.setBusy_trx (b : Bool) (s : State) : (s.setBusy b).trx = s.trx := rfl
@[simp] theorem State.setBusy_sched (b : Bool) (s : State) : (s.setBusy b).sched = s.sched := rfl
@[simp] theorem State.setBusy_calls (b : Bool) (s : State) : (s.setBusy b).calls = s.calls := rfl
@[simp] theorem State.setBusy_replies (b : Bool) (s : State) : (s.setBusy b).replies = s.replies := rfl
@[simp] theorem State.setBusy_free (b : Bool) (s : State) : (s.setBusy b).free = s.free := rfl

@[simp] theorem State.setTsValid_tsu (b : Bool) (s : State) : (s.setTsValid b).tsu = s.tsu := rfl
@[simp] theorem State.setTsValid_rmu (b : Bool) (s : State) : (s.setTsValid b).rmu = s.rmu := rfl
@[simp] theorem State.setTsValid_ses (b : Bool) (s : State) : (s.setTsValid b).ses = s.ses := rfl
@[simp] theorem State.setTsValid_tx (b : Bool) (s : State) : (s.setTsValid b).tx = s.tx := rfl
@[simp] theorem State.setTsValid_rx (b : Bool) (s : State) : (s.setTsValid b).rx = s.rx := rfl
@[simp] theorem State.setTsValid_params (b : Bool) (s : State) : (s.setTsValid b).params = s.params := rfl
@[simp] theorem State.setTsValid_trx (b : Bool) (s : State) : (s.setTsValid b).trx = s.trx := rfl
@[simp] theorem State.setTsValid_sched (b : Bool) (s : State) : (s.setTsValid b).sched = s.sched := rfl
@[simp] theorem State.setTsValid_calls (b : Bool) (s : State) : (s.setTsValid b).calls = s.calls := rfl
@[simp] theorem State.setTsValid_replies (b : Bool) (s : State) : (s.setTsValid b).replies = s.replies := rfl
@[simp] theorem State.setTsValid_free (b : Bool) (s : State) : (s.setTsValid b).free = s.free := rfl

@[simp] theorem State.setRawInvalid_tsu (b : Bool) (s : State) : (s.setRawInvalid b).tsu = s.tsu := rfl
@[simp] theorem State.setRawInvalid_rmu (b : Bool) (s : State) : (s.setRawInvalid b).rmu = s.rmu := rfl
@[simp] theorem State.setRawInvalid_ses (b : Bool) (s : State) : (s.setRawInvalid b).ses = s.ses := rfl
@[simp] theorem State.setRawInvalid_tx (b : Bool) (s : State) : (s.setRawInvalid b).tx = s.tx := rfl
@[simp] theorem State.setRawInvalid_rx (b : Bool) (s : State) : (s.setRawInvalid b).rx = s.rx := rfl
@[simp] theorem State.setRawInvalid_params (b : Bool) (s : State) : (s.setRawInvalid b).params = s.params := rfl
@[simp] theorem State.setRawInvalid_trx (b : Bool) (s : State) : (s.setRawInvalid b).trx = s.trx := rfl
@[simp] theorem State.setRawInvalid_sched (b : Bool) (s : State) : (s.setRawInvalid b).sched = s.sched := rfl
@[simp] theorem State.setRawInvalid_calls (b : Bool) (s : State) : (s.setRawInvalid b).calls = s.calls := rfl
@[simp] theorem State.setRawInvalid_replies (b : Bool) (s : State) : (s.setRawInvalid b).replies = s.replies := rfl
@[simp] theorem State.setRawInvalid_free (b : Bool) (s : State) : (s.setRawInvalid b).free = s.free := rfl

@[simp] theorem State.raiseTsOvf_tsu (s : State) : (s.raiseTsOvf).tsu = s.tsu := rfl
@[simp] theorem State.raiseTsOvf_rmu (s : State) : (s.raiseTsOvf).rmu = s.rmu := rfl
@[simp] theorem State.raiseTsOvf_ses (s : State) : (s.raiseTsOvf).ses = s.ses := rfl
@[simp] theorem State.raiseTsOvf_tx (s : State) : (s.raiseTsOvf).tx = s.tx := rfl
@[simp] theorem State.raiseTsOvf_rx (s : State) : (s.raiseTsOvf).rx = s.rx := rfl
@[simp] theorem State.raiseTsOvf_params (s : State) : (s.raiseTsOvf).params = s.params := rfl
@[simp] theorem State.raiseTsOvf_trx (s : State) : (s.raiseTsOvf).trx = s.trx := rfl
@[simp] theorem State.raiseTsOvf_sched (s : State) : (s.raiseTsOvf).sched = s.sched := rfl
@[simp] theorem State.raiseTsOvf_calls (s : State) : (s.raiseTsOvf).calls = s.calls := rfl
@[simp] theorem State.raiseTsOvf_replies (s : State) : (s.raiseTsOvf).replies = s.replies := rfl
@[simp] theorem State.raiseTsOvf_free (s : State) : (s.raiseTsOvf).free = s.free := rfl

@[simp] theorem State.raiseTsDivz_tsu (s : State) : (s.raiseTsDivz).tsu = s.tsu := rfl
@[simp] theorem State.raiseTsDivz_rmu (s : State) : (s.raiseTsDivz).rmu = s.rmu := rfl
@[simp] theorem State.raiseTsDivz_ses (s : State) : (s.raiseTsDivz).ses = s.ses := rfl
@[simp] theorem State.raiseTsDivz_tx (s : State) : (s.raiseTsDivz).tx = s.tx := rfl
@[simp] theorem State.raiseTsDivz_rx (s : State) : (s.raiseTsDivz).rx = s.rx := rfl
@[simp] theorem State.raiseTsDivz_params (s : State) : (s.raiseTsDivz).params = s.params := rfl
@[simp] theorem State.raiseTsDivz_trx (s : State) : (s.raiseTsDivz).trx = s.trx := rfl
@[simp] theorem State.raiseTsDivz_sched (s : State) : (s.raiseTsDivz).sched = s.sched := rfl
@[simp] theorem State.raiseTsDivz_calls (s : State) : (s.raiseTsDivz).calls = s.calls := rfl
@[simp] theorem State.raiseTsDivz_replies (s : State) : (s.raiseTsDivz).replies = s.replies := rfl
@[simp] theorem State.raiseTsDivz_free (s : State) : (s.raiseTsDivz).free = s.free := rfl

@[simp] theorem State.raiseCmdErr_tsu (s : State) : (s.raiseCmdErr).tsu = s.tsu := rfl
@[simp] theorem State.raiseCmdErr_rmu (s : State) : (s.raiseCmdErr).rmu = s.rmu := rfl
@[simp] theorem State.raiseCmdErr_ses (s : State) : (s.raiseCmdErr).ses = s.ses := rfl
@[simp] theorem State.raiseCmdErr_tx (s : State) : (s.raiseCmdErr).tx = s.tx := rfl
@[simp] theorem State.raiseCmdErr_rx (s : State) : (s.raiseCmdErr).rx = s.rx := rfl
@[simp] theorem State.raiseCmdErr_params (s : State) : (s.raiseCmdErr).params = s.params := rfl
@[simp] theorem State.raiseCmdErr_trx (s : State) : (s.raiseCmdErr).trx = s.trx := rfl
@[simp] theorem State.raiseCmdErr_sched (s : State) : (s.raiseCmdErr).sched = s.sched := rfl
@[simp] theorem State.raiseCmdErr_calls (s : State) : (s.raiseCmdErr).calls = s.calls := rfl
@[simp] theorem State.raiseCmdErr_replies (s : State) : (s.raiseCmdErr).replies = s.replies := rfl
@[simp] theorem State.raiseCmdErr_free (s : State) : (s.raiseCmdErr).free = s.free := rfl

@[simp] theorem State.setDecOk_tsu (b : Bool) (s : State) : (s.setDecOk b).tsu = s.tsu := rfl
@[simp] theorem State.setDecOk_rmu (b : Bool) (s : State) : (s.setDecOk b).rmu = s.rmu := rfl
@[simp] theorem State.setDecOk_ses (b : Bool) (s : State) : (s.setDecOk b).ses = s.ses := rfl
@[simp] theorem State.setDecOk_tx (b : Bool) (s : State) : (s.setDecOk b).tx = s.tx := rfl
@[simp] theorem State.setDecOk_rx (b : Bool) (s : State) : (s.setDecOk b).rx = s.rx := rfl
@[simp] theorem State.setDecOk_params (b : Bool) (s : State) : (s.setDecOk b).params = s.params := rfl
@[simp] theorem State.setDecOk_trx (b : Bool) (s : State) : (s.setDecOk b).trx = s.trx := rfl
@[simp] theorem State.setDecOk_sched (b : Bool) (s : State) : (s.setDecOk b).sched = s.sched := rfl
@[simp] theorem State.setDecOk_calls (b : Bool) (s : State) : (s.setDecOk b).calls = s.calls := rfl
@[simp] theorem State.setDecOk_replies (b : Bool) (s : State) : (s.setDecOk b).replies = s.replies := rfl
@[simp] theorem State.setDecOk_free (b : Bool) (s : State) : (s.setDecOk b).free = s.free := rfl

@[simp] theorem State.goto_tsu (f : FsmState) (s : State) : (s.goto f).tsu = s.tsu := rfl
@[simp] theorem State.goto_rmu (f : FsmState) (s : State) : (s.goto f).rmu = s.rmu := rfl
@[simp] theorem State.goto_ses (f : FsmState) (s : State) : (s.goto f).ses = s.ses := rfl
@[simp] theorem State.goto_tx (f : FsmState) (s : State) : (s.goto f).tx = s.tx := rfl
@[simp] theorem State.goto_rx (f : FsmState) (s : State) : (s.goto f).rx = s.rx := rfl
@[simp] theorem State.goto_params (f : FsmState) (s : State) : (s.goto f).params = s.params := rfl
@[simp] theorem State.goto_trx (f : FsmState) (s : State) : (s.goto f).trx = s.trx := rfl
@[simp] theorem State.goto_sched (f : FsmState) (s : State) : (s.goto f).sched = s.sched := rfl
@[simp] theorem State.goto_calls (f : FsmState) (s : State) : (s.goto f).calls = s.calls := rfl
@[simp] theorem State.goto_replies (f : FsmState) (s : State) : (s.goto f).replies = s.replies := rfl
@[simp] theorem State.goto_free (f : FsmState) (s : State) : (s.goto f).free = s.free := rfl

@[simp] theorem State.reject_tsu (c : RejectCode) (s : State) : (s.reject c).tsu = s.tsu := rfl
@[simp] theorem State.reject_rmu (c : RejectCode) (s : State) : (s.reject c).rmu = s.rmu := rfl
@[simp] theorem State.reject_ses (c : RejectCode) (s : State) : (s.reject c).ses = s.ses := rfl
@[simp] theorem State.reject_tx (c : RejectCode) (s : State) : (s.reject c).tx = s.tx := rfl
@[simp] theorem State.reject_rx (c : RejectCode) (s : State) : (s.reject c).rx = s.rx := rfl
@[simp] theorem State.reject_params (c : RejectCode) (s : State) : (s.reject c).params = s.params := rfl
@[simp] theorem State.reject_trx (c : RejectCode) (s : State) : (s.reject c).trx = s.trx := rfl
@[simp] theorem State.reject_sched (c : RejectCode) (s : State) : (s.reject c).sched = s.sched := rfl
@[simp] theorem State.reject_calls (c : RejectCode) (s : State) : (s.reject c).calls = s.calls := rfl
@[simp] theorem State.reject_replies (c : RejectCode) (s : State) : (s.reject c).replies = s.replies := rfl
@[simp] theorem State.reject_free (c : RejectCode) (s : State) : (s.reject c).free = s.free := rfl

@[simp] theorem State.recordErr_tsu (c : ErrClass) (d : ErrDetail) (s : State) : (s.recordErr c d).tsu = s.tsu := rfl
@[simp] theorem State.recordErr_rmu (c : ErrClass) (d : ErrDetail) (s : State) : (s.recordErr c d).rmu = s.rmu := rfl
@[simp] theorem State.recordErr_ses (c : ErrClass) (d : ErrDetail) (s : State) : (s.recordErr c d).ses = s.ses := rfl
@[simp] theorem State.recordErr_tx (c : ErrClass) (d : ErrDetail) (s : State) : (s.recordErr c d).tx = s.tx := rfl
@[simp] theorem State.recordErr_rx (c : ErrClass) (d : ErrDetail) (s : State) : (s.recordErr c d).rx = s.rx := rfl
@[simp] theorem State.recordErr_params (c : ErrClass) (d : ErrDetail) (s : State) : (s.recordErr c d).params = s.params := rfl
@[simp] theorem State.recordErr_trx (c : ErrClass) (d : ErrDetail) (s : State) : (s.recordErr c d).trx = s.trx := rfl
@[simp] theorem State.recordErr_sched (c : ErrClass) (d : ErrDetail) (s : State) : (s.recordErr c d).sched = s.sched := rfl
@[simp] theorem State.recordErr_calls (c : ErrClass) (d : ErrDetail) (s : State) : (s.recordErr c d).calls = s.calls := rfl
@[simp] theorem State.recordErr_replies (c : ErrClass) (d : ErrDetail) (s : State) : (s.recordErr c d).replies = s.replies := rfl
@[simp] theorem State.recordErr_free (c : ErrClass) (d : ErrDetail) (s : State) : (s.recordErr c d).free = s.free := rfl

@[simp] theorem State.clearErr_tsu (s : State) : (s.clearErr).tsu = s.tsu := rfl
@[simp] theorem State.clearErr_rmu (s : State) : (s.clearErr).rmu = s.rmu := rfl
@[simp] theorem State.clearErr_ses (s : State) : (s.clearErr).ses = s.ses := rfl
@[simp] theorem State.clearErr_tx (s : State) : (s.clearErr).tx = s.tx := rfl
@[simp] theorem State.clearErr_rx (s : State) : (s.clearErr).rx = s.rx := rfl
@[simp] theorem State.clearErr_params (s : State) : (s.clearErr).params = s.params := rfl
@[simp] theorem State.clearErr_trx (s : State) : (s.clearErr).trx = s.trx := rfl
@[simp] theorem State.clearErr_sched (s : State) : (s.clearErr).sched = s.sched := rfl
@[simp] theorem State.clearErr_calls (s : State) : (s.clearErr).calls = s.calls := rfl
@[simp] theorem State.clearErr_replies (s : State) : (s.clearErr).replies = s.replies := rfl
@[simp] theorem State.clearErr_free (s : State) : (s.clearErr).free = s.free := rfl

@[simp] theorem State.setResult_ctl (v : BitVec 2) (s : State) : (s.setResult v).ctl = s.ctl := rfl
@[simp] theorem State.setResult_tsu (v : BitVec 2) (s : State) : (s.setResult v).tsu = s.tsu := rfl
@[simp] theorem State.setResult_rmu (v : BitVec 2) (s : State) : (s.setResult v).rmu = s.rmu := rfl
@[simp] theorem State.setResult_tx (v : BitVec 2) (s : State) : (s.setResult v).tx = s.tx := rfl
@[simp] theorem State.setResult_rx (v : BitVec 2) (s : State) : (s.setResult v).rx = s.rx := rfl
@[simp] theorem State.setResult_params (v : BitVec 2) (s : State) : (s.setResult v).params = s.params := rfl
@[simp] theorem State.setResult_trx (v : BitVec 2) (s : State) : (s.setResult v).trx = s.trx := rfl
@[simp] theorem State.setResult_sched (v : BitVec 2) (s : State) : (s.setResult v).sched = s.sched := rfl
@[simp] theorem State.setResult_calls (v : BitVec 2) (s : State) : (s.setResult v).calls = s.calls := rfl
@[simp] theorem State.setResult_replies (v : BitVec 2) (s : State) : (s.setResult v).replies = s.replies := rfl
@[simp] theorem State.setResult_free (v : BitVec 2) (s : State) : (s.setResult v).free = s.free := rfl

@[simp] theorem writeT_rmu (rd : Reg) (r : Int) (s : State) : (writeT rd r s).rmu = s.rmu := rfl
@[simp] theorem writeT_ses (rd : Reg) (r : Int) (s : State) : (writeT rd r s).ses = s.ses := rfl
@[simp] theorem writeT_tx (rd : Reg) (r : Int) (s : State) : (writeT rd r s).tx = s.tx := rfl
@[simp] theorem writeT_rx (rd : Reg) (r : Int) (s : State) : (writeT rd r s).rx = s.rx := rfl
@[simp] theorem writeT_params (rd : Reg) (r : Int) (s : State) : (writeT rd r s).params = s.params := rfl
@[simp] theorem writeT_trx (rd : Reg) (r : Int) (s : State) : (writeT rd r s).trx = s.trx := rfl
@[simp] theorem writeT_sched (rd : Reg) (r : Int) (s : State) : (writeT rd r s).sched = s.sched := rfl
@[simp] theorem writeT_calls (rd : Reg) (r : Int) (s : State) : (writeT rd r s).calls = s.calls := rfl
@[simp] theorem writeT_replies (rd : Reg) (r : Int) (s : State) : (writeT rd r s).replies = s.replies := rfl
@[simp] theorem writeT_free (rd : Reg) (r : Int) (s : State) : (writeT rd r s).free = s.free := rfl

@[simp] theorem writeConv_rmu (r : Int) (s : State) : (writeConv r s).rmu = s.rmu := rfl
@[simp] theorem writeConv_ses (r : Int) (s : State) : (writeConv r s).ses = s.ses := rfl
@[simp] theorem writeConv_tx (r : Int) (s : State) : (writeConv r s).tx = s.tx := rfl
@[simp] theorem writeConv_rx (r : Int) (s : State) : (writeConv r s).rx = s.rx := rfl
@[simp] theorem writeConv_params (r : Int) (s : State) : (writeConv r s).params = s.params := rfl
@[simp] theorem writeConv_trx (r : Int) (s : State) : (writeConv r s).trx = s.trx := rfl
@[simp] theorem writeConv_sched (r : Int) (s : State) : (writeConv r s).sched = s.sched := rfl
@[simp] theorem writeConv_calls (r : Int) (s : State) : (writeConv r s).calls = s.calls := rfl
@[simp] theorem writeConv_replies (r : Int) (s : State) : (writeConv r s).replies = s.replies := rfl
@[simp] theorem writeConv_free (r : Int) (s : State) : (writeConv r s).free = s.free := rfl

@[simp] theorem clearExchange_ctl (s : State) : (clearExchange s).ctl = s.ctl := rfl
@[simp] theorem clearExchange_rmu (s : State) : (clearExchange s).rmu = s.rmu := rfl
@[simp] theorem clearExchange_ses (s : State) : (clearExchange s).ses = s.ses := rfl
@[simp] theorem clearExchange_tx (s : State) : (clearExchange s).tx = s.tx := rfl
@[simp] theorem clearExchange_rx (s : State) : (clearExchange s).rx = s.rx := rfl
@[simp] theorem clearExchange_params (s : State) : (clearExchange s).params = s.params := rfl
@[simp] theorem clearExchange_trx (s : State) : (clearExchange s).trx = s.trx := rfl
@[simp] theorem clearExchange_sched (s : State) : (clearExchange s).sched = s.sched := rfl
@[simp] theorem clearExchange_calls (s : State) : (clearExchange s).calls = s.calls := rfl
@[simp] theorem clearExchange_replies (s : State) : (clearExchange s).replies = s.replies := rfl
@[simp] theorem clearExchange_free (s : State) : (clearExchange s).free = s.free := rfl

@[simp] theorem raiseErr_tsu (c : ErrClass) (d : ErrDetail) (s : State) : (raiseErr c d s).tsu = s.tsu := rfl
@[simp] theorem raiseErr_rmu (c : ErrClass) (d : ErrDetail) (s : State) : (raiseErr c d s).rmu = s.rmu := rfl
@[simp] theorem raiseErr_tx (c : ErrClass) (d : ErrDetail) (s : State) : (raiseErr c d s).tx = s.tx := rfl
@[simp] theorem raiseErr_rx (c : ErrClass) (d : ErrDetail) (s : State) : (raiseErr c d s).rx = s.rx := rfl
@[simp] theorem raiseErr_params (c : ErrClass) (d : ErrDetail) (s : State) : (raiseErr c d s).params = s.params := rfl
@[simp] theorem raiseErr_trx (c : ErrClass) (d : ErrDetail) (s : State) : (raiseErr c d s).trx = s.trx := rfl
@[simp] theorem raiseErr_sched (c : ErrClass) (d : ErrDetail) (s : State) : (raiseErr c d s).sched = s.sched := rfl
@[simp] theorem raiseErr_calls (c : ErrClass) (d : ErrDetail) (s : State) : (raiseErr c d s).calls = s.calls := rfl
@[simp] theorem raiseErr_replies (c : ErrClass) (d : ErrDetail) (s : State) : (raiseErr c d s).replies = s.replies := rfl
@[simp] theorem raiseErr_free (c : ErrClass) (d : ErrDetail) (s : State) : (raiseErr c d s).free = s.free := rfl

@[simp] theorem State.call_ctl (c : TrxCall) (s : State) : (s.call c).ctl = s.ctl := rfl
@[simp] theorem State.call_tsu (c : TrxCall) (s : State) : (s.call c).tsu = s.tsu := rfl
@[simp] theorem State.call_rmu (c : TrxCall) (s : State) : (s.call c).rmu = s.rmu := rfl
@[simp] theorem State.call_ses (c : TrxCall) (s : State) : (s.call c).ses = s.ses := rfl
@[simp] theorem State.call_tx (c : TrxCall) (s : State) : (s.call c).tx = s.tx := rfl
@[simp] theorem State.call_rx (c : TrxCall) (s : State) : (s.call c).rx = s.rx := rfl
@[simp] theorem State.call_params (c : TrxCall) (s : State) : (s.call c).params = s.params := rfl
@[simp] theorem State.call_trx (c : TrxCall) (s : State) : (s.call c).trx = s.trx := rfl
@[simp] theorem State.call_sched (c : TrxCall) (s : State) : (s.call c).sched = s.sched := rfl
@[simp] theorem State.call_replies (c : TrxCall) (s : State) : (s.call c).replies = s.replies := rfl
@[simp] theorem State.call_free (c : TrxCall) (s : State) : (s.call c).free = s.free := rfl

@[simp] theorem transmit_ctl (s : State) : (transmit s).ctl = s.ctl := rfl
@[simp] theorem transmit_tsu (s : State) : (transmit s).tsu = s.tsu := rfl
@[simp] theorem transmit_rmu (s : State) : (transmit s).rmu = s.rmu := rfl
@[simp] theorem transmit_ses (s : State) : (transmit s).ses = s.ses := rfl
@[simp] theorem transmit_tx (s : State) : (transmit s).tx = s.tx := rfl
@[simp] theorem transmit_rx (s : State) : (transmit s).rx = s.rx := rfl
@[simp] theorem transmit_params (s : State) : (transmit s).params = s.params := rfl
@[simp] theorem transmit_trx (s : State) : (transmit s).trx = s.trx := rfl
@[simp] theorem transmit_sched (s : State) : (transmit s).sched = s.sched := rfl
@[simp] theorem transmit_replies (s : State) : (transmit s).replies = s.replies := rfl
@[simp] theorem transmit_free (s : State) : (transmit s).free = s.free := rfl

@[simp] theorem transmitDelayed_ctl (fut : Raw40) (s : State) : (transmitDelayed fut s).ctl = s.ctl := rfl
@[simp] theorem transmitDelayed_tsu (fut : Raw40) (s : State) : (transmitDelayed fut s).tsu = s.tsu := rfl
@[simp] theorem transmitDelayed_rmu (fut : Raw40) (s : State) : (transmitDelayed fut s).rmu = s.rmu := rfl
@[simp] theorem transmitDelayed_ses (fut : Raw40) (s : State) : (transmitDelayed fut s).ses = s.ses := rfl
@[simp] theorem transmitDelayed_tx (fut : Raw40) (s : State) : (transmitDelayed fut s).tx = s.tx := rfl
@[simp] theorem transmitDelayed_rx (fut : Raw40) (s : State) : (transmitDelayed fut s).rx = s.rx := rfl
@[simp] theorem transmitDelayed_params (fut : Raw40) (s : State) : (transmitDelayed fut s).params = s.params := rfl
@[simp] theorem transmitDelayed_trx (fut : Raw40) (s : State) : (transmitDelayed fut s).trx = s.trx := rfl
@[simp] theorem transmitDelayed_sched (fut : Raw40) (s : State) : (transmitDelayed fut s).sched = s.sched := rfl
@[simp] theorem transmitDelayed_replies (fut : Raw40) (s : State) : (transmitDelayed fut s).replies = s.replies := rfl
@[simp] theorem transmitDelayed_free (fut : Raw40) (s : State) : (transmitDelayed fut s).free = s.free := rfl

@[simp] theorem setOwnShortAddress_ctl (a : BitVec 16) (s : State) : (setOwnShortAddress a s).ctl = s.ctl := rfl
@[simp] theorem setOwnShortAddress_tsu (a : BitVec 16) (s : State) : (setOwnShortAddress a s).tsu = s.tsu := rfl
@[simp] theorem setOwnShortAddress_rmu (a : BitVec 16) (s : State) : (setOwnShortAddress a s).rmu = s.rmu := rfl
@[simp] theorem setOwnShortAddress_ses (a : BitVec 16) (s : State) : (setOwnShortAddress a s).ses = s.ses := rfl
@[simp] theorem setOwnShortAddress_tx (a : BitVec 16) (s : State) : (setOwnShortAddress a s).tx = s.tx := rfl
@[simp] theorem setOwnShortAddress_rx (a : BitVec 16) (s : State) : (setOwnShortAddress a s).rx = s.rx := rfl
@[simp] theorem setOwnShortAddress_params (a : BitVec 16) (s : State) : (setOwnShortAddress a s).params = s.params := rfl
@[simp] theorem setOwnShortAddress_sched (a : BitVec 16) (s : State) : (setOwnShortAddress a s).sched = s.sched := rfl
@[simp] theorem setOwnShortAddress_replies (a : BitVec 16) (s : State) : (setOwnShortAddress a s).replies = s.replies := rfl
@[simp] theorem setOwnShortAddress_free (a : BitVec 16) (s : State) : (setOwnShortAddress a s).free = s.free := rfl

@[simp] theorem loadFrame_ctl (f : Frame) (s : State) : (loadFrame f s).ctl = s.ctl := rfl
@[simp] theorem loadFrame_tsu (f : Frame) (s : State) : (loadFrame f s).tsu = s.tsu := rfl
@[simp] theorem loadFrame_rmu (f : Frame) (s : State) : (loadFrame f s).rmu = s.rmu := rfl
@[simp] theorem loadFrame_ses (f : Frame) (s : State) : (loadFrame f s).ses = s.ses := rfl
@[simp] theorem loadFrame_tx (f : Frame) (s : State) : (loadFrame f s).tx = s.tx := rfl
@[simp] theorem loadFrame_params (f : Frame) (s : State) : (loadFrame f s).params = s.params := rfl
@[simp] theorem loadFrame_trx (f : Frame) (s : State) : (loadFrame f s).trx = s.trx := rfl
@[simp] theorem loadFrame_sched (f : Frame) (s : State) : (loadFrame f s).sched = s.sched := rfl
@[simp] theorem loadFrame_calls (f : Frame) (s : State) : (loadFrame f s).calls = s.calls := rfl
@[simp] theorem loadFrame_replies (f : Frame) (s : State) : (loadFrame f s).replies = s.replies := rfl
@[simp] theorem loadFrame_free (f : Frame) (s : State) : (loadFrame f s).free = s.free := rfl

@[simp] theorem encodeFrame_ctl (k : Kind) (s : State) : (encodeFrame k s).ctl = s.ctl := rfl
@[simp] theorem encodeFrame_tsu (k : Kind) (s : State) : (encodeFrame k s).tsu = s.tsu := rfl
@[simp] theorem encodeFrame_rmu (k : Kind) (s : State) : (encodeFrame k s).rmu = s.rmu := rfl
@[simp] theorem encodeFrame_ses (k : Kind) (s : State) : (encodeFrame k s).ses = s.ses := rfl
@[simp] theorem encodeFrame_rx (k : Kind) (s : State) : (encodeFrame k s).rx = s.rx := rfl
@[simp] theorem encodeFrame_params (k : Kind) (s : State) : (encodeFrame k s).params = s.params := rfl
@[simp] theorem encodeFrame_trx (k : Kind) (s : State) : (encodeFrame k s).trx = s.trx := rfl
@[simp] theorem encodeFrame_sched (k : Kind) (s : State) : (encodeFrame k s).sched = s.sched := rfl
@[simp] theorem encodeFrame_calls (k : Kind) (s : State) : (encodeFrame k s).calls = s.calls := rfl
@[simp] theorem encodeFrame_replies (k : Kind) (s : State) : (encodeFrame k s).replies = s.replies := rfl
@[simp] theorem encodeFrame_free (k : Kind) (s : State) : (encodeFrame k s).free = s.free := rfl

@[simp] theorem startListening_tsu (f : FsmState) (s : State) : (startListening f s).tsu = s.tsu := rfl
@[simp] theorem startListening_rmu (f : FsmState) (s : State) : (startListening f s).rmu = s.rmu := rfl
@[simp] theorem startListening_ses (f : FsmState) (s : State) : (startListening f s).ses = s.ses := rfl
@[simp] theorem startListening_tx (f : FsmState) (s : State) : (startListening f s).tx = s.tx := rfl
@[simp] theorem startListening_rx (f : FsmState) (s : State) : (startListening f s).rx = s.rx := rfl
@[simp] theorem startListening_params (f : FsmState) (s : State) : (startListening f s).params = s.params := rfl
@[simp] theorem startListening_trx (f : FsmState) (s : State) : (startListening f s).trx = s.trx := rfl
@[simp] theorem startListening_sched (f : FsmState) (s : State) : (startListening f s).sched = s.sched := rfl
@[simp] theorem startListening_replies (f : FsmState) (s : State) : (startListening f s).replies = s.replies := rfl
@[simp] theorem startListening_free (f : FsmState) (s : State) : (startListening f s).free = s.free := rfl

@[simp] theorem correctRange_ctl (s : State) : (correctRange s).ctl = s.ctl := rfl
@[simp] theorem correctRange_tsu (s : State) : (correctRange s).tsu = s.tsu := rfl
@[simp] theorem correctRange_ses (s : State) : (correctRange s).ses = s.ses := rfl
@[simp] theorem correctRange_tx (s : State) : (correctRange s).tx = s.tx := rfl
@[simp] theorem correctRange_rx (s : State) : (correctRange s).rx = s.rx := rfl
@[simp] theorem correctRange_params (s : State) : (correctRange s).params = s.params := rfl
@[simp] theorem correctRange_trx (s : State) : (correctRange s).trx = s.trx := rfl
@[simp] theorem correctRange_sched (s : State) : (correctRange s).sched = s.sched := rfl
@[simp] theorem correctRange_calls (s : State) : (correctRange s).calls = s.calls := rfl
@[simp] theorem correctRange_replies (s : State) : (correctRange s).replies = s.replies := rfl

@[simp] theorem State.reply_ctl (r : HostReply) (s : State) : (s.reply r).ctl = s.ctl := rfl
@[simp] theorem State.reply_tsu (r : HostReply) (s : State) : (s.reply r).tsu = s.tsu := rfl
@[simp] theorem State.reply_rmu (r : HostReply) (s : State) : (s.reply r).rmu = s.rmu := rfl
@[simp] theorem State.reply_ses (r : HostReply) (s : State) : (s.reply r).ses = s.ses := rfl
@[simp] theorem State.reply_tx (r : HostReply) (s : State) : (s.reply r).tx = s.tx := rfl
@[simp] theorem State.reply_rx (r : HostReply) (s : State) : (s.reply r).rx = s.rx := rfl
@[simp] theorem State.reply_params (r : HostReply) (s : State) : (s.reply r).params = s.params := rfl
@[simp] theorem State.reply_trx (r : HostReply) (s : State) : (s.reply r).trx = s.trx := rfl
@[simp] theorem State.reply_sched (r : HostReply) (s : State) : (s.reply r).sched = s.sched := rfl
@[simp] theorem State.reply_calls (r : HostReply) (s : State) : (s.reply r).calls = s.calls := rfl
@[simp] theorem State.reply_free (r : HostReply) (s : State) : (s.reply r).free = s.free := rfl

@[simp] theorem writeStatus_tsu (v : BitVec 128) (s : State) : (writeStatus v s).tsu = s.tsu := rfl
@[simp] theorem writeStatus_rmu (v : BitVec 128) (s : State) : (writeStatus v s).rmu = s.rmu := rfl
@[simp] theorem writeStatus_ses (v : BitVec 128) (s : State) : (writeStatus v s).ses = s.ses := rfl
@[simp] theorem writeStatus_tx (v : BitVec 128) (s : State) : (writeStatus v s).tx = s.tx := rfl
@[simp] theorem writeStatus_rx (v : BitVec 128) (s : State) : (writeStatus v s).rx = s.rx := rfl
@[simp] theorem writeStatus_params (v : BitVec 128) (s : State) : (writeStatus v s).params = s.params := rfl
@[simp] theorem writeStatus_trx (v : BitVec 128) (s : State) : (writeStatus v s).trx = s.trx := rfl
@[simp] theorem writeStatus_sched (v : BitVec 128) (s : State) : (writeStatus v s).sched = s.sched := rfl
@[simp] theorem writeStatus_calls (v : BitVec 128) (s : State) : (writeStatus v s).calls = s.calls := rfl
@[simp] theorem writeStatus_replies (v : BitVec 128) (s : State) : (writeStatus v s).replies = s.replies := rfl
@[simp] theorem writeStatus_free (v : BitVec 128) (s : State) : (writeStatus v s).free = s.free := rfl

@[simp] theorem resetEngine_params (s : State) : (resetEngine s).params = s.params := rfl
@[simp] theorem resetEngine_trx (s : State) : (resetEngine s).trx = s.trx := rfl
@[simp] theorem resetEngine_sched (s : State) : (resetEngine s).sched = s.sched := rfl
@[simp] theorem resetEngine_calls (s : State) : (resetEngine s).calls = s.calls := rfl
@[simp] theorem resetEngine_replies (s : State) : (resetEngine s).replies = s.replies := rfl
@[simp] theorem resetEngine_free (s : State) : (resetEngine s).free = s.free := rfl

@[simp] theorem State.withFetchWord_ctl (nbits w : Nat) (s : State) : (s.withFetchWord nbits w).ctl = s.ctl := rfl
@[simp] theorem State.withFetchWord_tsu (nbits w : Nat) (s : State) : (s.withFetchWord nbits w).tsu = s.tsu := rfl
@[simp] theorem State.withFetchWord_rmu (nbits w : Nat) (s : State) : (s.withFetchWord nbits w).rmu = s.rmu := rfl
@[simp] theorem State.withFetchWord_ses (nbits w : Nat) (s : State) : (s.withFetchWord nbits w).ses = s.ses := rfl
@[simp] theorem State.withFetchWord_tx (nbits w : Nat) (s : State) : (s.withFetchWord nbits w).tx = s.tx := rfl
@[simp] theorem State.withFetchWord_rx (nbits w : Nat) (s : State) : (s.withFetchWord nbits w).rx = s.rx := rfl
@[simp] theorem State.withFetchWord_params (nbits w : Nat) (s : State) : (s.withFetchWord nbits w).params = s.params := rfl
@[simp] theorem State.withFetchWord_trx (nbits w : Nat) (s : State) : (s.withFetchWord nbits w).trx = s.trx := rfl
@[simp] theorem State.withFetchWord_calls (nbits w : Nat) (s : State) : (s.withFetchWord nbits w).calls = s.calls := rfl
@[simp] theorem State.withFetchWord_replies (nbits w : Nat) (s : State) : (s.withFetchWord nbits w).replies = s.replies := rfl
@[simp] theorem State.withFetchWord_free (nbits w : Nat) (s : State) : (s.withFetchWord nbits w).free = s.free := rfl

@[simp] theorem State.setStatusBit_status (i : Nat) (b : Bool) (s : State) :
    (s.setStatusBit i b).ctl.status = setBit s.ctl.status i b := rfl
@[simp] theorem State.setBusy_status (b : Bool) (s : State) : (s.setBusy b).ctl.status = setBit s.ctl.status 0 b := rfl
@[simp] theorem State.setTsValid_status (b : Bool) (s : State) :
    (s.setTsValid b).ctl.status = setBit s.ctl.status 1 b := rfl
@[simp] theorem State.setRawInvalid_status (b : Bool) (s : State) :
    (s.setRawInvalid b).ctl.status = setBit s.ctl.status 2 b := rfl
@[simp] theorem State.raiseTsOvf_status (s : State) : s.raiseTsOvf.ctl.status = setBit s.ctl.status 3 true := rfl
@[simp] theorem State.raiseTsDivz_status (s : State) : s.raiseTsDivz.ctl.status = setBit s.ctl.status 4 true := rfl
@[simp] theorem State.raiseCmdErr_status (s : State) : s.raiseCmdErr.ctl.status = setBit s.ctl.status 5 true := rfl
@[simp] theorem State.setDecOk_status (b : Bool) (s : State) : (s.setDecOk b).ctl.status = setBit s.ctl.status 6 b := rfl

@[simp] theorem State.setStatusBit_fsm (i : Nat) (b : Bool) (s : State) : (s.setStatusBit i b).ctl.fsm = s.ctl.fsm := rfl
@[simp] theorem State.setStatusBit_ctrl (i : Nat) (b : Bool) (s : State) : (s.setStatusBit i b).ctl.ctrl = s.ctl.ctrl := rfl
@[simp] theorem State.setStatusBit_err (i : Nat) (b : Bool) (s : State) : (s.setStatusBit i b).ctl.err = s.ctl.err := rfl
@[simp] theorem State.setStatusBit_cmdErrCode (i : Nat) (b : Bool) (s : State) : (s.setStatusBit i b).ctl.cmdErrCode = s.ctl.cmdErrCode := rfl
@[simp] theorem State.setBusy_fsm (b : Bool) (s : State) : (s.setBusy b).ctl.fsm = s.ctl.fsm := rfl
@[simp] theorem State.setBusy_ctrl (b : Bool) (s : State) : (s.setBusy b).ctl.ctrl = s.ctl.ctrl := rfl
@[simp] theorem State.setBusy_err (b : Bool) (s : State) : (s.setBusy b).ctl.err = s.ctl.err := rfl
@[simp] theorem State.setBusy_cmdErrCode (b : Bool) (s : State) : (s.setBusy b).ctl.cmdErrCode = s.ctl.cmdErrCode := rfl
@[simp] theorem State.setTsValid_fsm (b : Bool) (s : State) : (s.setTsValid b).ctl.fsm = s.ctl.fsm := rfl
@[simp] theorem State.setTsValid_ctrl (b : Bool) (s : State) : (s.setTsValid b).ctl.ctrl = s.ctl.ctrl := rfl
@[simp] theorem State.setTsValid_err (b : Bool) (s : State) : (s.setTsValid b).ctl.err = s.ctl.err := rfl
@[simp] theorem State.setTsValid_cmdErrCode (b : Bool) (s : State) : (s.setTsValid b).ctl.cmdErrCode = s.ctl.cmdErrCode := rfl
@[simp] theorem State.setRawInvalid_fsm (b : Bool) (s : State) : (s.setRawInvalid b).ctl.fsm = s.ctl.fsm := rfl
@[simp] theorem State.setRawInvalid_ctrl (b : Bool) (s : State) : (s.setRawInvalid b).ctl.ctrl = s.ctl.ctrl := rfl
@[simp] theorem State.setRawInvalid_err (b : Bool) (s : State) : (s.setRawInvalid b).ctl.err = s.ctl.err := rfl
@[simp] theorem State.setRawInvalid_cmdErrCode (b : Bool) (s : State) : (s.setRawInvalid b).ctl.cmdErrCode = s.ctl.cmdErrCode := rfl
@[simp] theorem State.raiseTsOvf_fsm (s : State) : (s.raiseTsOvf).ctl.fsm = s.ctl.fsm := rfl
@[simp] theorem State.raiseTsOvf_ctrl (s : State) : (s.raiseTsOvf).ctl.ctrl = s.ctl.ctrl := rfl
@[simp] theorem State.raiseTsOvf_err (s : State) : (s.raiseTsOvf).ctl.err = s.ctl.err := rfl
@[simp] theorem State.raiseTsOvf_cmdErrCode (s : State) : (s.raiseTsOvf).ctl.cmdErrCode = s.ctl.cmdErrCode := rfl
@[simp] theorem State.raiseTsDivz_fsm (s : State) : (s.raiseTsDivz).ctl.fsm = s.ctl.fsm := rfl
@[simp] theorem State.raiseTsDivz_ctrl (s : State) : (s.raiseTsDivz).ctl.ctrl = s.ctl.ctrl := rfl
@[simp] theorem State.raiseTsDivz_err (s : State) : (s.raiseTsDivz).ctl.err = s.ctl.err := rfl
@[simp] theorem State.raiseTsDivz_cmdErrCode (s : State) : (s.raiseTsDivz).ctl.cmdErrCode = s.ctl.cmdErrCode := rfl
@[simp] theorem State.raiseCmdErr_fsm (s : State) : (s.raiseCmdErr).ctl.fsm = s.ctl.fsm := rfl
@[simp] theorem State.raiseCmdErr_ctrl (s : State) : (s.raiseCmdErr).ctl.ctrl = s.ctl.ctrl := rfl
@[simp] theorem State.raiseCmdErr_err (s : State) : (s.raiseCmdErr).ctl.err = s.ctl.err := rfl
@[simp] theorem State.raiseCmdErr_cmdErrCode (s : State) : (s.raiseCmdErr).ctl.cmdErrCode = s.ctl.cmdErrCode := rfl
@[simp] theorem State.setDecOk_fsm (b : Bool) (s : State) : (s.setDecOk b).ctl.fsm = s.ctl.fsm := rfl
@[simp] theorem State.setDecOk_ctrl (b : Bool) (s : State) : (s.setDecOk b).ctl.ctrl = s.ctl.ctrl := rfl
@[simp] theorem State.setDecOk_err (b : Bool) (s : State) : (s.setDecOk b).ctl.err = s.ctl.err := rfl
@[simp] theorem State.setDecOk_cmdErrCode (b : Bool) (s : State) : (s.setDecOk b).ctl.cmdErrCode = s.ctl.cmdErrCode := rfl
@[simp] theorem State.goto_status (f : FsmState) (s : State) : (s.goto f).ctl.status = s.ctl.status := rfl
@[simp] theorem State.goto_ctrl (f : FsmState) (s : State) : (s.goto f).ctl.ctrl = s.ctl.ctrl := rfl
@[simp] theorem State.goto_err (f : FsmState) (s : State) : (s.goto f).ctl.err = s.ctl.err := rfl
@[simp] theorem State.goto_cmdErrCode (f : FsmState) (s : State) : (s.goto f).ctl.cmdErrCode = s.ctl.cmdErrCode := rfl
@[simp] theorem State.reject_fsm (c : RejectCode) (s : State) : (s.reject c).ctl.fsm = s.ctl.fsm := rfl
@[simp] theorem State.reject_ctrl (c : RejectCode) (s : State) : (s.reject c).ctl.ctrl = s.ctl.ctrl := rfl
@[simp] theorem State.reject_err (c : RejectCode) (s : State) : (s.reject c).ctl.err = s.ctl.err := rfl
@[simp] theorem State.recordErr_fsm (c : ErrClass) (d : ErrDetail) (s : State) : (s.recordErr c d).ctl.fsm = s.ctl.fsm := rfl
@[simp] theorem State.recordErr_status (c : ErrClass) (d : ErrDetail) (s : State) : (s.recordErr c d).ctl.status = s.ctl.status := rfl
@[simp] theorem State.recordErr_ctrl (c : ErrClass) (d : ErrDetail) (s : State) : (s.recordErr c d).ctl.ctrl = s.ctl.ctrl := rfl
@[simp] theorem State.recordErr_cmdErrCode (c : ErrClass) (d : ErrDetail) (s : State) : (s.recordErr c d).ctl.cmdErrCode = s.ctl.cmdErrCode := rfl
@[simp] theorem State.clearErr_fsm (s : State) : (s.clearErr).ctl.fsm = s.ctl.fsm := rfl
@[simp] theorem State.clearErr_status (s : State) : (s.clearErr).ctl.status = s.ctl.status := rfl
@[simp] theorem State.clearErr_ctrl (s : State) : (s.clearErr).ctl.ctrl = s.ctl.ctrl := rfl
@[simp] theorem State.clearErr_cmdErrCode (s : State) : (s.clearErr).ctl.cmdErrCode = s.ctl.cmdErrCode := rfl
@[simp] theorem raiseErr_ctrl (c : ErrClass) (d : ErrDetail) (s : State) : (raiseErr c d s).ctl.ctrl = s.ctl.ctrl := rfl
@[simp] theorem raiseErr_cmdErrCode (c : ErrClass) (d : ErrDetail) (s : State) : (raiseErr c d s).ctl.cmdErrCode = s.ctl.cmdErrCode := rfl
@[simp] theorem startListening_status (f : FsmState) (s : State) : (startListening f s).ctl.status = s.ctl.status := rfl
@[simp] theorem startListening_ctrl (f : FsmState) (s : State) : (startListening f s).ctl.ctrl = s.ctl.ctrl := rfl
@[simp] theorem startListening_err (f : FsmState) (s : State) : (startListening f s).ctl.err = s.ctl.err := rfl
@[simp] theorem startListening_cmdErrCode (f : FsmState) (s : State) : (startListening f s).ctl.cmdErrCode = s.ctl.cmdErrCode := rfl
@[simp] theorem writeStatus_fsm (v : BitVec 128) (s : State) : (writeStatus v s).ctl.fsm = s.ctl.fsm := rfl
@[simp] theorem writeStatus_ctrl (v : BitVec 128) (s : State) : (writeStatus v s).ctl.ctrl = s.ctl.ctrl := rfl
@[simp] theorem writeStatus_err (v : BitVec 128) (s : State) : (writeStatus v s).ctl.err = s.ctl.err := rfl
@[simp] theorem writeStatus_cmdErrCode (v : BitVec 128) (s : State) : (writeStatus v s).ctl.cmdErrCode = s.ctl.cmdErrCode := rfl

@[simp] theorem State.goto_fsm (f : FsmState) (s : State) : (s.goto f).ctl.fsm = f := rfl
@[simp] theorem State.reject_cmdErrCode (c : RejectCode) (s : State) : (s.reject c).ctl.cmdErrCode = c := rfl
@[simp] theorem State.reject_status (c : RejectCode) (s : State) :
    (s.reject c).ctl.status = setBit s.ctl.status 5 true := rfl
@[simp] theorem State.recordErr_err (c : ErrClass) (d : ErrDetail) (s : State) :
    (s.recordErr c d).ctl.err = ⟨c, d, s.ctl.fsm⟩ := rfl
@[simp] theorem State.clearErr_err (s : State) : s.clearErr.ctl.err = ⟨.none, .none, .idle⟩ := rfl
@[simp] theorem raiseErr_err (c : ErrClass) (d : ErrDetail) (s : State) :
    (raiseErr c d s).ctl.err = ⟨c, d, s.ctl.fsm⟩ := rfl
@[simp] theorem raiseErr_fsm (c : ErrClass) (d : ErrDetail) (s : State) : (raiseErr c d s).ctl.fsm = .failed := rfl
@[simp] theorem raiseErr_status (c : ErrClass) (d : ErrDetail) (s : State) :
    (raiseErr c d s).ctl.status = setBit s.ctl.status 0 false := rfl
@[simp] theorem State.setResult_result (v : BitVec 2) (s : State) : (s.setResult v).ses.result = v := rfl
@[simp] theorem startListening_fsm (f : FsmState) (s : State) : (startListening f s).ctl.fsm = f := rfl
@[simp] theorem State.call_calls (c : TrxCall) (s : State) : (s.call c).calls = s.calls ++ [c] := rfl
@[simp] theorem State.reply_replies (r : HostReply) (s : State) : (s.reply r).replies = s.replies ++ [r] := rfl
@[simp] theorem startListening_calls (f : FsmState) (s : State) : (startListening f s).calls = s.calls ++ [.startReceive] := rfl
@[simp] theorem transmit_calls (s : State) : (transmit s).calls = s.calls ++ [.transmit s.txFrame] := rfl
@[simp] theorem transmitDelayed_calls (fut : Raw40) (s : State) :
    (transmitDelayed fut s).calls = s.calls ++ [.transmitDelayed s.txFrame fut] := rfl
@[simp] theorem setOwnShortAddress_shortAddr (a : BitVec 16) (s : State) :
    (setOwnShortAddress a s).trx.shortAddr = a := rfl
@[simp] theorem writeT_tregs (rd : Reg) (r : Int) (s : State) :
    (writeT rd r s).tsu.tregs = s.tsu.tregs.set rd (toTs (sat r)) := rfl
@[simp] theorem writeT_exchMask (rd : Reg) (r : Int) (s : State) :
    (writeT rd r s).tsu.exchMask = markExch rd s.tsu.exchMask := rfl
@[simp] theorem writeConv_conv (r : Int) (s : State) : (writeConv r s).tsu.conv = toTs (sat r) := rfl
@[simp] theorem clearExchange_exchMask (s : State) : (clearExchange s).tsu.exchMask = 0 := rfl

end Sys2Proof.Machine
end

