-- ==== Sys2Proof/Laws/Flags.lean ====
section
/-! SUPPORT. What setting one bit does, and `STATUS.BUSY` after each shared operation. -/

namespace Sys2Proof.Machine

/-- Setting bit `i` leaves every other bit and makes that one `b`. -/
@[simp] theorem getLsbD_setBit {n : Nat} (v : BitVec n) (i j : Nat) (b : Bool) :
    (setBit v i b).getLsbD j = if i = j ∧ j < n then b else v.getLsbD j := by
  unfold setBit
  by_cases hj : j < n
  · by_cases hij : i = j
    · subst hij; cases b <;> simp [hj]
    · have hji : ¬ j = i := fun h => hij h.symm
      cases b <;> simp [hj, hij, hji]
  · have hn : ¬ (i = j ∧ j < n) := fun h => hj h.2
    rw [if_neg hn, BitVec.getLsbD_of_ge _ _ (by omega), BitVec.getLsbD_of_ge _ _ (by omega)]

@[simp] theorem getElem_setBit {n : Nat} (v : BitVec n) (i j : Nat) (b : Bool) (hj : j < n) :
    (setBit v i b)[j] = if i = j then b else v[j] := by
  have h := getLsbD_setBit v i j b
  simpa [hj, BitVec.getLsbD_eq_getElem] using h

/-- The exchange mask after a write of `T[rd]`, bit by bit (R25). -/
theorem getLsbD_markExch (rd : Reg) (m : BitVec 6) (i : Nat) (hi : i < 6) :
    (markExch rd m).getLsbD i = (decide (rd.val = 8 + i) || m.getLsbD i) := by
  unfold markExch
  split
  · rw [getLsbD_setBit]
    by_cases h : rd.val = 8 + i
    · simp [h, hi]
    · have : ¬ (rd.val - 8 = i) := by omega
      simp [this, h]
  · have : ¬ rd.val = 8 + i := by omega
    simp [this]

@[simp] theorem State.busy_setStatusBit (i : Nat) (b : Bool) (s : State) :
    (s.setStatusBit i b).busy = if i = 0 then b else s.busy := by
  simp [State.busy]

@[simp] theorem State.busy_setBusy (b : Bool) (s : State) : (s.setBusy b).busy = b := by
  simp [State.busy]

@[simp] theorem State.busy_setTsValid (b : Bool) (s : State) : (s.setTsValid b).busy = s.busy := by
  simp [State.busy]

@[simp] theorem State.busy_setRawInvalid (b : Bool) (s : State) : (s.setRawInvalid b).busy = s.busy := by
  simp [State.busy]

@[simp] theorem State.busy_raiseTsOvf (s : State) : s.raiseTsOvf.busy = s.busy := by
  simp [State.busy]

@[simp] theorem State.busy_raiseTsDivz (s : State) : s.raiseTsDivz.busy = s.busy := by
  simp [State.busy]

@[simp] theorem State.busy_setDecOk (b : Bool) (s : State) : (s.setDecOk b).busy = s.busy := by
  simp [State.busy]

@[simp] theorem State.busy_reject (c : RejectCode) (s : State) : (s.reject c).busy = s.busy := by
  simp [State.busy]

@[simp] theorem State.busy_goto (f : FsmState) (s : State) : (s.goto f).busy = s.busy := rfl

@[simp] theorem State.busy_recordErr (c : ErrClass) (d : ErrDetail) (s : State) :
    (s.recordErr c d).busy = s.busy := rfl

@[simp] theorem State.busy_clearErr (s : State) : s.clearErr.busy = s.busy := rfl

@[simp] theorem State.busy_setResult (v : BitVec 2) (s : State) : (s.setResult v).busy = s.busy := rfl

@[simp] theorem State.busy_call (c : TrxCall) (s : State) : (s.call c).busy = s.busy := rfl

@[simp] theorem busy_startListening (f : FsmState) (s : State) : (startListening f s).busy = s.busy := rfl

@[simp] theorem busy_raiseErr (c : ErrClass) (d : ErrDetail) (s : State) : (raiseErr c d s).busy = false := by
  simp [State.busy]

@[simp] theorem busy_clearExchange (s : State) : (clearExchange s).busy = s.busy := rfl

@[simp] theorem busy_loadFrame (f : Frame) (s : State) : (loadFrame f s).busy = s.busy := rfl

@[simp] theorem busy_encodeFrame (k : Kind) (s : State) : (encodeFrame k s).busy = s.busy := rfl

@[simp] theorem busy_transmit (s : State) : (transmit s).busy = s.busy := rfl

@[simp] theorem busy_transmitDelayed (fut : Raw40) (s : State) : (transmitDelayed fut s).busy = s.busy := rfl

@[simp] theorem busy_setOwnShortAddress (a : BitVec 16) (s : State) : (setOwnShortAddress a s).busy = s.busy := rfl

/-- An overflow is noted in `TS_OVF` and nowhere else (R121). -/
theorem noteOverflow_status (r : Int) (s : State) :
    (noteOverflow r s).status = if fitsTs r then s.ctl.status else setBit s.ctl.status 3 true := by
  unfold noteOverflow; split <;> rfl

@[simp] theorem noteOverflow_fsm (r : Int) (s : State) : (noteOverflow r s).fsm = s.ctl.fsm := by
  unfold noteOverflow; split <;> rfl

@[simp] theorem noteOverflow_ctrl (r : Int) (s : State) : (noteOverflow r s).ctrl = s.ctl.ctrl := by
  unfold noteOverflow; split <;> rfl

@[simp] theorem noteOverflow_err (r : Int) (s : State) : (noteOverflow r s).err = s.ctl.err := by
  unfold noteOverflow; split <;> rfl

@[simp] theorem noteOverflow_cmdErrCode (r : Int) (s : State) :
    (noteOverflow r s).cmdErrCode = s.ctl.cmdErrCode := by
  unfold noteOverflow; split <;> rfl

@[simp] theorem busy_writeT (rd : Reg) (r : Int) (s : State) : (writeT rd r s).busy = s.busy := by
  simp only [State.busy, writeT, noteOverflow_status]; split <;> simp

@[simp] theorem busy_writeConv (r : Int) (s : State) : (writeConv r s).busy = s.busy := by
  simp only [State.busy, writeConv, noteOverflow_status]; split <;> simp

@[simp] theorem fsm_writeT (rd : Reg) (r : Int) (s : State) : (writeT rd r s).ctl.fsm = s.ctl.fsm := by
  simp [writeT]

@[simp] theorem busy_writeStatus (v : BitVec 128) (s : State) : (writeStatus v s).busy = s.busy := by
  simp [State.busy, writeStatus, clearSticky]

end Sys2Proof.Machine
end

