-- ==== Sys2Proof/Laws/Arith.lean ====
section
/-! SUPPORT. The exact arithmetic and the timestamp file: saturation, what a register holds after a write, what
`writeT`, `writeConv` and `clearExchange` do as a whole. -/

namespace Sys2Proof.Machine

theorem minTs_eq : minTs = -2 ^ 127 := by norm_num [minTs]
theorem maxTs_eq : maxTs = 2 ^ 127 - 1 := by norm_num [maxTs]
theorem fitsTs_iff (r : Int) : fitsTs r = true ↔ -2 ^ 127 ≤ r ∧ r < 2 ^ 127 := by
  have h1 := minTs_eq
  have h2 := maxTs_eq
  unfold fitsTs
  rw [Bool.and_eq_true, decide_eq_true_eq, decide_eq_true_eq]
  constructor <;> intro ⟨a, b⟩ <;> constructor <;> omega
theorem sat_eq (r : Int) : sat r = if 2 ^ 127 ≤ r then 2 ^ 127 - 1 else if r < -2 ^ 127 then -2 ^ 127 else r := by
  have h1 := minTs_eq
  have h2 := maxTs_eq
  unfold sat
  split_ifs <;> omega
theorem fitsTs_eq_not_outOfRange (r : Int) : fitsTs r = !outOfRange r := by
  rw [Bool.eq_iff_iff, fitsTs_iff, outOfRange, Bool.not_eq_true', Bool.or_eq_false_iff, decide_eq_false_iff_not,
    decide_eq_false_iff_not]
  omega
theorem sat_of_fits {r : Int} (h : fitsTs r = true) : sat r = r := by
  rw [fitsTs_iff] at h
  rw [sat_eq]
  split_ifs <;> omega
theorem sat_fits (r : Int) : -2 ^ 127 ≤ sat r ∧ sat r < 2 ^ 127 := by
  rw [sat_eq]
  split_ifs <;> omega
theorem saturatesTo_sat (r : Int) : SaturatesTo r (sat r) := by
  rw [sat_eq]
  refine ⟨fun h => ?_, fun h => ?_, fun h h' => ?_⟩ <;> split_ifs <;> omega
theorem toInt_toTs {r : Int} (h : -2 ^ 127 ≤ r) (h' : r < 2 ^ 127) : (toTs r).toInt = r := by
  rw [toTs, BitVec.toInt_ofInt]
  exact Int.bmod_eq_of_le (by omega) (by omega)

@[simp] theorem toInt_toTs_sat (r : Int) : (toTs (sat r)).toInt = sat r :=
  toInt_toTs (sat_fits r).1 (sat_fits r).2

/-- Every register value lies in `[MIN_TS, MAX_TS]` (R21). -/
theorem readT_bounds (i : Reg) (s : State) : -2 ^ 127 ≤ readT i s ∧ readT i s < 2 ^ 127 := by
  have h1 := BitVec.le_toInt (s.tsu.tregs[i])
  have h2 := BitVec.toInt_lt (x := s.tsu.tregs[i])
  simp only [readT]
  omega

/-- `T[i]` after `writeT(rd, r)` (R121). -/
theorem readT_writeT (i rd : Reg) (r : Int) (s : State) :
    readT i (writeT rd r s) = if i = rd then sat r else readT i s := by
  simp only [readT, writeT_tregs, Fin.getElem_fin, Vector.getElem_set]
  by_cases h : i = rd
  · subst h; simp
  · have : ¬ rd.val = i.val := fun h' => h (Fin.ext h'.symm)
    simp [h, this]

@[simp] theorem readT_writeT_same (rd : Reg) (r : Int) (s : State) : readT rd (writeT rd r s) = sat r := by
  simp [readT_writeT]

theorem readT_writeT_other {i rd : Reg} (h : i ≠ rd) (r : Int) (s : State) :
    readT i (writeT rd r s) = readT i s := by
  simp [readT_writeT, h]

/-- `T[i]` after `T[8..13] <- 0` (R25). -/
theorem readT_clearExchange (i : Reg) (s : State) :
    readT i (clearExchange s) = if 8 ≤ i.val ∧ i.val ≤ 13 then 0 else readT i s := by
  simp only [readT, clearExchange, Fin.getElem_fin, Vector.getElem_set]
  obtain ⟨n, hn⟩ := i
  interval_cases n <;> simp

theorem status_writeT (rd : Reg) (r : Int) (s : State) :
    (writeT rd r s).ctl.status = if fitsTs r then s.ctl.status else setBit s.ctl.status 3 true :=
  noteOverflow_status r s

theorem status_writeConv (r : Int) (s : State) :
    (writeConv r s).ctl.status = if fitsTs r then s.ctl.status else setBit s.ctl.status 3 true :=
  noteOverflow_status r s

/-- `TS_OVF` after a write (R121): sticky, and set by a result that does not fit. -/
theorem tsOvf_writeT (rd : Reg) (r : Int) (s : State) : (writeT rd r s).tsOvf = (s.tsOvf || outOfRange r) := by
  simp only [State.tsOvf, status_writeT, fitsTs_eq_not_outOfRange]
  cases outOfRange r <;> simp

theorem tsOvf_writeConv (r : Int) (s : State) : (writeConv r s).tsOvf = (s.tsOvf || outOfRange r) := by
  simp only [State.tsOvf, status_writeConv, fitsTs_eq_not_outOfRange]
  cases outOfRange r <;> simp

theorem statusKept_writeT (rd : Reg) (r : Int) (s : State) : StatusKept [3] s (writeT rd r s) := by
  intro i hi
  have h3 : ¬ 3 = i.val := fun h => hi (by simp [h])
  rw [status_writeT]
  split
  · rfl
  · simp [h3]

theorem statusKept_writeConv (r : Int) (s : State) : StatusKept [3] s (writeConv r s) := by
  intro i hi
  have h3 : ¬ 3 = i.val := fun h => hi (by simp [h])
  rw [status_writeConv]
  split
  · rfl
  · simp [h3]

/-- All that `writeT` does, `STATUS` apart (R121). -/
theorem writeT_writes (rd : Reg) (r : Int) (s : State) : WritesTimestamp rd r s (writeT rd r s) where
  value := by rw [readT_writeT_same]; exact saturatesTo_sat r
  others := fun i hi => readT_writeT_other (by simpa using hi) r s
  mask := fun i => getLsbD_markExch rd _ i.val i.isLt
  rawin := rfl
  rawout := rfl
  scalar := rfl
  conv := rfl
  control := ⟨by simp, by simp [writeT], by simp [writeT], by simp [writeT]⟩
  units := ⟨rfl, rfl, rfl, rfl, fun _ _ => rfl, rfl⟩
  surroundings := ⟨rfl, rfl, rfl, rfl, rfl⟩

theorem wrap_eq_wrappedDiff (a b : Int) : wrap (a - b) = wrappedDiff a b := by
  simp only [wrap, wrappedDiff, tsMod]; split <;> omega

theorem isValid_iff (v : Int) : isValid v = true ↔ ValidTs v := by
  have h : tsMod = 2 ^ 40 := by norm_num [tsMod]
  rw [isValid, ValidTs, Bool.and_eq_true, decide_eq_true_eq, decide_eq_true_eq, h]

end Sys2Proof.Machine
end

