-- ==== Sys2Proof/Laws/Exec.lean ====
section
/-! SUPPORT. The acceptance of a command: what a busy machine answers, and for each command the one state a machine that
is not busy goes to. -/

namespace Sys2Proof.Machine

theorem unlessBusy_ready {s : State} (h : s.busy = false) (f : State → State) : unlessBusy f s = .next (f s) := by
  simp [unlessBusy, h]

theorem unlessBusy_busy {s : State} (h : s.busy = true) (f : State → State) :
    unlessBusy f s = .next (s.reject .busy) := by
  simp [unlessBusy, h]

theorem startSession_ready {s : State} (h : s.busy = false) (hf : s.ctl.fsm = .idle) (f : State → State) :
    startSession f s = .next (f s) := by
  simp [startSession, unlessBusy, h, hf]

theorem startSession_badState {s : State} (h : s.busy = false) (hf : s.ctl.fsm ≠ .idle) (f : State → State) :
    startSession f s = .next (s.reject .badState) := by
  simp [startSession, unlessBusy, h, hf]

theorem startSession_busy {s : State} (h : s.busy = true) (f : State → State) :
    startSession f s = .next (s.reject .busy) := by
  simp [startSession, unlessBusy, h]

/-- Test 1 of R95: a busy machine rejects every command. -/
theorem exec_busy {s : State} (h : s.busy = true) (i : Instr) : exec i s = .next (s.reject .busy) := by
  cases i <;>
    simp only [exec, execTsFromraw, execTsToraw, execTsAdd, execTsSub, execTsMuls, execTsDivs, execTsMult, execTsDivt,
      execTsWrap, execTsValid, execTsTous, execTsTom, execRngCompute, execRngCorrect, execFcEnc, execFcDec, execSesTag,
      execSesAnchor, execSesAdmit, execSesClear, unlessBusy_busy h, startSession_busy h]

/-! The state each command goes to when the machine is not busy. -/

section
variable {s : State} (h : s.busy = false)
include h

theorem exec_tsFromraw (rd : Reg) : exec (.tsFromraw rd) s = .next (writeT rd (rawinValue s) s) := by
  simp only [exec, execTsFromraw, unlessBusy_ready h]

theorem exec_tsToraw (ra : Reg) :
    exec (.tsToraw ra) s =
      .next { s.setRawInvalid (!isValid (readT ra s)) with
        tsu := { s.tsu with rawout := (s.tsu.tregs[ra]).setWidth 40 } } := by
  simp only [exec, execTsToraw, unlessBusy_ready h, State.setRawInvalid_tsu]

theorem exec_tsAdd (rd ra rb : Reg) : exec (.tsAdd rd ra rb) s = .next (writeT rd (readT ra s + readT rb s) s) := by
  simp only [exec, execTsAdd, unlessBusy_ready h]

theorem exec_tsSub (rd ra rb : Reg) : exec (.tsSub rd ra rb) s = .next (writeT rd (readT ra s - readT rb s) s) := by
  simp only [exec, execTsSub, unlessBusy_ready h]

theorem exec_tsMuls (rd ra : Reg) : exec (.tsMuls rd ra) s = .next (writeT rd (readT ra s * scalarValue s) s) := by
  simp only [exec, execTsMuls, unlessBusy_ready h]

theorem exec_tsDivs (rd ra : Reg) : exec (.tsDivs rd ra) s = .next (writeQuotient rd (readT ra s) (scalarValue s) s) := by
  simp only [exec, execTsDivs, unlessBusy_ready h]

theorem exec_tsMult (rd ra rb : Reg) : exec (.tsMult rd ra rb) s = .next (writeT rd (readT ra s * readT rb s) s) := by
  simp only [exec, execTsMult, unlessBusy_ready h]

theorem exec_tsDivt (rd ra rb : Reg) :
    exec (.tsDivt rd ra rb) s = .next (writeQuotient rd (readT ra s) (readT rb s) s) := by
  simp only [exec, execTsDivt, unlessBusy_ready h]

theorem exec_tsWrap (rd ra : Reg) : exec (.tsWrap rd ra) s = .next (writeT rd (wrap (readT ra s)) s) := by
  simp only [exec, execTsWrap, unlessBusy_ready h]

theorem exec_tsValid (ra : Reg) : exec (.tsValid ra) s = .next (s.setTsValid (isValid (readT ra s))) := by
  simp only [exec, execTsValid, unlessBusy_ready h]

theorem exec_tsTous (ra : Reg) : exec (.tsTous ra) s = .next (writeConv (readT ra s * kUs) s) := by
  simp only [exec, execTsTous, unlessBusy_ready h]

theorem exec_tsTom (ra : Reg) : exec (.tsTom ra) s = .next (writeConv (readT ra s * kM) s) := by
  simp only [exec, execTsTom, unlessBusy_ready h]

theorem exec_rngCompute : exec .rngCompute s = .next (computeRange s) := by
  simp only [exec, execRngCompute, unlessBusy_ready h]

theorem exec_rngCorrect : exec .rngCorrect s = .next (correctRange s) := by
  simp only [exec, execRngCorrect, unlessBusy_ready h]

theorem exec_fcEnc (k : Kind) : exec (.fcEnc (kindNumber k)) s = .next (encodeFrame k s) := by
  cases k <;> simp only [exec, execFcEnc, unlessBusy_ready h, kindNumber] <;> rfl

theorem exec_fcDec (k : Kind) : exec (.fcDec (kindNumber k)) s = .next (decodeCommand k s) := by
  cases k <;> simp only [exec, execFcDec, unlessBusy_ready h, kindNumber] <;> rfl

theorem exec_sesTag (hf : s.ctl.fsm = .idle) : exec .sesTag s = .next (startTag s) := by
  simp only [exec, execSesTag, startSession_ready h hf]

theorem exec_sesAnchor (hf : s.ctl.fsm = .idle) : exec .sesAnchor s = .next (startAnchor s) := by
  simp only [exec, execSesAnchor, startSession_ready h hf]

theorem exec_sesAdmit (hf : s.ctl.fsm = .idle) : exec .sesAdmit s = .next (startAdmit s) := by
  simp only [exec, execSesAdmit, startSession_ready h hf]

theorem exec_sesClear : exec .sesClear s = .next (returnToIdle s) := by
  simp only [exec, execSesClear, unlessBusy_ready h]

theorem exec_fcEnc_badKind {k : KindNum} (hk : 7 ≤ k.val) : exec (.fcEnc k) s = .next (s.reject .badKind) := by
  have : kindOfNum k = none := by
    obtain ⟨n, hn⟩ := k
    have : 7 ≤ n := hk
    interval_cases n <;> rfl
  simp only [exec, execFcEnc, unlessBusy_ready h, this]

theorem exec_fcDec_badKind {k : KindNum} (hk : 7 ≤ k.val) : exec (.fcDec k) s = .next (s.reject .badKind) := by
  have : kindOfNum k = none := by
    obtain ⟨n, hn⟩ := k
    have : 7 ≤ n := hk
    interval_cases n <;> rfl
  simp only [exec, execFcDec, unlessBusy_ready h, this]

end

/-- The body of each command: what it does to a state that is not busy (R95: the two tests that need the command's own
operand or the session state are part of it). -/
def commandBody (i : Instr) (s : State) : State :=
  match i with
  | .tsFromraw rd => writeT rd (rawinValue s) s
  | .tsToraw ra =>
    { s.setRawInvalid (!isValid (readT ra s)) with tsu := { s.tsu with rawout := (s.tsu.tregs[ra]).setWidth 40 } }
  | .tsAdd rd ra rb => writeT rd (readT ra s + readT rb s) s
  | .tsSub rd ra rb => writeT rd (readT ra s - readT rb s) s
  | .tsMuls rd ra => writeT rd (readT ra s * scalarValue s) s
  | .tsDivs rd ra => writeQuotient rd (readT ra s) (scalarValue s) s
  | .tsMult rd ra rb => writeT rd (readT ra s * readT rb s) s
  | .tsDivt rd ra rb => writeQuotient rd (readT ra s) (readT rb s) s
  | .tsWrap rd ra => writeT rd (wrap (readT ra s)) s
  | .tsValid ra => s.setTsValid (isValid (readT ra s))
  | .tsTous ra => writeConv (readT ra s * kUs) s
  | .tsTom ra => writeConv (readT ra s * kM) s
  | .rngCompute => computeRange s
  | .rngCorrect => correctRange s
  | .fcEnc k =>
    match kindOfNum k with
    | none => s.reject .badKind
    | some k => encodeFrame k s
  | .fcDec k =>
    match kindOfNum k with
    | none => s.reject .badKind
    | some k => decodeCommand k s
  | .sesTag => if s.ctl.fsm = .idle then startTag s else s.reject .badState
  | .sesAnchor => if s.ctl.fsm = .idle then startAnchor s else s.reject .badState
  | .sesAdmit => if s.ctl.fsm = .idle then startAdmit s else s.reject .badState
  | .sesClear => returnToIdle s

/-- All that a command can answer (R95, R261): a rejection while a session runs, else its body. -/
theorem exec_eq (i : Instr) (s : State) :
    exec i s = .next (if s.busy then s.reject .busy else commandBody i s) := by
  by_cases h : s.busy = true
  · rw [exec_busy h, if_pos h]
  · rw [if_neg h]
    cases i <;> simp only [exec, execTsFromraw, execTsToraw, execTsAdd, execTsSub, execTsMuls, execTsDivs, execTsMult,
      execTsDivt, execTsWrap, execTsValid, execTsTous, execTsTom, execRngCompute, execRngCorrect, execFcEnc, execFcDec,
      execSesTag, execSesAnchor, execSesAdmit, execSesClear, startSession, unlessBusy, if_neg h] <;> rfl

/-- A rejection changes `CMD_ERR` and `CMD_ERR_CODE` and nothing else (R261). -/
theorem onlyRejected_reject (c : RejectCode) (s : State) : OnlyRejected c s (s.reject c) := by
  unfold OnlyRejected State.reject State.raiseCmdErr State.setStatusBit
  have : setBit s.ctl.status 5 true = s.ctl.status ||| 0b0100000#7 := by
    simp only [setBit]; rfl
  simp only [this]

/-- The word of R91's fields, as the encoder packs it. -/
theorem wordOf_eq_packWord (op : Nat) (rd ra rb : Fin 16) :
    wordOf op rd.val ra.val rb.val = packWord (BitVec.ofNat 8 op) rd ra rb := by
  apply BitVec.eq_of_toNat_eq
  have := rd.isLt; have := ra.isLt; have := rb.isLt
  rw [toNat_packWord, wordOf, BitVec.toNat_ofNat, BitVec.toNat_ofNat]
  omega

end Sys2Proof.Machine
end

