-- ==== Sys2Proof/Laws/Acceptance.lean ====
section
/-! SUPPORT. The acceptance test of a command word (R95): the rows of R94 as the decoder reads them, the word a decoded
instruction was read from, and that every accepted command answers a next state. -/

namespace Sys2Proof.Machine
theorem mod_of_and_low {w : CmdWord} {n : Nat} (hn : n ≤ 32) (h : w &&& BitVec.ofNat 32 (2 ^ n - 1) = 0#32) : w.toNat % 2 ^ n = 0 := by
  have : 2 ^ n - 1 < 2 ^ 32 := by
    have := Nat.pow_le_pow_right (n := 2) (by omega) hn
    have := Nat.two_pow_pos n
    omega
  have h2 := congrArg BitVec.toNat h
  rwa [BitVec.toNat_and, BitVec.toNat_ofNat, Nat.mod_eq_of_lt this, Nat.and_two_pow_sub_one_eq_mod] at h2

theorem eq_packWord {w : CmdWord} {rd ra rb : Fin 16} (h : w.toNat % 2 ^ 24 = rd.val * 2 ^ 20 + ra.val * 2 ^ 16 + rb.val * 2 ^ 12) :
    w = packWord (opField w) rd ra rb := by
  apply BitVec.eq_of_toNat_eq
  have := w.isLt
  rw [toNat_packWord, opField, toNat_field]
  omega

theorem val_rdField (w : CmdWord) : (rdField w).val = w.toNat / 2 ^ 20 % 16 := toNat_field w 20 4
theorem val_raField (w : CmdWord) : (raField w).val = w.toNat / 2 ^ 16 % 16 := toNat_field w 16 4
theorem val_rbField (w : CmdWord) : (rbField w).val = w.toNat / 2 ^ 12 % 16 := toNat_field w 12 4

theorem eq_packWord_of_dab {w : CmdWord} (h : w &&& Format.mustBeZero .DAB = 0#32) :
    w = packWord (opField w) (rdField w) (raField w) (rbField w) := by
  have hm : w.toNat % 2 ^ 12 = 0 := mod_of_and_low (by omega) h
  apply eq_packWord; rw [val_rdField, val_raField, val_rbField]; omega
theorem eq_packWord_of_da {w : CmdWord} (h : w &&& Format.mustBeZero .DA = 0#32) :
    w = packWord (opField w) (rdField w) (raField w) 0 := by
  have hm : w.toNat % 2 ^ 16 = 0 := mod_of_and_low (by omega) h
  apply eq_packWord; rw [val_rdField, val_raField, Fin.val_zero]; omega
theorem eq_packWord_of_d {w : CmdWord} (h : w &&& Format.mustBeZero .D = 0#32) :
    w = packWord (opField w) (rdField w) 0 0 := by
  have hm : w.toNat % 2 ^ 20 = 0 := mod_of_and_low (by omega) h
  apply eq_packWord; rw [val_rdField, Fin.val_zero]; omega
theorem eq_packWord_of_n {w : CmdWord} (h : w &&& Format.mustBeZero .N = 0#32) :
    w = packWord (opField w) 0 0 0 := by
  have hm : w.toNat % 2 ^ 24 = 0 := mod_of_and_low (by omega) h
  apply eq_packWord; rw [Fin.val_zero]; omega
theorem eq_packWord_of_a {w : CmdWord} (h : w &&& Format.mustBeZero .A = 0#32) :
    w = packWord (opField w) 0 (raField w) 0 := by
  have h1 : w &&& BitVec.ofNat 32 (2 ^ 16 - 1) = 0#32 := by
    have : BitVec.ofNat 32 (2 ^ 16 - 1) = Format.mustBeZero .A &&& BitVec.ofNat 32 (2 ^ 16 - 1) := by decide
    rw [this, ← BitVec.and_assoc, h]; decide
  have h2 : (w >>> 20) &&& BitVec.ofNat 32 (2 ^ 4 - 1) = 0#32 := by
    have : BitVec.ofNat 32 (2 ^ 4 - 1) = Format.mustBeZero .A >>> 20 := by decide
    rw [this, ← BitVec.ushiftRight_and_distrib, h]; decide
  have hm : w.toNat % 2 ^ 16 = 0 := mod_of_and_low (by omega) h1
  have hm2 := mod_of_and_low (by omega) h2
  rw [BitVec.toNat_ushiftRight, Nat.shiftRight_eq_div_pow] at hm2
  apply eq_packWord; rw [val_raField, Fin.val_zero]; omega

/-- The word of the instruction that a row builds from its own fields is that word (R91, R94). -/
theorem opcodeRow_cases {op : Octet} {f : Format} {mk : Reg → Reg → Reg → Instr} (h : opcodeRow op = some (f, mk)) :
    ∀ w : CmdWord, opField w = op → w &&& f.mustBeZero = 0#32 → encode (mk (rdField w) (raField w) (rbField w)) = w := by
  intro w hop hz
  have hop' : op = BitVec.ofNat 8 op.toNat := by simp
  unfold opcodeRow at h
  split at h <;> cases h <;> (rename_i hn; rw [hn] at hop'; rw [hop'] at hop; simp only [encode])
  all_goals first
    | (have e := eq_packWord_of_d hz; rw [hop] at e; exact e.symm)
    | (have e := eq_packWord_of_a hz; rw [hop] at e; exact e.symm)
    | (have e := eq_packWord_of_da hz; rw [hop] at e; exact e.symm)
    | (have e := eq_packWord_of_dab hz; rw [hop] at e; exact e.symm)
    | (have e := eq_packWord_of_n hz; rw [hop] at e; exact e.symm)
theorem shift24 (w : CmdWord) : w >>> 24 = (opField w).setWidth 32 := by
  apply BitVec.eq_of_toNat_eq
  rw [BitVec.toNat_ushiftRight, BitVec.toNat_setWidth, opField, toNat_field, Nat.shiftRight_eq_div_pow]
  have := w.isLt
  omega

/-- R95 test 2 -/
theorem knownOpcode_eq (w : CmdWord) : knownOpcode w = (opcodeRow (opField w)).isSome := by
  unfold knownOpcode
  rw [shift24]
  generalize opField w = op
  revert op
  decide +revert

theorem split24 (w : CmdWord) : w = opField w ++ w.extractLsb' 0 24 := by
  apply BitVec.eq_of_toNat_eq
  rw [BitVec.toNat_append, ← Nat.shiftLeft_add_eq_or_of_lt (by exact BitVec.isLt _), opField, toNat_field, toNat_field, Nat.shiftLeft_eq]
  have := w.isLt
  omega

theorem append24_inj {a b : BitVec 8} {x y : BitVec 24} : a ++ x = b ++ y ↔ a = b ∧ x = y := by
  constructor
  · intro h
    have h' := congrArg BitVec.toNat h
    rw [BitVec.toNat_append, BitVec.toNat_append, ← Nat.shiftLeft_add_eq_or_of_lt (by exact BitVec.isLt _), ← Nat.shiftLeft_add_eq_or_of_lt (by exact BitVec.isLt _), Nat.shiftLeft_eq, Nat.shiftLeft_eq] at h'
    have := x.isLt; have := y.isLt
    exact ⟨BitVec.eq_of_toNat_eq (by omega), BitVec.eq_of_toNat_eq (by omega)⟩
  · rintro ⟨rfl, rfl⟩; rfl

theorem row_iff (w : CmdWord) (op : BitVec 8) (m : BitVec 24) :
    (w &&& (0xFF#8 ++ m) == op ++ 0#24) = (opField w == op && w &&& (0#8 ++ m) == 0#32) := by
  have h0 : (0#32 : BitVec 32) = 0#8 ++ 0#24 := by decide
  have hff : ∀ x : BitVec 8, x &&& 0xFF#8 = x := by decide
  have hw := split24 w
  generalize opField w = x at hw
  generalize w.extractLsb' 0 24 = y at hw
  subst hw
  rw [h0, BitVec.and_append, BitVec.and_append, hff]
  rw [Bool.eq_iff_iff, Bool.and_eq_true, beq_iff_eq, beq_iff_eq, beq_iff_eq, append24_inj, append24_inj]
  simp

theorem legalForm_eq (w : CmdWord) : legalForm w =
    match opcodeRow (opField w) with
    | none => false
    | some (f, _) => w &&& f.mustBeZero == 0#32 := by
  have hN : Format.mustBeZero .N = 0#8 ++ 0xFFFFFF#24 := by decide
  have hD : Format.mustBeZero .D = 0#8 ++ 0x0FFFFF#24 := by decide
  have hA : Format.mustBeZero .A = 0#8 ++ 0xF0FFFF#24 := by decide
  have hDA : Format.mustBeZero .DA = 0#8 ++ 0x00FFFF#24 := by decide
  have hDAB : Format.mustBeZero .DAB = 0#8 ++ 0x000FFF#24 := by decide
  have hK : Format.mustBeZero .K = 0#8 ++ 0x0FFFFF#24 := by decide
  have hl : legalForm w = ([(0x10#8, Format.D), (0x11#8, .A), (0x12#8, .DAB), (0x13#8, .DAB), (0x14#8, .DA), (0x15#8, .DA),
      (0x16#8, .DAB), (0x17#8, .DAB), (0x18#8, .DA), (0x19#8, .A), (0x1A#8, .A), (0x1B#8, .A), (0x20#8, .N), (0x21#8, .N),
      (0x30#8, .K), (0x31#8, .K), (0x40#8, .N), (0x41#8, .N), (0x42#8, .N), (0x43#8, .N)].any
        fun row => opField w == row.1 && w &&& row.2.mustBeZero == 0#32) := by
    simp only [List.any_cons, List.any_nil, hN, hD, hA, hDA, hDAB, hK, ← row_iff]
    rfl
  have hany : ∀ (l : List (BitVec 8 × Format)) (q : BitVec 8 × Format → Bool) (z : Format → Bool),
      l.any (fun row => q row && z row.2) = ((l.filter q).map fun row => row.2).any z := by
    intro l q z
    rw [List.any_map, List.any_filter]; rfl
  rw [hl, hany _ (fun row => opField w == row.1) (fun f => w &&& f.mustBeZero == 0#32)]
  have key : ∀ op : BitVec 8, (([(0x10#8, Format.D), (0x11#8, .A), (0x12#8, .DAB), (0x13#8, .DAB), (0x14#8, .DA), (0x15#8, .DA),
      (0x16#8, .DAB), (0x17#8, .DAB), (0x18#8, .DA), (0x19#8, .A), (0x1A#8, .A), (0x1B#8, .A), (0x20#8, .N), (0x21#8, .N),
      (0x30#8, .K), (0x31#8, .K), (0x40#8, .N), (0x41#8, .N), (0x42#8, .N), (0x43#8, .N)].filter
        fun row => op == row.1).map fun row => row.2) = ((opcodeRow op).map (·.1)).toList := by decide +revert
  rw [key]
  cases opcodeRow (opField w) with
  | none => rfl
  | some p => simp

theorem badKindWord_eq (w : CmdWord) : badKindWord w =
    ((opField w == 0x30#8 || opField w == 0x31#8) && decide (7 ≤ (rdField w).val)) := by
  have h : (rdField w).val = (w.extractLsb' 20 4).toNat := rfl
  unfold badKindWord
  rw [shift24, h]
  generalize opField w = op
  congr 1
  revert op
  decide +revert

theorem startWord_eq (w : CmdWord) : startWord w = (opField w == 0x40#8 || opField w == 0x41#8 || opField w == 0x42#8) := by
  unfold startWord
  rw [shift24]
  generalize opField w = op
  revert op
  decide +revert

theorem opcodeRow_wf {op : Octet} {f : Format} {mk : Reg → Reg → Reg → Instr} (h : opcodeRow op = some (f, mk))
    (rd ra rb : Reg) : (mk rd ra rb).wf = !((op == 0x30#8 || op == 0x31#8) && decide (7 ≤ rd.val)) := by
  have hop' : op = BitVec.ofNat 8 op.toNat := by simp
  unfold opcodeRow at h
  split at h <;> cases h <;> (rename_i hn; rw [hn] at hop'; subst hop'; simp [Instr.wf])
  all_goals
    rw [Bool.eq_iff_iff]; simp

theorem opcodeRow_start {op : Octet} {f : Format} {mk : Reg → Reg → Reg → Instr} (h : opcodeRow op = some (f, mk))
    (hs : (op == 0x40#8 || op == 0x41#8 || op == 0x42#8) = true) (rd ra rb : Reg) :
    mk rd ra rb = .sesTag ∨ mk rd ra rb = .sesAnchor ∨ mk rd ra rb = .sesAdmit := by
  have hop' : op = BitVec.ofNat 8 op.toNat := by simp
  unfold opcodeRow at h
  split at h <;> cases h <;> (rename_i hn; rw [hn] at hop'; subst hop'; revert hs; simp)

theorem hostStep_cmd (s : State) (w : CmdWord) : hostStep (.write 0x00#8 (w.setWidth 128)) s = submit w s := by
  have : (w.setWidth 128).setWidth 32 = w := by ext i hi; simp
  show submit ((w.setWidth 128).setWidth 32) s = _
  rw [this]

theorem exec_next (i : Instr) (s : State) : ∃ t, exec i s = .next t := by
  by_cases h : s.busy = true
  · exact ⟨_, exec_busy h i⟩
  · cases i <;> simp [exec, execTsFromraw, execTsToraw, execTsAdd, execTsSub, execTsMuls, execTsDivs, execTsMult, execTsDivt,
      execTsWrap, execTsValid, execTsTous, execTsTom, execRngCompute, execRngCorrect, execFcEnc, execFcDec, execSesTag,
      execSesAnchor, execSesAdmit, execSesClear, startSession, unlessBusy, h]

end Sys2Proof.Machine
end

