-- ==== Sys2Proof/Laws/Memory.lean ====
section
/-! SUPPORT. The frame buffers: a read after a write, and the canonical form, which every buffer operation keeps. -/

namespace Sys2Proof.Machine

/-- A buffer in canonical form whose first offset, if any, is above `a`. -/
def Memory.above (a : Nat) : Memory → Prop
  | [] => True
  | (b, _) :: _ => a < b

theorem Memory.wf_cons (a : Nat) (v : Octet) (m : Memory) :
    Memory.wf ((a, v) :: m) = true ↔ a < frameMax ∧ v ≠ 0 ∧ Memory.above a m ∧ Memory.wf m = true := by
  cases m with
  | nil => simp [Memory.wf, Memory.above]
  | cons c m =>
    obtain ⟨b, w⟩ := c
    simp only [Memory.wf, Memory.above, Bool.and_eq_true, decide_eq_true_eq]
    constructor
    · rintro ⟨⟨hab, hv⟩, hw⟩
      have hb : b < frameMax := by
        cases m with
        | nil => simp [Memory.wf] at hw; exact hw.1
        | cons d m =>
          obtain ⟨c, x⟩ := d
          clear hv
          induction m generalizing a b w c x with
          | nil => simp [Memory.wf] at hw; omega
          | cons e m ih =>
            obtain ⟨d, y⟩ := e
            simp only [Memory.wf, Bool.and_eq_true, decide_eq_true_eq] at hw
            have := ih (a := b) (b := c) (w := x) (c := d) (x := y) hw.1.1 (by
              simp only [Memory.wf, Bool.and_eq_true, decide_eq_true_eq]; exact ⟨hw.2.1, hw.2.2⟩)
            omega
      exact ⟨by omega, hv, hab, hw⟩
    · rintro ⟨_, hv, hab, hw⟩
      exact ⟨⟨hab, hv⟩, hw⟩

theorem Memory.wf_tail {c : Host.Cell} {m : Memory} (h : Memory.wf (c :: m) = true) : Memory.wf m = true := by
  obtain ⟨a, v⟩ := c
  exact ((Memory.wf_cons a v m).1 h).2.2.2

theorem readOctet_of_above {a : Nat} {m : Memory} (hw : Memory.wf m = true) (h : Memory.above a m) :
    readOctet m a = 0 := by
  induction m with
  | nil => rfl
  | cons c m ih =>
    obtain ⟨b, w⟩ := c
    have hb : a < b := h
    have hm := (Memory.wf_cons b w m).1 hw
    have : ¬ a = b := by omega
    simp only [readOctet, this, if_false]
    refine ih hm.2.2.2 ?_
    cases m with
    | nil => trivial
    | cons d m =>
      obtain ⟨c, x⟩ := d
      have : b < c := hm.2.2.1
      show a < c
      omega

theorem Memory.above_writeOctet {b : Nat} {m : Memory} (a : Nat) (v : Octet) (hm : Memory.above b m)
    (hw : Memory.wf m = true) (h : b < a) : Memory.above b (writeOctet m a v) := by
  cases m with
  | nil => unfold writeOctet; split <;> simp [Memory.above, h]
  | cons c m =>
    obtain ⟨d, w⟩ := c
    have hd : b < d := hm
    have hc := (Memory.wf_cons d w m).1 hw
    unfold writeOctet
    split
    · split
      · exact hd
      · exact h
    · split
      · split
        · cases m with
          | nil => trivial
          | cons e m => obtain ⟨e, y⟩ := e; have : d < e := hc.2.2.1; show b < e; omega
        · exact h
      · exact hd

/-- A store inside the buffer keeps the canonical form. -/
theorem writeOctet_wf {m : Memory} {a : Nat} (v : Octet) (hw : Memory.wf m = true) (ha : a < frameMax) :
    Memory.wf (writeOctet m a v) = true := by
  induction m with
  | nil => unfold writeOctet; split <;> simp_all [Memory.wf]
  | cons c m ih =>
    obtain ⟨b, w⟩ := c
    have hm := (Memory.wf_cons b w m).1 hw
    unfold writeOctet
    split
    · split
      · exact hw
      · rename_i hab hv
        exact (Memory.wf_cons _ _ _).2 ⟨ha, hv, hab, hw⟩
    · split
      · rename_i hab
        subst hab
        split
        · exact hm.2.2.2
        · rename_i hv
          exact (Memory.wf_cons _ _ _).2 ⟨ha, hv, hm.2.2.1, hm.2.2.2⟩
      · refine (Memory.wf_cons _ _ _).2 ⟨hm.1, hm.2.1, ?_, ih hm.2.2.2⟩
        exact Memory.above_writeOctet a v hm.2.2.1 hm.2.2.2 (by omega)

/-- A read after a store: the stored octet at its offset, the old octet at every other. -/
theorem readOctet_writeOctet {m : Memory} (a : Nat) (v : Octet) (hw : Memory.wf m = true) (c : Nat) :
    readOctet (writeOctet m a v) c = if c = a then v else readOctet m c := by
  induction m with
  | nil => unfold writeOctet; split <;> simp_all [readOctet]
  | cons d m ih =>
    obtain ⟨b, w⟩ := d
    have hm := (Memory.wf_cons b w m).1 hw
    unfold writeOctet
    split
    · rename_i hab
      split
      · rename_i hv
        split
        · rename_i hc
          subst hc hv
          exact readOctet_of_above hw hab
        · rfl
      · simp only [readOctet]
    · split
      · rename_i hab
        subst hab
        split
        · rename_i hv
          subst hv
          split
          · rename_i hc
            subst hc
            exact readOctet_of_above hm.2.2.2 hm.2.2.1
          · rename_i hc
            simp only [readOctet, hc, if_false]
        · split
          · rename_i hc; simp [readOctet, hc]
          · rename_i hc; simp [readOctet, hc]
      · rename_i h1 h2
        simp only [readOctet]
        split
        · rename_i hc
          subst hc
          have : ¬ c = a := fun h => h2 h.symm
          simp [this]
        · rename_i hc
          exact ih hm.2.2.2

theorem memWrite_wf {m : Memory} {a n : Nat} (v : BitVec 64) (hw : Memory.wf m = true) (ha : a + n ≤ frameMax) :
    Memory.wf (memWrite m a n v) = true := by
  induction n generalizing m a v with
  | zero => exact hw
  | succ n ih => exact ih (v >>> 8) (writeOctet_wf _ hw (by omega)) (by omega)

theorem writeOctets_wf {m : Memory} {a : Nat} {l : List Octet} (hw : Memory.wf m = true)
    (ha : a + l.length ≤ frameMax) : Memory.wf (writeOctets m a l) = true := by
  induction l generalizing m a with
  | nil => exact hw
  | cons v l ih =>
    simp only [List.length_cons] at ha
    exact ih (writeOctet_wf v hw (by omega)) (by omega)

/-- A read after a store of several octets: octet `i` of `v` at `a + i`, the old octet outside (R76). -/
theorem readOctet_memWrite {m : Memory} {a n : Nat} (v : BitVec 64) (hw : Memory.wf m = true)
    (ha : a + n ≤ frameMax) (c : Nat) :
    readOctet (memWrite m a n v) c =
      if a ≤ c ∧ c < a + n then (v >>> (8 * (c - a))).setWidth 8 else readOctet m c := by
  induction n generalizing m a v with
  | zero => simp [memWrite]; try omega
  | succ n ih =>
    simp only [memWrite]
    rw [ih (v >>> 8) (writeOctet_wf _ hw (by omega)) (by omega), readOctet_writeOctet a _ hw c]
    by_cases h1 : c = a
    · subst h1; simp
    · by_cases h2 : a + 1 ≤ c ∧ c < a + 1 + n
      · have h3 : a ≤ c ∧ c < a + (n + 1) := by omega
        rw [if_pos h2, if_pos h3, ← BitVec.shiftRight_add]
        congr 2
        omega
      · have h3 : ¬ (a ≤ c ∧ c < a + (n + 1)) := by omega
        rw [if_neg h2, if_neg h3, if_neg h1]

/-- A read after a store of a list of octets. -/
theorem readOctet_writeOctets {m : Memory} {a : Nat} {l : List Octet} (hw : Memory.wf m = true)
    (ha : a + l.length ≤ frameMax) (c : Nat) :
    readOctet (writeOctets m a l) c = if a ≤ c ∧ c < a + l.length then l.getD (c - a) 0 else readOctet m c := by
  induction l generalizing m a with
  | nil => simp [writeOctets]; try omega
  | cons v l ih =>
    simp only [List.length_cons] at ha
    simp only [writeOctets, List.length_cons]
    rw [ih (writeOctet_wf v hw (by omega)) (by omega), readOctet_writeOctet a v hw c]
    by_cases h1 : c = a
    · subst h1; simp
    · by_cases h2 : a + 1 ≤ c ∧ c < a + 1 + l.length
      · have h3 : a ≤ c ∧ c < a + (l.length + 1) := by omega
        have h4 : c - a = (c - (a + 1)) + 1 := by omega
        rw [if_pos h2, if_pos h3, h4, List.getD_cons_succ]
      · have h3 : ¬ (a ≤ c ∧ c < a + (l.length + 1)) := by omega
        rw [if_neg h2, if_neg h3, if_neg h1]

/-- Bit `i` of what `MemRead` assembles: bit `i mod 8` of the octet at `a + i / 8`. -/
theorem getLsbD_memRead (m : Memory) (a n i : Nat) (hn : n ≤ 8) :
    (memRead m a n).getLsbD i = (decide (i < 8 * n) && (readOctet m (a + i / 8)).getLsbD (i % 8)) := by
  induction n generalizing a i with
  | zero => simp [memRead]
  | succ n ih =>
    simp only [memRead, BitVec.getLsbD_or, BitVec.getLsbD_shiftLeft, BitVec.getLsbD_setWidth]
    by_cases h8 : i < 8
    · have hd : i / 8 = 0 := by omega
      have hm : i % 8 = i := by omega
      have h64 : i < 64 := by omega
      have hn' : i < 8 * (n + 1) := by omega
      simp [h8, hd, hm, h64, hn']
    · rw [ih (a + 1) (i - 8) (by omega)]
      have hd : a + 1 + (i - 8) / 8 = a + i / 8 := by omega
      have hm : (i - 8) % 8 = i % 8 := by omega
      rw [hd, hm]
      have hz : (readOctet m a).getLsbD i = false := BitVec.getLsbD_of_ge _ _ (by omega)
      by_cases hn' : i < 8 * (n + 1)
      · have h64 : i < 64 := by omega
        have h1 : i - 8 < 8 * n := by omega
        simp [hz, h8, hn', h64, h1]
      · have h1 : ¬ (i - 8 < 8 * n) := by omega
        simp [hz, h8, hn', h1]

end Sys2Proof.Machine
end

