-- ==== Sys2Proof/Laws/Codec.lean ====
section
/-! SUPPORT. The frame codec: an encode stores the frame of its kind, a decode answers one of four cases, and a received
frame arrives field by field. -/

namespace Sys2Proof.Machine

theorem setWidth8_shift (n : Nat) {w : Nat} (v : BitVec w) : (v >>> n).setWidth 8 = v.extractLsb' n 8 := by
  ext i hi
  simp [BitVec.getLsbD_ushiftRight]

theorem writeOctets_append (m : Memory) (a : Nat) (l l' : List Octet) :
    writeOctets m a (l ++ l') = writeOctets (writeOctets m a l) (a + l.length) l' := by
  induction l generalizing m a with
  | nil => rfl
  | cons v l ih => simp only [List.cons_append, writeOctets, List.length_cons, ih]; congr 1; omega

theorem memWrite_two (m : Memory) (a : Nat) (v : BitVec 16) :
    memWrite m a 2 (v.setWidth 64) = writeOctets m a (le16 v) := by
  have h0 : (v.setWidth 64).setWidth 8 = v.extractLsb' 0 8 := by ext i hi; simp
  have h1 : (v.setWidth 64 >>> 8).setWidth 8 = v.extractLsb' 8 8 := by
    ext i hi; simp [BitVec.getLsbD_ushiftRight]; intros; omega
  simp only [memWrite, le16, writeOctets, h0, h1]

theorem memWrite_four (m : Memory) (a : Nat) (v : BitVec 32) :
    memWrite m a 4 (v.setWidth 64) = writeOctets m a (le32 v) := by
  have h (n : Nat) (hn : n ≤ 24): (v.setWidth 64 >>> n).setWidth 8 = v.extractLsb' n 8 := by
    ext i hi
    have : n + i < 64 := by omega
    simp [BitVec.getLsbD_ushiftRight, this]
  have h0 : (v.setWidth 64).setWidth 8 = v.extractLsb' 0 8 := h 0 (by omega)
  simp only [memWrite, le32, writeOctets, ← BitVec.shiftRight_add, h0]
  rw [h 8 (by omega), h (8 + 8) (by omega), h (8 + 8 + 8) (by omega)]

theorem memWrite_eight (m : Memory) (a : Nat) (v : BitVec 64) : memWrite m a 8 v = writeOctets m a (le64 v) := by
  have h0 : v.setWidth 8 = v.extractLsb' 0 8 := setWidth8_shift 0 v
  simp only [memWrite, le64, writeOctets, ← BitVec.shiftRight_add, setWidth8_shift, h0]

theorem memWrite_one (m : Memory) (a : Nat) (v : Octet) :
    memWrite m a 1 (v.setWidth 64) = writeOctets m a [v] := by
  have h0 : (v.setWidth 64).setWidth 8 = v := by ext i hi; simp
  simp only [memWrite, writeOctets, h0]

theorem encodeFrame_buf (k : Kind) (s : State) :
    (encodeFrame k s).tx.buf = writeOctets s.tx.buf 0 (frameOf s.params s.tx k) := by
  cases k <;>
    simp only [encodeFrame, layout, writeFields, fieldOctets, txField, memWrite_two, memWrite_four, memWrite_eight, frameOf, codeOfKind, functionCode, writeOctets, writeOctets_append, memWrite_one] <;> rfl
theorem length_frameOf (p : Params) (x : Tx) (k : Kind) : (frameOf p x k).length = minLen k := by
  cases k <;> rfl

/-- Reading back a list of octets just stored. -/
theorem readOctets_writeOctets {m : Memory} {l : List Octet} (hw : Memory.wf m = true) (hl : l.length ≤ frameMax) :
    readOctets (writeOctets m 0 l) 0 l.length = l := by
  have key : ∀ (m' : Memory) (n a : Nat) (l' : List Octet), l'.length = n →
      (∀ i, i < n → readOctet m' (a + i) = l'.getD i 0) → readOctets m' a n = l' := by
    intro m' n
    induction n with
    | zero => intro a l' hl' _; rw [List.length_eq_zero_iff] at hl'; subst hl'; rfl
    | succ n ih =>
      intro a l' hl' h
      match l' with
      | [] => simp at hl'
      | v :: l'' =>
        simp only [readOctets]
        have h0 := h 0 (by omega)
        simp only [Nat.add_zero, List.getD_cons_zero] at h0
        rw [h0, ih (a + 1) l'' (by simpa using hl')]
        intro i hi
        have := h (i + 1) (by omega)
        rw [List.getD_cons_succ] at this
        rw [← this]; congr 1; omega
  apply key _ _ _ _ rfl
  intro i hi
  rw [readOctet_writeOctets hw (by omega)]
  simp [hi]

/-- The frame handed to the transceiver after an encode is the frame of the kind (R172). -/
theorem txFrame_encodeFrame (k : Kind) (s : State) (hw : Memory.wf s.tx.buf = true) :
    (encodeFrame k s).txFrame = frameOf s.params s.tx k := by
  have hl : (encodeFrame k s).tx.len.toNat = (frameOf s.params s.tx k).length := by cases k <;> rfl
  rw [State.txFrame, encodeFrame_buf, hl]
  exact readOctets_writeOctets hw (by rw [length_frameOf]; cases k <;> decide)

/-- Every octet of `TXBUF` after an encode (R170). -/
theorem readOctet_encodeFrame (k : Kind) (s : State) (hw : Memory.wf s.tx.buf = true) (off : Nat) :
    readOctet (encodeFrame k s).tx.buf off =
      if off < (frameOf s.params s.tx k).length then (frameOf s.params s.tx k).getD off 0 else readOctet s.tx.buf off := by
  rw [encodeFrame_buf, readOctet_writeOctets hw (by rw [length_frameOf]; cases k <;> decide)]
  simp

theorem memRead_two (m : Memory) (a : Nat) : (memRead m a 2).setWidth 16 = num16 m a := by
  ext i hi
  rw [BitVec.getElem_setWidth, getLsbD_memRead _ _ _ _ (by omega), num16, BitVec.getElem_append]
  by_cases h : i < 8
  · have h1 : i / 8 = 0 := by omega
    have h2 : i % 8 = i := by omega
    have h3 : i < 8 * 2 := by omega
    simp [h, h1, h2, h3]
  · have h1 : i / 8 = 1 := by omega
    have h2 : i % 8 = i - 8 := by omega
    have h3 : i < 8 * 2 := by omega
    have h4 : i - 8 < 8 := by omega
    simp [h, h1, h2, h3, h4]

theorem getLsbD_of_div {m : Memory} {a i : Nat} (j : Nat) (h : i / 8 = j) :
    (readOctet m (a + i / 8)).getLsbD (i % 8) = (readOctet m (a + j)).getLsbD (i - 8 * j) := by
  have : i % 8 = i - 8 * j := by omega
  rw [h, this]

theorem memRead_four (m : Memory) (a : Nat) : (memRead m a 4).setWidth 32 = num32 m a := by
  ext i hi
  rw [BitVec.getElem_setWidth, getLsbD_memRead _ _ _ _ (by omega), num32, ← BitVec.getLsbD_eq_getElem]
  have h3 : i < 8 * 4 := by omega
  simp only [BitVec.getLsbD_append, h3, decide_true, Bool.true_and]
  split_ifs <;> first
    | exact getLsbD_of_div 0 (by omega)
    | (rw [getLsbD_of_div 1 (by omega)])
    | (rw [getLsbD_of_div 2 (by omega)]; congr 1)
    | (rw [getLsbD_of_div 3 (by omega)]; congr 1)

theorem memRead_eight (m : Memory) (a : Nat) : memRead m a 8 = num64 m a := by
  ext i hi
  rw [← BitVec.getLsbD_eq_getElem, getLsbD_memRead _ _ _ _ (by omega), num64, ← BitVec.getLsbD_eq_getElem]
  have h3 : i < 8 * 8 := by omega
  simp only [BitVec.getLsbD_append, h3, decide_true, Bool.true_and]
  split_ifs <;> first
    | exact getLsbD_of_div 0 (by omega)
    | (rw [getLsbD_of_div 1 (by omega)])
    | (rw [getLsbD_of_div 2 (by omega)]; congr 1)
    | (rw [getLsbD_of_div 3 (by omega)]; congr 1)
    | (rw [getLsbD_of_div 4 (by omega)]; congr 1)
    | (rw [getLsbD_of_div 5 (by omega)]; congr 1)
    | (rw [getLsbD_of_div 6 (by omega)]; congr 1)
    | (rw [getLsbD_of_div 7 (by omega)]; congr 1)


theorem memRead_one (m : Memory) (a : Nat) : (memRead m a 1).setWidth 8 = readOctet m a := by
  ext i hi
  rw [BitVec.getElem_setWidth, getLsbD_memRead _ _ _ _ (by omega)]
  have h1 : i / 8 = 0 := by omega
  have h2 : i % 8 = i := by omega
  simp [h1, h2, hi]

/-- The `D_*` registers after an accepted decode, kind by kind (R176, R180). -/
theorem readFields_layout (r : Rx) (k : Kind) :
    readFields r.buf { r with fc := readOctet r.buf 0, seq := readOctet r.buf 1 } (layout k) = decodedFrom r k := by
  cases k <;>
    simp only [layout, readFields, setRxField, fieldOctets, decodedFrom, memRead_one, memRead_two, memRead_four, memRead_eight]

theorem setBit_setBit {n : Nat} (v : BitVec n) (i : Nat) (b c : Bool) : setBit (setBit v i b) i c = setBit v i c := by
  apply BitVec.eq_of_getLsbD_eq
  intro j hj
  simp only [getLsbD_setBit]
  split <;> rfl

theorem setDecOk_setDecOk (b c : Bool) (s : State) : (s.setDecOk b).setDecOk c = s.setDecOk c := by
  simp only [State.setDecOk, State.setStatusBit, setBit_setBit]

theorem functionCode_eq (p : Params) (k : Kind) : functionCode p k = codeOfKind p k := by cases k <;> rfl

/-- All that a decode can do (R176, R177, R178): the four cases in the order of their tests. -/
theorem decodeFrame_empty (k : Kind) (s : State) (h : s.rx.len = 0#7) :
    decodeFrame k s = (s.setDecOk false, some .truncated) := by
  simp [decodeFrame, State.setDecOk, State.setStatusBit, h]

theorem decodeFrame_badFc (k : Kind) (s : State) (h : 0 < s.rx.len.toNat) (hc : readOctet s.rx.buf 0 ≠ codeOfKind s.params k) :
    decodeFrame k s = ({ s.setDecOk false with rx := { s.rx with fc := readOctet s.rx.buf 0 } }, some .badFc) := by
  have h1 : ¬ s.rx.len.toNat < 1 := by omega
  simp [decodeFrame, functionCode_eq, h1, hc]

theorem decodeFrame_short (k : Kind) (s : State) (h : 0 < s.rx.len.toNat) (hc : readOctet s.rx.buf 0 = codeOfKind s.params k)
    (hl : s.rx.len.toNat < minLen k) :
    decodeFrame k s = ({ s.setDecOk false with rx := { s.rx with fc := readOctet s.rx.buf 0 } }, some .truncated) := by
  have h1 : ¬ s.rx.len.toNat < 1 := by omega
  simp [decodeFrame, functionCode_eq, h1, hc, hl]

theorem decodeFrame_accept (k : Kind) (s : State) (hc : readOctet s.rx.buf 0 = codeOfKind s.params k)
    (hl : minLen k ≤ s.rx.len.toNat) :
    decodeFrame k s = ({ s.setDecOk true with rx := decodedFrom s.rx k }, none) := by
  have h1 : ¬ s.rx.len.toNat < 1 := by
    have : 1 ≤ minLen k := by cases k <;> decide
    omega
  have h2 : ¬ s.rx.len.toNat < minLen k := by omega
  simp only [decodeFrame, functionCode_eq, State.setDecOk_rx, State.setDecOk_params, h1, hc, h2, if_false, ne_eq, not_true_eq_false]
  have := readFields_layout s.rx k
  simp only [hc] at this
  simp only [this]
  rw [← setDecOk_setDecOk false true s]
  rfl


theorem append_le16 (v : BitVec 16) : v.extractLsb' 8 8 ++ v.extractLsb' 0 8 = v := by
  apply BitVec.eq_of_toNat_eq
  have := v.isLt
  rw [BitVec.toNat_append, ← Nat.shiftLeft_add_eq_or_of_lt (by exact (v.extractLsb' 0 8).isLt)]
  simp only [BitVec.extractLsb'_toNat, Nat.shiftRight_eq_div_pow, Nat.shiftLeft_eq]
  omega

theorem append_le32 (v : BitVec 32) :
    (v.extractLsb' 24 8 ++ v.extractLsb' 16 8 ++ v.extractLsb' 8 8 ++ v.extractLsb' 0 8 : BitVec 32) = v := by
  apply BitVec.eq_of_toNat_eq
  have := v.isLt
  rw [BitVec.toNat_append, ← Nat.shiftLeft_add_eq_or_of_lt (by exact BitVec.isLt _),
    BitVec.toNat_append, ← Nat.shiftLeft_add_eq_or_of_lt (by exact BitVec.isLt _),
    BitVec.toNat_append, ← Nat.shiftLeft_add_eq_or_of_lt (by exact BitVec.isLt _)]
  simp only [BitVec.extractLsb'_toNat, Nat.shiftRight_eq_div_pow, Nat.shiftLeft_eq]
  omega

theorem append_le64 (v : BitVec 64) :
    (v.extractLsb' 56 8 ++ v.extractLsb' 48 8 ++ v.extractLsb' 40 8 ++ v.extractLsb' 32 8 ++
      v.extractLsb' 24 8 ++ v.extractLsb' 16 8 ++ v.extractLsb' 8 8 ++ v.extractLsb' 0 8 : BitVec 64) = v := by
  apply BitVec.eq_of_toNat_eq
  have := v.isLt
  rw [BitVec.toNat_append, ← Nat.shiftLeft_add_eq_or_of_lt (by exact BitVec.isLt _),
    BitVec.toNat_append, ← Nat.shiftLeft_add_eq_or_of_lt (by exact BitVec.isLt _),
    BitVec.toNat_append, ← Nat.shiftLeft_add_eq_or_of_lt (by exact BitVec.isLt _),
    BitVec.toNat_append, ← Nat.shiftLeft_add_eq_or_of_lt (by exact BitVec.isLt _),
    BitVec.toNat_append, ← Nat.shiftLeft_add_eq_or_of_lt (by exact BitVec.isLt _),
    BitVec.toNat_append, ← Nat.shiftLeft_add_eq_or_of_lt (by exact BitVec.isLt _),
    BitVec.toNat_append, ← Nat.shiftLeft_add_eq_or_of_lt (by exact BitVec.isLt _)]
  simp only [BitVec.extractLsb'_toNat, Nat.shiftRight_eq_div_pow, Nat.shiftLeft_eq]
  omega

/-- A buffer that holds the frame of `x` decodes to `x`'s fields. -/
theorem decodedFrom_of_frame {p : Params} {x : Tx} {k : Kind} {r : Rx}
    (h : ∀ i, i < (frameOf p x k).length → readOctet r.buf i = (frameOf p x k).getD i 0) :
    decodedFrom r k = copiedFrom p x k r := by
  have h' : ∀ i, i < minLen k → readOctet r.buf i = (frameOf p x k).getD i 0 := by
    intro i hi; exact h i (by rw [length_frameOf]; exact hi)
  cases k <;>
  · simp only [minLen] at h'
    simp only [decodedFrom, copiedFrom, num16, num32, num64]
    simp (disch := omega) only [h']
    simp only [frameOf, le16, le32, le64, List.cons_append, List.nil_append, List.getD_cons_zero, List.getD_cons_succ, append_le16, append_le32, append_le64, codeOfKind]

theorem toNat_loadFrame_len (f : Frame) (s : State) : (loadFrame f s).rx.len.toNat = f.octets.length := by
  have := f.fits
  simp only [loadFrame, BitVec.toNat_ofNat]
  omega

/-- The receive buffer after a frame is loaded (R262). -/
theorem readOctet_loadFrame (f : Frame) (s : State) (hw : Memory.wf s.rx.buf = true) (i : Nat) :
    readOctet (loadFrame f s).rx.buf i = if i < f.octets.length then f.octets.getD i 0 else readOctet s.rx.buf i := by
  have := f.fits
  simp only [loadFrame]
  rw [readOctet_writeOctets hw (by simp only [frameMax]; omega)]
  simp

theorem readOctet_loadFrame_of_append {f : Frame} {s : State} {l extra : List Octet} (hw : Memory.wf s.rx.buf = true)
    (hf : f.octets = l ++ extra) (i : Nat) (hi : i < l.length) :
    readOctet (loadFrame f s).rx.buf i = l.getD i 0 := by
  have h : i < f.octets.length := by rw [hf, List.length_append]; omega
  rw [readOctet_loadFrame f s hw, if_pos h, hf]
  simp [List.getD_eq_getElem?_getD, List.getElem?_append_left hi]

/-- A received frame of the expected kind is accepted and its fields arrive in the `D_*` registers (R176, R179). -/
theorem decodeFrame_loadFrame {f : Frame} {s : State} {x : Tx} {k : Kind} {extra : List Octet}
    (hw : Memory.wf s.rx.buf = true) (hf : f.octets = frameOf s.params x k ++ extra) :
    decodeFrame k (loadFrame f s) =
      ({ (loadFrame f s).setDecOk true with rx := copiedFrom s.params x k (loadFrame f s).rx }, none) := by
  have hlen : minLen k ≤ f.octets.length := by rw [hf, List.length_append, length_frameOf]; omega
  have h0 : readOctet (loadFrame f s).rx.buf 0 = codeOfKind s.params k := by
    rw [readOctet_loadFrame_of_append hw hf 0 (by rw [length_frameOf]; cases k <;> decide)]
    cases k <;> rfl
  rw [decodeFrame_accept k (loadFrame f s) h0 (by rw [toNat_loadFrame_len]; exact hlen)]
  rw [decodedFrom_of_frame (fun i hi => readOctet_loadFrame_of_append hw hf i hi)]

theorem decodeFrame_setDecOk (k : Kind) (b : Bool) (s : State) : decodeFrame k (s.setDecOk b) = decodeFrame k s := by
  simp only [decodeFrame, setDecOk_setDecOk]

/-- The one-of-two decode (R183) is the decode of whichever kind the function code names. -/
theorem decodeEither_confirm {s : State} (h : 0 < s.rx.len.toNat) (hc : readOctet s.rx.buf 0 = s.params.fcConfirm) :
    decodeEither s = decodeFrame .confirm s := by
  have h1 : ¬ s.rx.len.toNat < 1 := by omega
  simp [decodeEither, h1, hc, decodeFrame_setDecOk]

theorem decodeEither_finished {s : State} (h : 0 < s.rx.len.toNat) (hc : readOctet s.rx.buf 0 = s.params.fcFinished) :
    decodeEither s = decodeFrame .finished s := by
  have h1 : ¬ s.rx.len.toNat < 1 := by omega
  have h2 : ¬ s.params.fcFinished = s.params.fcConfirm := fun h => s.params.confirm_ne_finished h.symm
  simp [decodeEither, h1, hc, h2, decodeFrame_setDecOk]

theorem decodeEither_badFc {s : State} (h : 0 < s.rx.len.toNat) (hc : readOctet s.rx.buf 0 ≠ s.params.fcConfirm)
    (hf : readOctet s.rx.buf 0 ≠ s.params.fcFinished) :
    decodeEither s = ({ s.setDecOk false with rx := { s.rx with fc := readOctet s.rx.buf 0 } }, some .badFc) := by
  have h1 : ¬ s.rx.len.toNat < 1 := by omega
  simp [decodeEither, h1, hc, hf]

theorem decodeEither_empty {s : State} (h : s.rx.len = 0#7) : decodeEither s = (s.setDecOk false, some .truncated) := by
  simp [decodeEither, h]

end Sys2Proof.Machine
end

