-- ==== Sys2Proof/Laws/HostPort.lean ====
section
/-! SUPPORT. The host port: the register map is one to one, what a read of a register can return, and what a write to one
register leaves in the others. -/

namespace Sys2Proof.Machine
/-- The index of a register (R46). -/
def HostReg.index : HostReg → BitVec 8
  | .cmd => 0x00 | .status => 0x01 | .ctrl => 0x02 | .err => 0x03 | .fsmState => 0x04 | .cmdErrCode => 0x05
  | .rawin => 0x08 | .rawout => 0x09 | .scalar => 0x0A | .conv => 0x0B
  | .round1 => 0x10 | .reply1 => 0x11 | .round2 => 0x12 | .reply2 => 0x13 | .tofNum => 0x14 | .tofDen => 0x15
  | .distRaw => 0x16 | .rxpwr => 0x17 | .biaskey => 0x18 | .bias => 0x19 | .dist => 0x1A | .rangeStatus => 0x1B
  | .exchMask => 0x1C | .bandMap => 0x1D
  | .replyDelay => 0x20 | .assignAddr => 0x21 | .nextAnchor => 0x22 | .blinkSuggest => 0x23 | .anchorAddr => 0x24
  | .peerAddr => 0x25 | .blinkRate => 0x26 | .exchCount => 0x27 | .result => 0x28 | .peerEui => 0x29
  | .seq => 0x30 | .fEui => 0x31 | .fNetid => 0x32 | .fDst => 0x33 | .fSrc => 0x34 | .fArg => 0x35 | .fAct => 0x36
  | .fTs0 => 0x37 | .fTs1 => 0x38 | .fTs2 => 0x39 | .txlen => 0x3A
  | .dFc => 0x40 | .dSeq => 0x41 | .dEui => 0x42 | .dNetid => 0x43 | .dDst => 0x44 | .dSrc => 0x45 | .dArg => 0x46
  | .dAct => 0x47 | .dTs0 => 0x48 | .dTs1 => 0x49 | .dTs2 => 0x4A | .rxlen => 0x4B
  | .t i => 0x80#8 + BitVec.ofNat 8 i.val

/-- The register map is one to one (R46). -/
theorem index_of_hostRegAt : ∀ (idx : BitVec 8), (hostRegAt idx).all (fun r => r.index == idx) = true := by decide +revert

theorem index_eq {idx : BitVec 8} {r : HostReg} (h : hostRegAt idx = some r) : r.index = idx := by
  have := index_of_hostRegAt idx
  rw [h] at this
  simpa using this

theorem hostRegAt_unlisted : ∀ idx : BitVec 8, listedIndex idx = false → hostRegAt idx = none ∨ hostRegAt idx = some .cmd := by
  decide +revert

theorem readReg_lt (r : HostReg) (s : State) : (readReg r s).toNat < 2 ^ regWidth r := by
  have aux : ∀ (w : Nat) (v : BitVec w), w ≤ 128 → (v.setWidth 128).toNat < 2 ^ w := by
    intro w v hw
    rw [BitVec.toNat_setWidth]
    exact Nat.lt_of_le_of_lt (Nat.mod_le _ _) v.isLt
  have mono : ∀ (w w' n : Nat), n < 2 ^ w → w ≤ w' → n < 2 ^ w' := fun w w' n h hw =>
    Nat.lt_of_lt_of_le h (Nat.pow_le_pow_right (by omega) hw)
  cases r <;> simp only [readReg, regWidth]
  case cmd => decide
  case status => exact mono 7 32 _ (aux 7 _ (by omega)) (by omega)
  case ctrl => exact mono 2 32 _ (aux 2 _ (by omega)) (by omega)
  case fsmState => exact mono 5 8 _ (aux 5 _ (by omega)) (by omega)
  all_goals first
    | exact BitVec.isLt _
    | exact aux _ _ (by omega)

theorem writeReg_none_or (r : HostReg) (v : BitVec 128) (s : State) :
    (∃ w, (r.index, w) ∈ writableRegs) ∨ writeReg r v s = none := by
  cases r <;> first
    | exact Or.inr rfl
    | (left; simp [writableRegs, HostReg.index])
theorem hostWrite_plain {s : State} {idx : BitVec 8} (h0 : idx ≠ 0x00#8) (h1 : idx ≠ 0x01#8) (v : BitVec 128) :
    hostStep (.write idx v) s = .next (writePlain (hostRegAt idx) v s) := by
  show hostWrite idx v s = _
  unfold hostWrite
  split
  · rename_i h; have := index_eq h; exact absurd this.symm h0
  · rename_i h; have := index_eq h; exact absurd this.symm h1
  · rfl

theorem read_other {r : HostReg} {v : BitVec 128} {s s' : State} (hw : writeReg r v s = some s') {j : BitVec 8} (hj : j ≠ r.index) :
    hostReadValue j s' = hostReadValue j s := by
  unfold hostReadValue
  cases h : hostRegAt j with
  | none => rfl
  | some q =>
    have hq := index_eq h
    have hne : q ≠ r := by rintro rfl; exact hj hq.symm
    cases r <;> simp only [writeReg] at hw <;> cases hw <;> cases q <;> first | rfl | exact absurd rfl hne

theorem hostReadValue_reset : ∀ idx, hostReadValue idx State.reset = if idx = 0x02#8 then 2 else 0 := by
  intro idx
  unfold hostReadValue
  cases h : hostRegAt idx with
  | none =>
    have : idx ≠ 0x02#8 := by rintro rfl; cases h
    simp [this]
  | some r =>
    have hi := index_eq h
    subst hi
    cases r <;> first
      | rfl
      | (rename_i i
         have : (HostReg.t i).index ≠ 0x02#8 := by revert i; intro i _; revert i; decide
         simp only [this, if_false]
         simp [readReg, State.reset])

end Sys2Proof.Machine
end

