-- ==== Sys2Proof/Laws/PerInstr.lean ====
section
/-! SUPPORT. The family EncodeRoundTrip: every well-formed command is read back from its own word, one lemma per
constructor of Instr. -/

namespace Sys2Proof.Laws.EncodeRoundTrip

/-- The word of a well-formed command decodes to that command (R94, R95). -/
def Statement (i : Instr) : Prop := i.wf = true → decode (encode i) = .ok i

theorem tsFromraw (rd : Fin 16) : Statement (.tsFromraw rd) := fun h => decode_packWord (op := 0x10#8) rfl (packWord_d _ _) h

theorem tsToraw (ra : Fin 16) : Statement (.tsToraw ra) := fun h => decode_packWord (op := 0x11#8) rfl (packWord_a _ _) h

theorem tsAdd (rd ra rb : Fin 16) : Statement (.tsAdd rd ra rb) := fun h => decode_packWord (op := 0x12#8) rfl (packWord_dab _ _ _ _) h

theorem tsSub (rd ra rb : Fin 16) : Statement (.tsSub rd ra rb) := fun h => decode_packWord (op := 0x13#8) rfl (packWord_dab _ _ _ _) h

theorem tsMuls (rd ra : Fin 16) : Statement (.tsMuls rd ra) := fun h => decode_packWord (op := 0x14#8) rfl (packWord_da _ _ _) h

theorem tsDivs (rd ra : Fin 16) : Statement (.tsDivs rd ra) := fun h => decode_packWord (op := 0x15#8) rfl (packWord_da _ _ _) h

theorem tsMult (rd ra rb : Fin 16) : Statement (.tsMult rd ra rb) := fun h => decode_packWord (op := 0x16#8) rfl (packWord_dab _ _ _ _) h

theorem tsDivt (rd ra rb : Fin 16) : Statement (.tsDivt rd ra rb) := fun h => decode_packWord (op := 0x17#8) rfl (packWord_dab _ _ _ _) h

theorem tsWrap (rd ra : Fin 16) : Statement (.tsWrap rd ra) := fun h => decode_packWord (op := 0x18#8) rfl (packWord_da _ _ _) h

theorem tsValid (ra : Fin 16) : Statement (.tsValid ra) := fun h => decode_packWord (op := 0x19#8) rfl (packWord_a _ _) h

theorem tsTous (ra : Fin 16) : Statement (.tsTous ra) := fun h => decode_packWord (op := 0x1A#8) rfl (packWord_a _ _) h

theorem tsTom (ra : Fin 16) : Statement (.tsTom ra) := fun h => decode_packWord (op := 0x1B#8) rfl (packWord_a _ _) h

theorem rngCompute : Statement .rngCompute := fun _ => by decide

theorem rngCorrect : Statement .rngCorrect := fun _ => by decide

theorem fcEnc (k : Fin 16) : Statement (.fcEnc k) := fun h => decode_packWord (op := 0x30#8) rfl (packWord_d _ _) h

theorem fcDec (k : Fin 16) : Statement (.fcDec k) := fun h => decode_packWord (op := 0x31#8) rfl (packWord_d _ _) h

theorem sesTag : Statement .sesTag := fun _ => by decide

theorem sesAnchor : Statement .sesAnchor := fun _ => by decide

theorem sesAdmit : Statement .sesAdmit := fun _ => by decide

theorem sesClear : Statement .sesClear := fun _ => by decide

end Sys2Proof.Laws.EncodeRoundTrip
end

