-- ==== Sys2Proof/Laws/Ranging.lean ====
section
/-! SUPPORT. The ranging math: what `RNG.COMPUTE` leaves on each of its paths, the bounds of R145, and the bias function
(the line of the bracketing interval, its ends, its bounds, its steps). -/

namespace Sys2Proof.Machine

theorem exchComplete_iff (m : BitVec 6) : exchComplete m = true ↔ m = 0b111111#6 := by simp [exchComplete]

theorem computeRange_incomplete {s : State} (h : s.tsu.exchMask ≠ 0b111111#6) :
    computeRange s = { s with rmu := { s.rmu with rangeStatus := rsIncomplete } } := by
  simp [computeRange, exchComplete, h]

theorem computeRange_complete {s : State} (h : s.tsu.exchMask = 0b111111#6) :
    computeRange s = { clearExchange s with rmu := rangeRegisters (exchangeLegs s) s.rmu } := by
  simp [computeRange, exchComplete, h]

theorem round1_eq (s : State) : (exchangeLegs s).round1 = wrappedDiff (readT 11 s) (readT 8 s) := wrap_eq_wrappedDiff _ _
theorem reply1_eq (s : State) : (exchangeLegs s).reply1 = wrappedDiff (readT 10 s) (readT 9 s) := wrap_eq_wrappedDiff _ _
theorem round2_eq (s : State) : (exchangeLegs s).round2 = wrappedDiff (readT 13 s) (readT 10 s) := wrap_eq_wrappedDiff _ _
theorem reply2_eq (s : State) : (exchangeLegs s).reply2 = wrappedDiff (readT 12 s) (readT 11 s) := wrap_eq_wrappedDiff _ _

theorem legsValid_iff (l : Legs) : legsValid l = true ↔
    ValidTs l.round1 ∧ ValidTs l.reply1 ∧ ValidTs l.round2 ∧ ValidTs l.reply2 := by
  simp only [legsValid, Bool.and_eq_true, isValid_iff]; tauto

/-- Valid legs: the bounds of R145. -/
theorem tofNumerator_bounds {l : Legs} (h : legsValid l = true) : -2 ^ 80 < tofNumerator l ∧ tofNumerator l < 2 ^ 80 := by
  rw [legsValid_iff] at h
  unfold ValidTs at h
  obtain ⟨⟨a1, a2⟩, ⟨b1, b2⟩, ⟨c1, c2⟩, ⟨d1, d2⟩⟩ := h
  have h1 : 0 ≤ l.round1 * l.round2 := mul_nonneg a1 c1
  have h2 : 0 ≤ l.reply1 * l.reply2 := mul_nonneg b1 d1
  have h3 : l.round1 * l.round2 < 2 ^ 80 := by nlinarith
  have h4 : l.reply1 * l.reply2 < 2 ^ 80 := by nlinarith
  unfold tofNumerator
  omega
theorem tofDenominator_bounds {l : Legs} (h : legsValid l = true) : 0 ≤ tofDenominator l ∧ tofDenominator l < 2 ^ 42 := by
  rw [legsValid_iff] at h
  unfold ValidTs at h
  unfold tofDenominator
  omega

theorem fdiv_bounds {n d : Int} (b : Int) (hd : 0 < d) (h1 : -b ≤ n) (h2 : n < b) (_ : 0 < b): -b ≤ floorDiv n d ∧ floorDiv n d < b := by
  unfold floorDiv
  rw [Int.fdiv_eq_ediv_of_nonneg _ hd.le]
  constructor
  · rw [Int.le_ediv_iff_mul_le hd]; nlinarith
  · rw [Int.ediv_lt_iff_lt_mul hd]; nlinarith

theorem kM_eq : kM = 46917639786159 := rfl

/-- The interval that brackets the power decides the line (R150, R152). -/
theorem biasFrom_interval (l : List BiasRow) (lo : BiasRow) (p : Int) (i : Nat) (hi : i < l.length)
    (hasc : ∀ j (hj : j < l.length), ((lo :: l)[j]'(by simp; omega)).p.toInt < (l[j]).p.toInt)
    (h1 : ((lo :: l)[i]'(by simp; omega)).p.toInt ≤ p) (h2 : p < (l[i]).p.toInt) :
    biasFrom lo l p = biasLine ((lo :: l)[i]'(by simp; omega)) l[i] p := by
  induction l generalizing lo i with
  | nil => simp at hi
  | cons x l ih =>
    cases i with
    | zero => simp only [List.getElem_cons_zero] at h1 h2 ⊢; simp [biasFrom, h2]
    | succ i =>
      simp only [List.getElem_cons_succ] at h1 h2 ⊢
      simp only [List.length_cons] at hi
      have hx : x.p.toInt ≤ ((x :: l)[i]'(by simp; omega)).p.toInt := by
        clear ih h1 h2
        have : ∀ j (hj : j < (x :: l).length), x.p.toInt ≤ ((x :: l)[j]).p.toInt := by
          intro j
          induction j with
          | zero => intro _; simp
          | succ j ihj =>
            intro hj
            simp only [List.length_cons] at hj
            have a := ihj (by simp; omega)
            have b := hasc (j + 1) (by simp; omega)
            simp only [List.getElem_cons_succ] at b ⊢
            omega
        exact this i (by simp; omega)
      have hnp : ¬ p < x.p.toInt := by omega
      simp only [biasFrom, hnp, if_false]
      apply ih x i (by omega) _ h1 h2
      intro j hj
      have b := hasc (j + 1) (by simp; omega)
      simpa using b

theorem biasFrom_above (l : List BiasRow) (lo : BiasRow) (p : Int)
    (h : ∀ x ∈ l, x.p.toInt ≤ p) : biasFrom lo l p = ((lo :: l).getLast (by simp)).b.toInt * mmDu := by
  induction l generalizing lo with
  | nil => rfl
  | cons x l ih =>
    have hx : ¬ p < x.p.toInt := by have := h x (by simp); omega
    simp only [biasFrom, hx, if_false]
    rw [ih x (fun y hy => h y (by simp [hy]))]
    rw [List.getLast_cons (a := lo) (l := x :: l) (by simp)]

theorem tableBias_low {t : BiasTable} {p : Int} (h : p ≤ (t[0]).p.toInt) : tableBias t p = (t[0]).b.toInt * mmDu := by
  simp [tableBias, h]

/-- The powers of a table ascend strictly (R11, R151). -/
def Asc (t : BiasTable) : Prop := ∀ i : Fin 17, (t[i.castSucc]).p.toInt < (t[i.succ]).p.toInt

theorem asc_mono {t : BiasTable} (h : Asc t) : ∀ (i j : Nat) (hj : j < 18) (hij : i ≤ j), (t[i]).p.toInt ≤ (t[j]).p.toInt := by
  intro i j
  induction j with
  | zero => intro hj hij; have : i = 0 := by omega
            subst this; exact Int.le_refl _
  | succ j ih =>
    intro hj hij
    by_cases he : i = j + 1
    · subst he; exact Int.le_refl _
    · have a := ih (by omega) (by omega)
      have b := h ⟨j, by omega⟩
      simp only [Fin.castSucc_mk, Fin.succ_mk, Fin.getElem_fin] at b
      omega

theorem toList_eq_cons (t : BiasTable) : t.toList = t[0] :: t.toList.tail := by
  have h : t.toList ≠ [] := by
    intro h; have := congrArg List.length h; simp at this
  rw [← List.cons_head_tail h]
  simp [List.head_eq_getElem]

theorem tableBias_interval {t : BiasTable} (ha : Asc t) {p : Int} (i : Fin 17) (h1 : (t[i.castSucc]).p.toInt ≤ p)
    (h2 : p < (t[i.succ]).p.toInt) : tableBias t p = biasLine t[i.castSucc] t[i.succ] p := by
  have hm := asc_mono ha
  by_cases h0 : p ≤ (t[0]).p.toInt
  · have hb := hm 0 i.val (by omega) (by omega)
    have hi : i = 0 := by
      by_contra hne
      have : 0 < i.val := Nat.pos_of_ne_zero (fun h => hne (Fin.ext h))
      have c1 := ha 0
      have c2 := hm 1 i.val (by omega) (by omega)
      simp only [Fin.getElem_fin, Fin.val_castSucc, Fin.val_succ, Fin.val_zero, Nat.zero_add] at *
      omega
    subst hi
    have e : p = (t[0]).p.toInt := by
      simp only [Fin.getElem_fin, Fin.val_castSucc, Fin.val_zero] at *; omega
    rw [tableBias_low h0, biasLine]
    simp only [Fin.getElem_fin, Fin.val_castSucc, Fin.val_zero]
    rw [e]; simp [floorDiv]
  · rw [tableBias, if_neg h0]
    have hlen : t.toList.tail.length = 17 := by simp
    have hg : ∀ j (hj : j < 18), (t[0] :: t.toList.tail)[j]'(by simp; omega) = t[j] := by
      intro j hj
      have : (t[0] :: t.toList.tail)[j]'(by simp; omega) = t.toList[j]'(by simp; omega) := by
        congr 1; exact (toList_eq_cons t).symm
      rw [this]; simp
    have hg' : ∀ j (hj : j < 17), (t.toList.tail)[j]'(by omega) = t[j + 1] := by
      intro j hj
      simp
    have := biasFrom_interval t.toList.tail t[0] p i.val (by omega) ?_ ?_ ?_
    · rw [this, hg i.val (by omega), hg' i.val (by omega)]; rfl
    · intro j hj
      rw [hg j (by omega), hg' j (by omega)]
      exact ha ⟨j, by omega⟩
    · rw [hg i.val (by omega)]; exact h1
    · rw [hg' i.val (by omega)]; exact h2

theorem tableBias_high {t : BiasTable} (ha : Asc t) {p : Int} (h : (t[17]).p.toInt ≤ p) : tableBias t p = (t[17]).b.toInt * mmDu := by
  have hm := asc_mono ha
  have c1 := ha 0
  have c2 := hm 1 17 (by omega) (by omega)
  simp only [Fin.getElem_fin, Fin.val_castSucc, Fin.val_succ, Fin.val_zero, Nat.zero_add] at c1
  have h0 : ¬ p ≤ (t[0]).p.toInt := by omega
  rw [tableBias, if_neg h0, biasFrom_above]
  · have : (t[0] :: t.toList.tail).getLast (by simp) = t[17] := by
      have : (t[0] :: t.toList.tail).getLast (by simp) = t.toList.getLast (by intro h; have := congrArg List.length h; simp at this) := by
        congr 1; exact (toList_eq_cons t).symm
      rw [this, List.getLast_eq_getElem]; simp
    rw [this]
  · intro x hx
    obtain ⟨j, hj, rfl⟩ := List.getElem_of_mem hx
    have hj' : j < 17 := by simpa using hj
    have := hm (j + 1) 17 (by omega) (by omega)
    simp
    omega

theorem mmDu_eq : mmDu = 10 ^ 13 := by norm_num [mmDu]

theorem biasLine_at_hi {lo hi : BiasRow} (h : lo.p.toInt < hi.p.toInt) : biasLine lo hi hi.p.toInt = hi.b.toInt * mmDu := by
  unfold biasLine floorDiv
  rw [Int.fdiv_eq_ediv_of_nonneg _ (by omega), Int.mul_ediv_cancel _ (by omega)]
  ring

theorem tableBias_closed {t : BiasTable} (ha : Asc t) {p : Int} (i : Fin 17) (h1 : (t[i.castSucc]).p.toInt ≤ p)
    (h2 : p ≤ (t[i.succ]).p.toInt) : tableBias t p = biasLine t[i.castSucc] t[i.succ] p := by
  by_cases h : p < (t[i.succ]).p.toInt
  · exact tableBias_interval ha i h1 h
  · have e : p = (t[i.succ]).p.toInt := by omega
    rw [e, biasLine_at_hi (ha i)]
    by_cases hi : i.val < 16
    · have := tableBias_interval ha (p := (t[i.succ]).p.toInt) ⟨i.val + 1, by omega⟩ (Int.le_refl _) (ha ⟨i.val + 1, by omega⟩)
      rw [this]
      unfold biasLine floorDiv
      simp only [Fin.getElem_fin, Fin.val_castSucc, Fin.val_succ]
      simp
    · have : i = 16 := Fin.ext (by have := i.isLt; show i.val = 16; omega)
      subst this
      exact tableBias_high ha (Int.le_refl _)

theorem biasLine_bounds {lo hi : BiasRow} {p : Int} (h1 : lo.p.toInt ≤ p) (h2 : p < hi.p.toInt) :
    -2 ^ 80 < biasLine lo hi p ∧ biasLine lo hi p < 2 ^ 80 := by
  have b1 := BitVec.le_toInt lo.b; have b2 := BitVec.toInt_lt (x := lo.b)
  have b3 := BitVec.le_toInt hi.b; have b4 := BitVec.toInt_lt (x := hi.b)
  unfold biasLine floorDiv
  rw [mmDu_eq, Int.fdiv_eq_ediv_of_nonneg _ (by omega)]
  generalize lo.b.toInt = x at *
  generalize hi.b.toInt = y at *
  generalize hd : hi.p.toInt - lo.p.toInt = d
  generalize hq : p - lo.p.toInt = q
  have hq0 : 0 ≤ q := by omega
  have hqd : q < d := by omega
  have hd0 : 0 < d := by omega
  have k1 : -(2 ^ 76) ≤ (y - x) * 10 ^ 13 * q / d := by
    rw [Int.le_ediv_iff_mul_le hd0]
    have : -(2 ^ 76) ≤ (y - x) * 10 ^ 13 := by omega
    nlinarith
  have k2 : (y - x) * 10 ^ 13 * q / d < 2 ^ 76 := by
    rw [Int.ediv_lt_iff_lt_mul hd0]
    have : (y - x) * 10 ^ 13 < 2 ^ 76 := by omega
    nlinarith
  omega

theorem biasFrom_bounds (l : List BiasRow) (lo : BiasRow) (p : Int) (h : lo.p.toInt ≤ p) :
    -2 ^ 80 < biasFrom lo l p ∧ biasFrom lo l p < 2 ^ 80 := by
  induction l generalizing lo with
  | nil =>
    have b1 := BitVec.le_toInt lo.b; have b2 := BitVec.toInt_lt (x := lo.b)
    simp only [biasFrom, mmDu_eq]; omega
  | cons x l ih =>
    unfold biasFrom
    split
    · exact biasLine_bounds h (by assumption)
    · exact ih x (by omega)

theorem tableBias_bounds (t : BiasTable) (p : Int) : -2 ^ 80 < tableBias t p ∧ tableBias t p < 2 ^ 80 := by
  unfold tableBias
  split
  · have b1 := BitVec.le_toInt (t[0]).b; have b2 := BitVec.toInt_lt (x := (t[0]).b)
    rw [mmDu_eq]; omega
  · exact biasFrom_bounds _ _ _ (by omega)

theorem correctionBias_bounds (s : State) : -2 ^ 80 < correctionBias s ∧ correctionBias s < 2 ^ 80 := by
  unfold correctionBias
  split
  · exact tableBias_bounds _ _
  · norm_num

theorem toInt_bias (s : State) : (correctRange s).rmu.bias.toInt = correctionBias s := by
  have := correctionBias_bounds s
  exact toInt_toTs (by omega) (by omega)

theorem asc_table (p : Params) (k : Fin 4) : Asc (p.biasRom[k]) := fun i => p.ascending k i


/-- `DIST` where the corrected distance does not fit keeps R38's bound. -/
theorem distOf_overflow {c : Int} {n : Nat} (h : 2 ^ 127 ≤ c) : 10 ^ 13 ≤ (distOf c n).toInt := by
  have hm := maxTs_eq
  have hc : ¬ c ≤ maxTs := by omega
  rw [distOf, if_neg hc]
  exact (Config.distOverflow n).atLeast

/-- The bits of `RANGE_STATUS` that `RNG.CORRECT` writes and leaves (R150). -/
theorem getLsbD_rsCorrected (high low clamped : Bool) (v : BitVec 8) (i : Nat) :
    (rsCorrected high low clamped v).getLsbD i =
      if i < 4 then v.getLsbD i
      else if i = 4 then true else if i = 5 then clamped else if i = 6 then low else decide (i = 7) && high := by
  by_cases h : i < 8
  · simp only [rsCorrected, BitVec.getLsbD_append]
    interval_cases i <;> simp
  · rw [BitVec.getLsbD_of_ge _ _ (by omega)]
    simp [show ¬ i < 4 by omega, show i ≠ 4 by omega, show i ≠ 5 by omega, show i ≠ 6 by omega, show i ≠ 7 by omega]

/-- Everything `RNG.CORRECT` leaves in the registers it writes, the kept bits of `RANGE_STATUS` apart. -/
theorem corrected_correctRange (s : State) :
    Corrected s.biasEn (selectedTable s) (rxpwrValue s) (distRawValue s) (correctRange s).rmu := by
  have hbias := toInt_bias s
  have ha : Asc (selectedTable s) := asc_table _ _
  have hm := maxTs_eq
  constructor
  · intro he; rw [hbias, correctionBias, he]; rfl
  · intro he h; rw [hbias, correctionBias, he, if_pos rfl, tableBias_low h, mmDu_eq]
  · intro he h; rw [hbias, correctionBias, he, if_pos rfl, tableBias_high ha h, mmDu_eq]
  · intro he i h1 h2
    rw [hbias, correctionBias, he, if_pos rfl, tableBias_interval ha i h1 h2, biasLine, mmDu_eq]; rfl
  · intro h
    rw [hbias] at h
    simp only [correctRange, h, decide_true, if_true]
    exact toInt_toTs (by norm_num [distEps]) (by norm_num [distEps])
  · intro h1 h2
    rw [hbias] at h1 h2 ⊢
    have hn : ¬ (distRawValue s + correctionBias s ≤ 0) := by omega
    have hc : distRawValue s + correctionBias s ≤ maxTs := by omega
    simp only [correctRange, hn, decide_false, distOf, hc, if_true]
    exact toInt_toTs (by omega) (by omega)
  · intro h
    rw [hbias] at h
    have hn : ¬ (distRawValue s + correctionBias s ≤ 0) := by omega
    simp only [correctRange, hn, decide_false]
    exact distOf_overflow h
  · simp only [correctRange, getLsbD_rsCorrected]; rfl
  · rw [hbias]; simp only [correctRange, getLsbD_rsCorrected]; simp
  · simp only [correctRange, getLsbD_rsCorrected, powerLow]; simp
  · simp only [correctRange, getLsbD_rsCorrected, powerHigh]; simp

/-- R38's bound on `DIST` holds after every correction but the one whose corrected distance is positive and below `DIST_EPS`,
which R150, R154 and the vectors V68 and V70 leave as it is (log entry 6). -/
theorem le_dist_correctRange {s : State}
    (h : distRawValue s + correctionBias s ≤ 0 ∨ 10 ^ 13 ≤ distRawValue s + correctionBias s) :
    10 ^ 13 ≤ (correctRange s).rmu.dist.toInt := by
  have hc := corrected_correctRange s
  have hb := toInt_bias s
  rcases h with h | h
  · exact (hc.clamp (hb ▸ h)).ge
  · by_cases hf : distRawValue s + correctionBias s < 2 ^ 127
    · rw [hc.exact (by rw [hb]; omega) (hb ▸ hf), hb]; exact h
    · exact hc.overflow (by rw [hb]; omega)

theorem biasAfter_eq {s : State} {k : Fin 4} (hb : s.busy = false) (he : s.biasEn = true) (hk : s.rmu.biaskey.toNat = k.val) (p : BitVec 32) :
    biasAfter s p = tableBias s.params.biasRom[k] p.toInt := by
  have hb' : State.busy { s with rmu := { s.rmu with rxpwr := p } } = false := hb
  rw [biasAfter, exec_rngCorrect hb']
  simp only [toInt_bias]
  have he' : State.biasEn { s with rmu := { s.rmu with rxpwr := p } } = true := he
  rw [correctionBias, he', if_pos rfl]
  have : biasKeyIndex { s with rmu := { s.rmu with rxpwr := p } } = k := Fin.ext hk
  simp only [selectedTable, this]
  rfl

theorem step_le (m r d : Int) (hd0 : 0 < d) : |m * (r + 1) / d - m * r / d| ≤ -(-|m| / d) := by
  have hm : m * (r + 1) = m * r + m := by ring
  rw [hm]
  generalize m * r = n
  have e1 := Int.emod_add_mul_ediv n d
  have e2 := Int.emod_nonneg n hd0.ne'
  have e3 := Int.emod_lt_of_pos n hd0
  have f1 := Int.emod_add_mul_ediv (n + m) d
  have f2 := Int.emod_nonneg (n + m) hd0.ne'
  have f3 := Int.emod_lt_of_pos (n + m) hd0
  have g1 := Int.emod_add_mul_ediv (-|m|) d
  have g2 := Int.emod_nonneg (-|m|) hd0.ne'
  have m1 := le_abs_self m
  have m2 := neg_abs_le m
  generalize n / d = A at *
  generalize (n + m) / d = B at *
  generalize -|m| / d = C at *
  generalize n % d = x at *
  generalize (n + m) % d = y at *
  generalize -|m| % d = z at *
  generalize |m| = M at *
  have k1 : d * (B - A) ≤ x - y - d * C := by
    have : d * (B - A) = d * B - d * A := by ring
    omega
  have k2 : d * C + x - y ≤ d * (B - A) := by
    have : d * (B - A) = d * B - d * A := by ring
    omega
  rw [abs_le]
  constructor
  · by_contra hc
    have h : B - A ≤ C - 1 := by omega
    have := mul_le_mul_of_nonneg_left h hd0.le
    have e : d * (C - 1) = d * C - d := by ring
    omega
  · by_contra hc
    have h : -C + 1 ≤ B - A := by omega
    have := mul_le_mul_of_nonneg_left h hd0.le
    have e : d * (-C + 1) = -(d * C) + d := by ring
    omega

theorem line_step (x r d : Int) (hd0 : 0 < d) (m : Int) :
    |x + m * (r + 1) / d - (x + m * r / d)| ≤ -(-|m| / d) := by
  have : x + m * (r + 1) / d - (x + m * r / d) = m * (r + 1) / d - m * r / d := by ring
  rw [this]; exact step_le m r d hd0

theorem tableBias_step {t : BiasTable} (ha : Asc t) {p : Int} (i : Fin 17) (h1 : (t[i.castSucc]).p.toInt ≤ p)
    (h2 : p + 1 ≤ (t[i.succ]).p.toInt) :
    |tableBias t (p + 1) - tableBias t p| ≤
      -Int.fdiv (-(|(t[i.succ]).b.toInt - (t[i.castSucc]).b.toInt| * 10 ^ 13)) ((t[i.succ]).p.toInt - (t[i.castSucc]).p.toInt) := by
  rw [tableBias_closed ha i h1 (by omega), tableBias_closed ha i (by omega) h2]
  have hd := ha i
  unfold biasLine floorDiv
  generalize (t[i.succ]).b.toInt = y at *
  generalize (t[i.castSucc]).b.toInt = x at *
  generalize (t[i.succ]).p.toInt = u at *
  generalize (t[i.castSucc]).p.toInt = v at *
  have h0 : 0 < u - v := by omega
  rw [Int.fdiv_eq_ediv_of_nonneg _ h0.le, Int.fdiv_eq_ediv_of_nonneg _ h0.le, Int.fdiv_eq_ediv_of_nonneg _ h0.le, mmDu_eq,
    show p + 1 - v = (p - v) + 1 by ring, show |y - x| * (10 : Int) ^ 13 = |(y - x) * 10 ^ 13| by rw [abs_mul]; norm_num]
  exact line_step _ _ _ h0 _

theorem tableBias_mono {t : BiasTable} (ha : Asc t) {p q : Int} (i : Fin 17) (h1 : (t[i.castSucc]).p.toInt ≤ p)
    (h2 : p ≤ q) (h3 : q ≤ (t[i.succ]).p.toInt) (hm : (t[i.castSucc]).b.toInt ≤ (t[i.succ]).b.toInt) :
    tableBias t p ≤ tableBias t q := by
  rw [tableBias_closed ha i h1 (by omega), tableBias_closed ha i (by omega) h3]
  have hd := ha i
  unfold biasLine floorDiv
  generalize (t[i.succ]).b.toInt = y at *
  generalize (t[i.castSucc]).b.toInt = x at *
  generalize (t[i.succ]).p.toInt = u at *
  generalize (t[i.castSucc]).p.toInt = v at *
  have h0 : 0 < u - v := by omega
  rw [Int.fdiv_eq_ediv_of_nonneg _ h0.le, Int.fdiv_eq_ediv_of_nonneg _ h0.le, mmDu_eq]
  have : (y - x) * 10 ^ 13 * (p - v) ≤ (y - x) * 10 ^ 13 * (q - v) :=
    mul_le_mul_of_nonneg_left (by omega) (by omega)
  have := Int.ediv_le_ediv h0 this
  omega

theorem tableBias_anti {t : BiasTable} (ha : Asc t) {p q : Int} (i : Fin 17) (h1 : (t[i.castSucc]).p.toInt ≤ p)
    (h2 : p ≤ q) (h3 : q ≤ (t[i.succ]).p.toInt) (hm : (t[i.succ]).b.toInt ≤ (t[i.castSucc]).b.toInt) :
    tableBias t q ≤ tableBias t p := by
  rw [tableBias_closed ha i h1 (by omega), tableBias_closed ha i (by omega) h3]
  have hd := ha i
  unfold biasLine floorDiv
  generalize (t[i.succ]).b.toInt = y at *
  generalize (t[i.castSucc]).b.toInt = x at *
  generalize (t[i.succ]).p.toInt = u at *
  generalize (t[i.castSucc]).p.toInt = v at *
  have h0 : 0 < u - v := by omega
  rw [Int.fdiv_eq_ediv_of_nonneg _ h0.le, Int.fdiv_eq_ediv_of_nonneg _ h0.le, mmDu_eq]
  have : (y - x) * 10 ^ 13 * (q - v) ≤ (y - x) * 10 ^ 13 * (p - v) :=
    mul_le_mul_of_nonpos_left (by omega) (by omega)
  have := Int.ediv_le_ediv h0 this
  omega


end Sys2Proof.Machine
end

