-- ==== Sys2Proof/Laws/Session.lean ====
section
/-! SUPPORT. The session step: which rule a wait state runs, the state a received frame is judged in, and the hand-over of
an encoded frame to the transceiver. -/

namespace Sys2Proof.Machine

theorem canonical_iff (s : State) : buffersCanonical s = true ↔ Memory.wf s.tx.buf = true ∧ Memory.wf s.rx.buf = true := by
  simp [buffersCanonical]

theorem octetsKept_of_bufs {s t : State} (h1 : t.tx.buf = s.tx.buf) (h2 : t.rx.buf = s.rx.buf) : OctetsKept s t := by
  intro b off; simp only [hostBufReadValue, h1, h2]

theorem decOk_setDecOk (b : Bool) (s : State) : (s.setDecOk b).decOk = b := by simp [State.decOk, State.setDecOk, State.setStatusBit]

theorem statusKept_setDecOk (b : Bool) (s : State) : StatusKept [6] s (s.setDecOk b) := by
  intro i hi
  have h2 : ¬ 6 = i.val := fun h => hi (by simp [h])
  simp [State.setDecOk, State.setStatusBit, h2]

theorem decodedFrom_congr {k : Kind} {r : Rx} {buf : Memory} (h : ∀ i, i < minLen k → readOctet buf i = readOctet r.buf i) :
    decodedFrom { r with buf := buf } k = { decodedFrom r k with buf := buf } := by
  cases k <;> simp only [minLen] at h <;> simp only [decodedFrom, num16, num32, num64] <;> simp (disch := omega) only [h]

theorem len_encodeFrame (k : Kind) (s : State) :
    (encodeFrame k s).tx.len.toNat = (frameOf s.params s.tx k).length := by cases k <;> rfl

/-- What an encode from the field registers `x` stores (R170), in a state `u` that differs from `s` elsewhere. -/
theorem encoded_encodeFrame {k : Kind} {s u : State} {x : Tx} (hx : u.tx = x) (hp : u.params = s.params)
    (hbuf : x.buf = s.tx.buf) (hw : Memory.wf s.tx.buf = true) : Encoded x k s (encodeFrame k u) where
  octets := by
    intro off hoff
    have hw' : Memory.wf u.tx.buf = true := by rw [hx, hbuf]; exact hw
    simp only [hostBufReadValue, frameMax, hoff, if_true, readOctet_encodeFrame k u hw' off, hp, hx, hbuf]
  len := by rw [len_encodeFrame, hp, hx]
  seq := by rw [← hx]; rfl
  fields := by rw [← hx]; rfl

/-- `Encoded` reads the transmit side only. -/
theorem encoded_of_tx {k : Kind} {s t u : State} {x : Tx} (h : Encoded x k s u) (ht : t.tx = u.tx) : Encoded x k s t where
  octets := by
    intro off hoff
    rw [← h.octets off hoff]
    simp only [hostBufReadValue, ht]
  len := by rw [ht]; exact h.len
  seq := by rw [ht]; exact h.seq
  fields := by rw [ht]; exact h.fields

/-- An encode and the hand-over of the frame to the transceiver (R172), as one record update of the state before. -/
theorem transmit_encodeFrame {k : Kind} {u : State} (hw : Memory.wf u.tx.buf = true) :
    transmit (encodeFrame k u) =
      { u with tx := (encodeFrame k u).tx, calls := u.calls ++ [.transmit (frameOf u.params u.tx k)] } := by
  rw [transmit, txFrame_encodeFrame k u hw]; rfl

theorem transmitDelayed_encodeFrame {k : Kind} {u : State} (fut : Raw40) (hw : Memory.wf u.tx.buf = true) :
    transmitDelayed fut (encodeFrame k u) =
      { u with tx := (encodeFrame k u).tx, calls := u.calls ++ [.transmitDelayed (frameOf u.params u.tx k) fut] } := by
  rw [transmitDelayed, txFrame_encodeFrame k u hw]; rfl

theorem kind_transmitWait {f : FsmState} (h : f ∈ transmitWaits) : f.kind = .transmitWait := by
  revert h; cases f <;> simp [transmitWaits, FsmState.kind]
theorem kind_receiveWait {f : FsmState} (h : f ∈ receiveWaits) : f.kind = .receiveWait := by
  revert h; cases f <;> simp [receiveWaits, FsmState.kind]

theorem engineStep_transmit {s : State} {a : TrxAnswers} (hb : s.busy = true) (hf : s.ctl.fsm ∈ transmitWaits) :
    engineStep a s = transmitWait a s := by simp [engineStep, hb, kind_transmitWait hf]
theorem engineStep_receive {s : State} {a : TrxAnswers} (hb : s.busy = true) (hf : s.ctl.fsm ∈ receiveWaits) :
    engineStep a s = receiveWait a s := by simp [engineStep, hb, kind_receiveWait hf]

/-- The state in which a receive wait state's own rule runs (R262). -/
def heardFrame (a : TrxAnswers) (s : State) : State :=
  loadFrame a.frame (((s.call .isHardwareFault).call .isReceiveDone).call .getReceivedFrame)

theorem engineStep_done {s : State} {a : TrxAnswers} (hb : s.busy = true) (hf : s.ctl.fsm ∈ transmitWaits)
    (h1 : a.hwFault = false) (h2 : a.txDone = true) :
    engineStep a s = onTransmitDone a ((s.call .isHardwareFault).call .isTransmitDone) := by
  rw [engineStep_transmit hb hf]; simp [transmitWait, h1, h2]
theorem engineStep_frame {s : State} {a : TrxAnswers} (hb : s.busy = true) (hf : s.ctl.fsm ∈ receiveWaits)
    (h1 : a.hwFault = false) (h2 : a.rxDone = true) :
    engineStep a s = onReceiveDone a (heardFrame a s) := by
  rw [engineStep_receive hb hf]; simp [receiveWait, h1, h2, heardFrame]

theorem setBit_false_zero (v : BitVec 7) : setBit v 0 false = v &&& 0b1111110#7 := by
  simp only [setBit]; rfl

theorem call_call (c d : TrxCall) (s : State) : (s.call c).call d = { s with calls := s.calls ++ [c, d] } := by
  simp [State.call]

theorem readT_clear_other {r : Reg} (h : r ∉ ([8, 9, 10, 11, 12, 13] : List Reg)) (s : State) :
    readT r (clearExchange s) = readT r s := by
  rw [readT_clearExchange, if_neg]
  obtain ⟨n, hn⟩ := r
  intro ⟨h1, h2⟩
  simp only at h1 h2
  apply h
  interval_cases n <;> simp
theorem timestampsKept_clear (s : State) : TimestampsKept [8, 9, 10, 11, 12, 13] s (clearExchange s) := fun _ h => readT_clear_other h s
theorem exchangeCleared_clear (s : State) : ExchangeCleared (clearExchange s) :=
  ⟨fun r h1 h2 => by rw [readT_clearExchange, if_pos ⟨h1, h2⟩], rfl⟩

/-- A read of `T[r]` looks at the timestamp unit only. -/
theorem readT_congr {s t : State} (h : t.tsu = s.tsu) (r : Reg) : readT r t = readT r s := by simp only [readT, h]

theorem exchangeCleared_of_tsu {s t : State} (h : t.tsu = (clearExchange s).tsu) : ExchangeCleared t :=
  ⟨fun r h1 h2 => by rw [readT_congr h]; exact (exchangeCleared_clear s).regs r h1 h2,
    by rw [h]; exact (exchangeCleared_clear s).mask⟩

theorem timestampsKept_of_tsu {s t : State} (h : t.tsu = (clearExchange s).tsu) :
    TimestampsKept [8, 9, 10, 11, 12, 13] s t := fun r hr => by rw [readT_congr h]; exact readT_clear_other hr s

theorem sat_raw (v : Raw40) : sat (rawValue v) = v.toNat := by
  have := v.isLt
  rw [sat_of_fits]; · rfl
  rw [fitsTs_iff, rawValue]; omega
theorem fits_raw (v : Raw40) : fitsTs (rawValue v) = true := by
  have := v.isLt
  rw [fitsTs_iff, rawValue]; omega

theorem writeT_fits {rd : Reg} {r : Int} {s : State} (h : fitsTs r = true) :
    writeT rd r s = { s with tsu := { s.tsu with tregs := s.tsu.tregs.set rd (toTs r), exchMask := markExch rd s.tsu.exchMask } } := by
  rw [writeT, noteOverflow, h, sat_of_fits h]; rfl
theorem ctl_writeT_raw (rd : Reg) (v : Raw40) (s : State) : (writeT rd (rawValue v) s).ctl = s.ctl := by
  show noteOverflow _ _ = _
  rw [noteOverflow, fits_raw]; rfl


/-- The state after a receive wait state has loaded and accepted a frame of kind `k` that starts with `x`'s (R262, R176). -/
def acceptedFrame (a : TrxAnswers) (x : Tx) (k : Kind) (s : State) : State :=
  { s with
    ctl := { s.ctl with status := setBit s.ctl.status 6 true }
    rx := copiedFrom s.params x k (loadFrame a.frame s).rx
    calls := s.calls ++ [.isHardwareFault, .isReceiveDone, .getReceivedFrame] }

theorem decodeFrame_heardFrame {a : TrxAnswers} {s : State} {x : Tx} {k : Kind}
    (hc : buffersCanonical s = true) (hp : Presents s a x k) :
    decodeFrame k (heardFrame a s) = (acceptedFrame a x k s, none) := by
  obtain ⟨_, _, extra, he⟩ := hp
  have hw : Memory.wf s.rx.buf = true := by
    simp only [buffersCanonical, Bool.and_eq_true] at hc; exact hc.2
  rw [heardFrame, decodeFrame_loadFrame (s := ((s.call .isHardwareFault).call .isReceiveDone).call .getReceivedFrame)
    (x := x) (extra := extra) hw he]
  simp [acceptedFrame, State.setDecOk, State.setStatusBit, loadFrame, State.call]

theorem decodeEither_heardFrame {a : TrxAnswers} {s : State} {x : Tx} {k : Kind}
    (hk : k = .confirm ∨ k = .finished) (hc : buffersCanonical s = true) (hp : Presents s a x k) :
    decodeEither (heardFrame a s) = (acceptedFrame a x k s, none) := by
  have hp' := hp
  obtain ⟨_, _, extra, he⟩ := hp'
  have hw : Memory.wf s.rx.buf = true := by
    simp only [buffersCanonical, Bool.and_eq_true] at hc; exact hc.2
  have hl : 0 < (heardFrame a s).rx.len.toNat := by
    rw [heardFrame, toNat_loadFrame_len, he, List.length_append, length_frameOf]
    cases k <;> simp [minLen]
  have h0 : readOctet (heardFrame a s).rx.buf 0 = codeOfKind s.params k := by
    rw [heardFrame, readOctet_loadFrame_of_append (s := ((s.call .isHardwareFault).call .isReceiveDone).call .getReceivedFrame)
      (l := frameOf s.params x k) hw he 0 (by rw [length_frameOf]; cases k <;> decide)]
    cases k <;> rfl
  rw [← decodeFrame_heardFrame hc hp]
  rcases hk with rfl | rfl
  · exact decodeEither_confirm hl h0
  · exact decodeEither_finished hl h0

theorem heard_acceptedFrame {a : TrxAnswers} {s t : State} {x : Tx} {k : Kind} (hc : buffersCanonical s = true)
    (h : t.rx = (acceptedFrame a x k s).rx) (hst : t.ctl.status = setBit s.ctl.status 6 true) :
    Heard x k a s t ∧ StatusKept [6] s t := by
  have hw : Memory.wf s.rx.buf = true := by
    simp only [buffersCanonical, Bool.and_eq_true] at hc; exact hc.2
  have hlen : t.rx.len = (loadFrame a.frame s).rx.len := by rw [h]; cases k <;> rfl
  have hbuf : t.rx.buf = (loadFrame a.frame s).rx.buf := by rw [h]; cases k <;> rfl
  refine ⟨⟨?_, ?_, ?_, ?_⟩, ?_⟩
  · intro off ho
    have := readOctet_loadFrame a.frame s hw off
    simp only [hostBufReadValue, frameMax, ho, if_true, hbuf, this]
  · rw [hlen, toNat_loadFrame_len]
  · rw [hlen, hbuf, h]; cases k <;> rfl
  · rw [State.decOk, hst]; simp
  · intro i hi
    have : ¬ 6 = i.val := fun h => hi (by simp [h])
    rw [hst]; simp [this]

theorem anchorRanging_iff (f : FsmState) : f.anchorRanging = true ↔ 10 ≤ f.code.toNat ∧ f.code.toNat ≤ 15 := by
  cases f <;> simp [FsmState.anchorRanging, FsmState.code]

/-- All that a failure does (R264). -/
theorem failedWith_raiseErr (c : ErrClass) (d : ErrDetail) {s u : State} (hf : u.ctl.fsm = s.ctl.fsm) (hr : u.ses.result = s.ses.result) :
    FailedWith c d s (raiseErr c d u) where
  err := by rw [← hf]; rfl
  fsm := rfl
  busy := busy_raiseErr c d u
  result := by
    have h := anchorRanging_iff s.ctl.fsm
    simp only [raiseErr, hf]
    by_cases hh : s.ctl.fsm.anchorRanging = true
    · rw [if_pos hh, if_pos (h.1 hh)]; rfl
    · rw [if_neg hh, if_neg (fun h' => hh (h.2 h'))]; exact hr

theorem failedQuietly_raiseErr (c : ErrClass) (d : ErrDetail) {s u : State} {calls : List TrxCall} (hc : u.calls = s.calls ++ calls)
    (h1 : u.tsu = s.tsu) (h2 : u.rmu = s.rmu) (h3 : u.tx = s.tx) (h4 : u.ses = s.ses) (h5 : u.ctl.ctrl = s.ctl.ctrl)
    (h6 : u.ctl.cmdErrCode = s.ctl.cmdErrCode) (h7 : u.trx = s.trx) (h8 : u.params = s.params)
    (h9 : u.sched = s.sched) (h10 : u.replies = s.replies) (h11 : u.free = s.free) :
    FailedQuietly calls s (raiseErr c d u) where
  calls := hc
  tsu := h1
  rmu := h2
  tx := h3
  ses := by
    simp only [raiseErr]
    split
    · simp only [State.setResult, h4]
    · simp only [h4]
  ctrl := h5
  cmdErrCode := h6
  trx := h7
  params := h8
  sched := h9
  replies := h10
  free := h11

theorem statusKept_raiseErr (c : ErrClass) (d : ErrDetail) {s u : State} {l : List Nat} (h : StatusKept l s u) : StatusKept (0 :: l) s (raiseErr c d u) := by
  intro i hi
  simp only [List.mem_cons, not_or] at hi
  show (setBit u.ctl.status 0 false).getLsbD i = _
  have h1 : ¬ 0 = i.val := fun h => hi.1 h.symm
  rw [getLsbD_setBit]; simp only [h1, false_and, if_false]
  exact h i hi.2

/-- A decode that fails ends the receive step (R177 (b)). -/
theorem onReceiveDone_fail {a : TrxAnswers} {u v : State} {d : ErrDetail} (hf : u.ctl.fsm ∈ receiveWaits)
    (h1 : ∀ k, expectedKinds u.ctl.fsm = [k] → decodeFrame k u = (v, some d))
    (h2 : expectedKinds u.ctl.fsm = [.confirm, .finished] → decodeEither u = (v, some d)) :
    onReceiveDone a u = raiseErr .protocolViolation d v := by
  unfold onReceiveDone
  revert hf h1 h2
  generalize hg : u.ctl.fsm = f
  cases f <;> intro hf h1 h2 <;> first
    | (exfalso; revert hf; decide)
    | (simp only [onInitiation, onResponse, onPoll, onFinal, onBlink, h1 _ rfl, withDecoded])
    | (simp only [onConfirm, h2 rfl, withDecoded])

theorem heard_raiseErr {x : Tx} {k : Kind} {a : TrxAnswers} {s u : State} (c : ErrClass) (d : ErrDetail) (hc : buffersCanonical s = true)
    (h : u.rx = (acceptedFrame a x k s).rx) (hst : u.ctl.status = setBit s.ctl.status 6 true) : Heard x k a s (raiseErr c d u) := by
  have hh := (heard_acceptedFrame hc h hst).1
  refine ⟨hh.octets, hh.len, hh.fields, ?_⟩
  show (setBit u.ctl.status 0 false).getLsbD 6 = true
  rw [hst]; simp


/-- `u` is the state `s` in which a session step passes judgement: only the record of calls, `DEC_OK` and the receive
registers may differ. -/
structure Judged (s u : State) : Prop where
  fsm : u.ctl.fsm = s.ctl.fsm
  err : u.ctl.err = s.ctl.err
  ctrl : u.ctl.ctrl = s.ctl.ctrl
  cmdErrCode : u.ctl.cmdErrCode = s.ctl.cmdErrCode
  status : StatusKept [6] s u
  tsu : u.tsu = s.tsu
  rmu : u.rmu = s.rmu
  ses : u.ses = s.ses
  tx : u.tx = s.tx
  params : u.params = s.params
  trx : u.trx = s.trx
  sched : u.sched = s.sched
  replies : u.replies = s.replies
  free : u.free = s.free
  calls : s.calls <+: u.calls
  buf : Memory.wf s.rx.buf = true → Memory.wf u.rx.buf = true

theorem Judged.refl (s : State) : Judged s s :=
  ⟨rfl, rfl, rfl, rfl, fun _ _ => rfl, rfl, rfl, rfl, rfl, rfl, rfl, rfl, rfl, rfl, List.prefix_refl _, id⟩

theorem Judged.call {s u : State} (h : Judged s u) (c : TrxCall) : Judged s (u.call c) :=
  ⟨h.fsm, h.err, h.ctrl, h.cmdErrCode, h.status, h.tsu, h.rmu, h.ses, h.tx, h.params, h.trx, h.sched, h.replies, h.free,
    h.calls.trans (List.prefix_append _ _), h.buf⟩

theorem Judged.loadFrame {s u : State} (h : Judged s u) (f : Frame) : Judged s (loadFrame f u) :=
  ⟨h.fsm, h.err, h.ctrl, h.cmdErrCode, h.status, h.tsu, h.rmu, h.ses, h.tx, h.params, h.trx, h.sched, h.replies, h.free,
    h.calls, fun hw => writeOctets_wf (h.buf hw) (by have := f.fits; simp only [frameMax]; omega)⟩

theorem Judged.rx {s u : State} (h : Judged s u) {st : BitVec 7} {r : Rx} (hs : StatusKept [6] s { u with ctl := { u.ctl with status := st } })
    (hr : r.buf = u.rx.buf) : Judged s { u with ctl := { u.ctl with status := st }, rx := r } :=
  ⟨h.fsm, h.err, h.ctrl, h.cmdErrCode, hs, h.tsu, h.rmu, h.ses, h.tx, h.params, h.trx, h.sched, h.replies, h.free,
    h.calls, fun hw => by show Memory.wf r.buf = true; rw [hr]; exact h.buf hw⟩

theorem Judged.busy {s u : State} (h : Judged s u) : u.busy = s.busy := h.status 0 (by decide)

theorem statusKept_setDecOk' {s u : State} (b : Bool) (h : StatusKept [6] s u) : StatusKept [6] s (u.setDecOk b) := by
  intro i hi
  rw [statusKept_setDecOk b u i hi]; exact h i hi

theorem decodedFrom_buf (r : Rx) (k : Kind) : (decodedFrom r k).buf = r.buf := by cases k <;> rfl

/-- A decode accepts, or fails with `TRUNCATED` or `BAD_FC`; it touches `DEC_OK` and the receive registers only. -/
theorem Judged.decodeFrame {s u : State} (h : Judged s u) (k : Kind) :
    Judged s (decodeFrame k u).1 ∧
      ((decodeFrame k u).2 = none ∨ (decodeFrame k u).2 = some .truncated ∨ (decodeFrame k u).2 = some .badFc) := by
  have hk (b : Bool) := statusKept_setDecOk' b h.status
  by_cases h0 : u.rx.len.toNat = 0
  · rw [decodeFrame_empty k u (BitVec.eq_of_toNat_eq (by simpa using h0))]
    exact ⟨h.rx (hk false) rfl, .inr (.inl rfl)⟩
  have hpos : 0 < u.rx.len.toNat := by omega
  by_cases hc : readOctet u.rx.buf 0 = codeOfKind u.params k
  · by_cases hl : u.rx.len.toNat < minLen k
    · rw [decodeFrame_short k u hpos hc hl]; exact ⟨h.rx (hk false) rfl, .inr (.inl rfl)⟩
    · rw [decodeFrame_accept k u hc (by omega)]; exact ⟨h.rx (hk true) (decodedFrom_buf _ _), .inl rfl⟩
  · rw [decodeFrame_badFc k u hpos hc]; exact ⟨h.rx (hk false) rfl, .inr (.inr rfl)⟩

theorem Judged.decodeEither {s u : State} (h : Judged s u) :
    Judged s (decodeEither u).1 ∧
      ((decodeEither u).2 = none ∨ (decodeEither u).2 = some .truncated ∨ (decodeEither u).2 = some .badFc) := by
  by_cases h0 : u.rx.len.toNat = 0
  · rw [decodeEither_empty (BitVec.eq_of_toNat_eq (by simpa using h0))]
    exact ⟨h.rx (statusKept_setDecOk' false h.status) rfl, .inr (.inl rfl)⟩
  have hpos : 0 < u.rx.len.toNat := by omega
  by_cases hc : readOctet u.rx.buf 0 = u.params.fcConfirm
  · rw [decodeEither_confirm hpos hc]; exact h.decodeFrame _
  by_cases hf : readOctet u.rx.buf 0 = u.params.fcFinished
  · rw [decodeEither_finished hpos hf]; exact h.decodeFrame _
  · rw [decodeEither_badFc hpos hc hf]
    exact ⟨h.rx (statusKept_setDecOk' false h.status) rfl, .inr (.inr rfl)⟩

/-- The failures a step's own tests can raise (R260), the range's apart. -/
def StepFailure (c : ErrClass) (d : ErrDetail) : Prop :=
  (c = .hardwareFault ∧ d = .none) ∨ (c = .exchangeTimeout ∧ d = .none) ∨
    (c = .protocolViolation ∧ (d = .truncated ∨ d = .badFc ∨ d = .addrMismatch ∨ d = .notContinue))

/-- What a step that raises no failure of its own tests does, by the state it is in (R191 to R202, R222 to R231, R241,
R242). -/
def carryOn (a : TrxAnswers) (u : State) : State :=
  match u.ctl.fsm with
  | .blinkSent => startListening .awaitingInitiation u
  | .pollSent => startListening .awaitingResponse u
  | .finalSent => startListening .awaitingConfirm u
  | .responseSent => onResponseSent a u
  | .confirmSent | .finishedSent => finishAnchor u
  | .initiationSent => finishAdmit u
  | .awaitingInitiation =>
    sendPoll { setOwnShortAddress u.rx.arg u with ses := { u.ses with anchorAddr := u.rx.src } }
  | .awaitingResponse =>
    (transmitDelayed (a.sysTime + u.ses.replyDelay) (encodeFrame .final
      (loadFinalFields u.trx.shortAddr (recordTagTimes a (a.sysTime + u.ses.replyDelay) u)))).goto .finalSent
  | .awaitingConfirm => if u.rx.fc = u.params.fcConfirm then chainToNext (countExchange u) else finishTag (countExchange u)
  | .awaitingPoll =>
    (transmit (encodeFrame .resp
      { writeT prReg (rawValue a.rxTime) ((clearExchange { u with ses := { u.ses with peerAddr := u.rx.src } }).call .getReceiveTimestamp)
        with tx := { u.tx with dst := u.rx.src, src := u.trx.shortAddr, act := u.params.actContinue } })).goto .responseSent
  | .awaitingFinal =>
    rangeExchange (loadBiasInputs a (rebuildTagTimes (writeT frReg (rawValue a.rxTime) (u.call .getReceiveTimestamp))))
  | .awaitingBlink => acceptBlink u
  | .nextAnchor => sendPoll u
  | .rangeComputed => sendVerdict u
  | .idle | .done | .failed | .admitted => u

theorem withDecoded_cases {s : State} {d : State × Option ErrDetail} {rest : State → State}
    (h1 : Judged s d.1) (h2 : d.2 = none ∨ d.2 = some .truncated ∨ d.2 = some .badFc) :
    (∃ u, Judged s u ∧ withDecoded d rest = rest u) ∨
    (∃ c e u, StepFailure c e ∧ Judged s u ∧ withDecoded d rest = raiseErr c e u) := by
  obtain ⟨u, o⟩ := d
  rcases h2 with h2 | h2 | h2 <;> (simp only at h2 h1; subst h2)
  · exact .inl ⟨u, h1, rfl⟩
  · exact .inr ⟨_, _, u, .inr (.inr ⟨rfl, .inl rfl⟩), h1, rfl⟩
  · exact .inr ⟨_, _, u, .inr (.inr ⟨rfl, .inr (.inl rfl)⟩), h1, rfl⟩

/-- All that an engine step of a running session can do (R262 to R267). -/
theorem engineStep_cases {a : TrxAnswers} {s : State} (hb : s.busy = true) :
    (∃ l, engineStep a s = { s with calls := s.calls ++ l }) ∨
    (∃ c d u, StepFailure c d ∧ Judged s u ∧ engineStep a s = raiseErr c d u) ∨
    (∃ u, Judged s u ∧ engineStep a s = carryOn a u) := by
  have hj := Judged.refl s
  by_cases hT : s.ctl.fsm ∈ transmitWaits
  · by_cases hh : a.hwFault = true
    · refine .inr (.inl ⟨.hardwareFault, .none, s.call .isHardwareFault, .inl ⟨rfl, rfl⟩, hj.call _, ?_⟩)
      rw [engineStep_transmit hb hT, transmitWait]; simp [hh]
    · by_cases hd : a.txDone = true
      · refine .inr (.inr ⟨_, (hj.call .isHardwareFault).call .isTransmitDone, ?_⟩)
        rw [engineStep_done hb hT (by simpa using hh) hd, onTransmitDone, carryOn]
        simp only [State.call_ctl]
        revert hT; generalize s.ctl.fsm = f
        cases f <;> intro hT <;> first
          | rfl
          | (exfalso; revert hT; decide)
      · refine .inl ⟨[.isHardwareFault, .isTransmitDone], ?_⟩
        rw [engineStep_transmit hb hT, transmitWait]; simp [hh, hd, State.call]
  by_cases hR : s.ctl.fsm ∈ receiveWaits
  · by_cases hh : a.hwFault = true
    · refine .inr (.inl ⟨.hardwareFault, .none, s.call .isHardwareFault, .inl ⟨rfl, rfl⟩, hj.call _, ?_⟩)
      rw [engineStep_receive hb hR, receiveWait]; simp [hh]
    · by_cases hd : a.rxDone = true
      · have hfr := engineStep_frame hb hR (by simpa using hh) hd
        have hv : Judged s (heardFrame a s) := (((hj.call .isHardwareFault).call .isReceiveDone).call .getReceivedFrame).loadFrame a.frame
        rw [hfr]
        right
        have key : ∀ (d : State × Option ErrDetail) (rest : State → State),
            (Judged s d.1 ∧ (d.2 = none ∨ d.2 = some .truncated ∨ d.2 = some .badFc)) →
            (∀ u, Judged s u → (∃ e v, StepFailure .protocolViolation e ∧ Judged s v ∧ rest u = raiseErr .protocolViolation e v) ∨
              (∃ v, Judged s v ∧ rest u = carryOn a v)) →
            onReceiveDone a (heardFrame a s) = withDecoded d rest →
            (∃ c d u, StepFailure c d ∧ Judged s u ∧ onReceiveDone a (heardFrame a s) = raiseErr c d u) ∨
            (∃ u, Judged s u ∧ onReceiveDone a (heardFrame a s) = carryOn a u) := by
          intro d rest hd hrest he
          rw [he]
          rcases withDecoded_cases (rest := rest) hd.1 hd.2 with ⟨u, hu, e⟩ | ⟨c, e, u, h1, h2, h3⟩
          · rw [e]
            rcases hrest u hu with ⟨e, v, h1, h2, h3⟩ | ⟨v, h1, h2⟩
            · exact .inl ⟨_, _, v, h1, h2, h3⟩
            · exact .inr ⟨v, h1, h2⟩
          · exact .inl ⟨c, e, u, h1, h2, h3⟩
        have addr : StepFailure .protocolViolation .addrMismatch := .inr (.inr ⟨rfl, .inr (.inr (.inl rfl))⟩)
        have ncont : StepFailure .protocolViolation .notContinue := .inr (.inr ⟨rfl, .inr (.inr (.inr rfl))⟩)
        have hff : (heardFrame a s).ctl.fsm = s.ctl.fsm := rfl
        have go : ∀ f, s.ctl.fsm = f → ∀ u, Judged s u → u.ctl.fsm = f := fun f h u hu => hu.fsm.trans h
        cases hf : s.ctl.fsm
        case awaitingInitiation =>
          refine key (decodeFrame .rinit (heardFrame a s)) acceptInitiation (hv.decodeFrame _) (fun u hu => ?_) (by rw [onReceiveDone, hff, hf]; rfl)
          by_cases hc : u.rx.eui ≠ u.trx.eui
          · exact .inl ⟨_, _, addr, hu.call _, if_pos hc⟩
          · refine .inr ⟨_, hu.call .getOwnExtendedIdentifier, (if_neg hc).trans ?_⟩
            rw [carryOn, (hu.call _).fsm, hf]; rfl
        case awaitingResponse =>
          refine key (decodeFrame .resp (heardFrame a s)) (acceptResponse a) (hv.decodeFrame _) (fun u hu => ?_) (by rw [onReceiveDone, hff, hf]; rfl)
          by_cases hc : u.rx.dst ≠ u.trx.shortAddr ∨ u.rx.src ≠ u.ses.anchorAddr
          · exact .inl ⟨_, _, addr, hu.call _, if_pos hc⟩
          · by_cases hc' : u.rx.act ≠ u.params.actContinue
            · exact .inl ⟨_, _, ncont, hu.call _, (if_neg hc).trans (if_pos hc')⟩
            · refine .inr ⟨_, hu.call .getOwnShortAddress, ((if_neg hc).trans (if_neg hc')).trans ?_⟩
              rw [carryOn, (hu.call _).fsm, hf]
        case awaitingConfirm =>
          refine key (decodeEither (heardFrame a s)) acceptConfirm hv.decodeEither (fun u hu => ?_) (by rw [onReceiveDone, hff, hf]; rfl)
          by_cases hc : u.rx.dst ≠ u.trx.shortAddr ∨ u.rx.src ≠ u.ses.anchorAddr
          · exact .inl ⟨_, _, addr, hu.call _, if_pos hc⟩
          · refine .inr ⟨_, hu.call .getOwnShortAddress, (if_neg hc).trans ?_⟩
            rw [carryOn, (hu.call _).fsm, hf]; rfl
        case awaitingPoll =>
          refine key (decodeFrame .poll (heardFrame a s)) (acceptPoll a) (hv.decodeFrame _) (fun u hu => ?_) (by rw [onReceiveDone, hff, hf]; rfl)
          by_cases hc : u.rx.dst ≠ u.trx.shortAddr
          · exact .inl ⟨_, _, addr, hu.call _, if_pos hc⟩
          · refine .inr ⟨_, hu.call .getOwnShortAddress, (if_neg hc).trans ?_⟩
            rw [carryOn, (hu.call _).fsm, hf]; rfl
        case awaitingFinal =>
          refine key (decodeFrame .final (heardFrame a s)) (acceptFinal a) (hv.decodeFrame _) (fun u hu => ?_) (by rw [onReceiveDone, hff, hf]; rfl)
          by_cases hc : u.rx.dst ≠ u.trx.shortAddr ∨ u.rx.src ≠ u.ses.peerAddr
          · exact .inl ⟨_, _, addr, hu.call _, if_pos hc⟩
          · refine .inr ⟨_, hu.call .getOwnShortAddress, (if_neg hc).trans ?_⟩
            rw [carryOn, (hu.call _).fsm, hf]
        case awaitingBlink =>
          refine key (decodeFrame .blink (heardFrame a s)) acceptBlink (hv.decodeFrame _) (fun u hu => ?_) (by rw [onReceiveDone, hff, hf]; rfl)
          refine .inr ⟨u, hu, ?_⟩
          rw [carryOn, hu.fsm, hf]
        all_goals (exfalso; revert hR; rw [hf]; decide)
      · by_cases ho : a.rxTimedOut = true
        · refine .inr (.inl ⟨.exchangeTimeout, .none, _, .inr (.inl ⟨rfl, rfl⟩), (((hj.call .isHardwareFault).call .isReceiveDone).call .isReceiveTimedOut).call .forceIdle, ?_⟩)
          rw [engineStep_receive hb hR, receiveWait]; simp [hh, hd, ho]
        · refine .inl ⟨[.isHardwareFault, .isReceiveDone, .isReceiveTimedOut], ?_⟩
          rw [engineStep_receive hb hR, receiveWait]; simp [hh, hd, ho, State.call]
  · cases hf : s.ctl.fsm
    case nextAnchor => exact .inr (.inr ⟨s, hj, by simp [engineStep, hb, hf, FsmState.kind, internalStep, carryOn]⟩)
    case rangeComputed => exact .inr (.inr ⟨s, hj, by simp [engineStep, hb, hf, FsmState.kind, internalStep, carryOn]⟩)
    case idle => exact .inl ⟨[], by simp [engineStep, hb, hf, FsmState.kind]⟩
    case done => exact .inl ⟨[], by simp [engineStep, hb, hf, FsmState.kind]⟩
    case failed => exact .inl ⟨[], by simp [engineStep, hb, hf, FsmState.kind]⟩
    case admitted => exact .inl ⟨[], by simp [engineStep, hb, hf, FsmState.kind]⟩
    all_goals (exfalso; rw [hf] at hT hR; revert hT hR; decide)

end Sys2Proof.Machine
end

