-- ==== Sys2Proof/Laws/SessionStep.lean ====
section
/-! SUPPORT. What a session step that carries on leaves in the control registers, and the anchor's ranging step: the
completed exchange it computes from and its three ways out. -/

namespace Sys2Proof.Machine

theorem rangeExchange_cases (u : State) :
    ((computeRange u).rangeInvalid = true ∧ rangeExchange u = raiseErr .rangeInvalid .diffInvalid (computeRange u)) ∨
    ((computeRange u).rangeInvalid = false ∧ (computeRange u).rangeDivzero = true ∧ rangeExchange u = raiseErr .rangeInvalid .divZero (computeRange u)) ∨
    ((computeRange u).rangeInvalid = false ∧ (computeRange u).rangeDivzero = false ∧ rangeExchange u = (correctRange (computeRange u)).goto .rangeComputed) := by
  unfold rangeExchange
  cases h1 : (computeRange u).rangeInvalid
  · cases h2 : (computeRange u).rangeDivzero
    · right; right; simp [h1, h2]
    · right; left; simp [h1, h2]
  · left; simp [h1]

theorem computeRange_keeps (u : State) : (computeRange u).ctl = u.ctl ∧ (computeRange u).ses = u.ses ∧ (computeRange u).tx = u.tx ∧
    (computeRange u).rx = u.rx ∧ (computeRange u).params = u.params ∧ (computeRange u).trx = u.trx ∧ (computeRange u).calls = u.calls ∧
    (computeRange u).sched = u.sched ∧ (computeRange u).replies = u.replies := by
  unfold computeRange
  split <;> exact ⟨rfl, rfl, rfl, rfl, rfl, rfl, rfl, rfl, rfl⟩


/-- The state in which the anchor computes its range: its exchange complete, the bias inputs loaded (R227, R228). -/
def completedExchange (a : TrxAnswers) (u : State) : State :=
  loadBiasInputs a (rebuildTagTimes (writeT frReg (rawValue a.rxTime) (u.call .getReceiveTimestamp)))

theorem diff32_bounds (x y : BitVec 32) : 0 ≤ diff32 x y ∧ diff32 x y < 2 ^ 32 := by
  have := (x - y).isLt
  simp only [diff32]; omega

/-- The rebuilt times fit their registers and ascend (R227). -/
theorem rebuiltTimes_fit (r : Rx) :
    fitsTs (r.ts0.toNat : Int) = true ∧ fitsTs ((r.ts0.toNat : Int) + diff32 r.ts1 r.ts0) = true ∧
      fitsTs ((r.ts0.toNat : Int) + diff32 r.ts1 r.ts0 + diff32 r.ts2 r.ts1) = true := by
  have h0 := r.ts0.isLt
  have h1 := diff32_bounds r.ts1 r.ts0
  have h2 := diff32_bounds r.ts2 r.ts1
  refine ⟨?_, ?_, ?_⟩ <;> rw [fitsTs_iff] <;> omega

theorem completedExchange_eq (a : TrxAnswers) (u : State) :
    completedExchange a u = { u with
      tsu := { u.tsu with
        tregs := (completedExchange a u).tsu.tregs
        exchMask := markExch fsReg (markExch rrReg (markExch psReg (markExch frReg u.tsu.exchMask))) }
      rmu := { u.rmu with rxpwr := a.rxPower, biaskey := biasKeyOf u.rmu.bandMap u.trx.channel u.trx.prf }
      calls := u.calls ++ [.getReceiveTimestamp, .getReceivePowerDbm, .getChannel, .getPulseRepetitionFrequency] } := by
  obtain ⟨h1, h2, h3⟩ := rebuiltTimes_fit u.rx
  have e : rebuildTagTimes (writeT frReg (rawValue a.rxTime) (u.call .getReceiveTimestamp)) =
      writeT fsReg ((u.rx.ts0.toNat : Int) + diff32 u.rx.ts1 u.rx.ts0 + diff32 u.rx.ts2 u.rx.ts1)
        (writeT rrReg ((u.rx.ts0.toNat : Int) + diff32 u.rx.ts1 u.rx.ts0) (writeT psReg (u.rx.ts0.toNat : Int)
          (writeT frReg (rawValue a.rxTime) (u.call .getReceiveTimestamp)))) := rfl
  rw [completedExchange, e, writeT_fits h1, writeT_fits h2, writeT_fits h3, writeT_fits (fits_raw _)]
  simp only [loadBiasInputs, State.call, List.append_assoc]
  rfl

theorem readT_completedExchange (a : TrxAnswers) (u : State) (r : Reg) :
    readT r (completedExchange a u) =
      if r = 12 then (u.rx.ts0.toNat : Int) + diff32 u.rx.ts1 u.rx.ts0 + diff32 u.rx.ts2 u.rx.ts1
      else if r = 11 then (u.rx.ts0.toNat : Int) + diff32 u.rx.ts1 u.rx.ts0
      else if r = 8 then (u.rx.ts0.toNat : Int)
      else if r = 13 then (a.rxTime.toNat : Int) else readT r u := by
  obtain ⟨h1, h2, h3⟩ := rebuiltTimes_fit u.rx
  have e : readT r (completedExchange a u) =
      readT r (writeT fsReg ((u.rx.ts0.toNat : Int) + diff32 u.rx.ts1 u.rx.ts0 + diff32 u.rx.ts2 u.rx.ts1)
        (writeT rrReg ((u.rx.ts0.toNat : Int) + diff32 u.rx.ts1 u.rx.ts0) (writeT psReg (u.rx.ts0.toNat : Int)
          (writeT frReg (rawValue a.rxTime) (u.call .getReceiveTimestamp))))) := rfl
  rw [e]
  simp only [readT_writeT, sat_of_fits h1, sat_of_fits h2, sat_of_fits h3, sat_raw]
  rfl

/-- The control registers after a step that carries on (R204, R221, R242), the anchor's ranging step apart. -/
theorem ctl_carryOn (a : TrxAnswers) (u : State) (h : u.ctl.fsm ≠ .awaitingFinal) :
    (carryOn a u).ctl =
      match u.ctl.fsm with
      | .blinkSent => { u.ctl with fsm := .awaitingInitiation }
      | .pollSent => { u.ctl with fsm := .awaitingResponse }
      | .finalSent => { u.ctl with fsm := .awaitingConfirm }
      | .responseSent => { u.ctl with fsm := .awaitingFinal }
      | .confirmSent | .finishedSent => { u.ctl with status := setBit u.ctl.status 0 false }
      | .initiationSent => { u.ctl with fsm := .admitted, status := setBit u.ctl.status 0 false }
      | .awaitingInitiation | .nextAnchor => { u.ctl with fsm := .pollSent }
      | .awaitingResponse => { u.ctl with fsm := .finalSent }
      | .awaitingConfirm =>
        if u.rx.fc = u.params.fcConfirm then { u.ctl with fsm := .nextAnchor }
        else { u.ctl with fsm := .done, status := setBit u.ctl.status 0 false }
      | .awaitingPoll => { u.ctl with fsm := .responseSent }
      | .awaitingBlink => { u.ctl with fsm := .initiationSent }
      | .rangeComputed => { u.ctl with fsm := if u.policy then .confirmSent else .finishedSent }
      | .awaitingFinal | .idle | .done | .failed | .admitted => u.ctl := by
  unfold carryOn
  cases hf : u.ctl.fsm <;> simp only
  case awaitingFinal => exact absurd hf h
  case responseSent =>
    simp only [onResponseSent, startListening]
    rw [writeT_fits (fits_raw _)]; rfl
  case awaitingResponse =>
    simp only [recordTagTimes]
    rw [writeT_fits (fits_raw _), writeT_fits (fits_raw _), writeT_fits (fits_raw _)]; rfl
  case awaitingPoll => rw [writeT_fits (fits_raw _)]; rfl
  case awaitingConfirm => split <;> rfl
  case rangeComputed =>
    simp only [sendVerdict]
    split
    · rename_i hp; have hp' : u.policy = true := hp; simp only [hp']; rfl
    · rename_i hp; have hp' : u.policy = false := Bool.eq_false_iff.2 hp
      simp only [hp']; rfl
  all_goals rfl


theorem carryOn_awaitingFinal {a : TrxAnswers} {u : State} (h : u.ctl.fsm = .awaitingFinal) :
    carryOn a u = rangeExchange (completedExchange a u) := by
  rw [carryOn, h]; rfl

theorem ctl_computeRange_completedExchange (a : TrxAnswers) (u : State) :
    (computeRange (completedExchange a u)).ctl = u.ctl := by
  rw [(computeRange_keeps _).1, completedExchange_eq]


/-- With both of the anchor's own times valid, every leg of the completed exchange is valid (R229). -/
theorem legsValid_completedExchange (a : TrxAnswers) (u : State) (h9 : ValidTs (readT 9 u)) (h10 : ValidTs (readT 10 u)) :
    legsValid (exchangeLegs (completedExchange a u)) = true := by
  have h0 := u.rx.ts0.isLt
  have hr := a.rxTime.isLt
  have h1 := diff32_bounds u.rx.ts1 u.rx.ts0
  have h2 := diff32_bounds u.rx.ts2 u.rx.ts1
  have r := readT_completedExchange a u
  have r8 : readT 8 (completedExchange a u) = _ := r 8
  have r9 : readT 9 (completedExchange a u) = readT 9 u := r 9
  have r10 : readT 10 (completedExchange a u) = readT 10 u := r 10
  have r11 : readT 11 (completedExchange a u) = _ := r 11
  have r12 : readT 12 (completedExchange a u) = _ := r 12
  have r13 : readT 13 (completedExchange a u) = _ := r 13
  simp at r8 r11 r12 r13
  rw [legsValid_iff, round1_eq, reply1_eq, round2_eq, reply2_eq, r8, r9, r10, r11, r12, r13]
  unfold ValidTs wrappedDiff at *
  refine ⟨?_, ?_, ?_, ?_⟩ <;> split <;> omega

theorem exchMask_completedExchange (a : TrxAnswers) (u : State) (h : u.tsu.exchMask = 0b000110#6) :
    (completedExchange a u).tsu.exchMask = 0b111111#6 := by
  rw [completedExchange_eq]
  show markExch fsReg (markExch rrReg (markExch psReg (markExch frReg u.tsu.exchMask))) = _
  rw [h]; decide

/-- What `RNG.COMPUTE` leaves in `RANGE_STATUS`. -/
theorem rangeStatus_computeRange (s : State) :
    (computeRange s).rmu.rangeStatus =
      if s.tsu.exchMask = 0b111111#6 then
        if legsValid (exchangeLegs s) then (if tofDenominator (exchangeLegs s) = 0 then rsDivzero else rsComputed) else rsInvalid
      else rsIncomplete := by
  by_cases h : s.tsu.exchMask = 0b111111#6
  · rw [computeRange_complete h, if_pos h]
    simp only [rangeRegisters]
    split
    · split <;> rfl
    · rfl
  · rw [computeRange_incomplete h, if_neg h]

theorem rangeStatus_correctRange (s : State) : ∃ h l c, (correctRange s).rmu.rangeStatus = rsCorrected h l c s.rmu.rangeStatus ∧ ¬ (h = true ∧ l = true) := by
  refine ⟨_, _, _, rfl, ?_⟩
  simp only [powerLow, powerHigh, Bool.and_eq_true, decide_eq_true_eq]
  rintro ⟨⟨_, h1⟩, _, h2⟩
  have := asc_mono (asc_table s.params (biasKeyIndex s)) 0 17 (by omega) (by omega)
  simp only [selectedTable] at h1 h2
  omega

/-- What `FC.DEC` leaves as it was, and the errors it records (R177 (a)). -/
theorem decodeCommand_keeps (k : Kind) (s : State) : (decodeCommand k s).ctl.fsm = s.ctl.fsm ∧ (decodeCommand k s).busy = s.busy ∧
   (decodeCommand k s).tsu = s.tsu ∧ (decodeCommand k s).rmu = s.rmu ∧ ((decodeCommand k s).ctl.err = s.ctl.err ∨ ∃ d, (d = .truncated ∨ d = .badFc) ∧ (decodeCommand k s).ctl.err = ⟨.protocolViolation, d, s.ctl.fsm⟩) := by
  have hd := ((Judged.refl s).decodeFrame k)
  unfold decodeCommand
  split <;> (rename_i heq; rw [heq] at hd; obtain ⟨hd, hx⟩ := hd)
  · exact ⟨hd.fsm, hd.busy, hd.tsu, hd.rmu, .inl hd.err⟩
  · refine ⟨hd.fsm, hd.busy, hd.tsu, hd.rmu, .inr ?_⟩
    simp only [reduceCtorEq, false_or, Option.some.injEq] at hx
    exact ⟨_, hx, by rw [State.recordErr_err, hd.fsm]⟩

end Sys2Proof.Machine
end

