-- ==== Sys2Proof/Laws/Step.lean ====
section
/-! SUPPORT. One induction principle for the properties that every step keeps. -/

namespace Sys2Proof.Machine

/-- What a host write to a plain register never touches. -/
theorem writeReg_some {r : HostReg} {v : BitVec 128} {s t : State} (h : writeReg r v s = some t) :
    t.params = s.params ∧ t.trx = s.trx ∧ t.calls = s.calls ∧ t.replies = s.replies ∧ t.ctl.fsm = s.ctl.fsm ∧ t.ctl.status = s.ctl.status ∧ t.ctl.err = s.ctl.err ∧
    t.tx.buf = s.tx.buf ∧ t.rx.buf = s.rx.buf ∧ t.tx.len = s.tx.len ∧ t.rmu.rangeStatus = s.rmu.rangeStatus ∧ t.rmu.tofDen = s.rmu.tofDen ∧ t.tsu.exchMask = s.tsu.exchMask ∧ t.tsu.tregs = s.tsu.tregs := by
  cases r <;> simp only [writeReg] at h <;> cases h <;> exact ⟨rfl, rfl, rfl, rfl, rfl, rfl, rfl, rfl, rfl, rfl, rfl, rfl, rfl, rfl⟩


/-- The cases a property that every step keeps must be checked in: what the host can do, a command, a step of a running
session, reset. -/
structure Preserved (P : State → Prop) : Prop where
  outside : ∀ s l n, P s → P { s with sched := l, free := n }
  reject : ∀ s c, P s → P (s.reject c)
  reply : ∀ s r, P s → P (s.reply r)
  writeStatus : ∀ s v, P s → P (writeStatus v s)
  writeReg : ∀ s r v t, P s → s.busy = false → writeReg r v s = some t → P t
  bufWrite : ∀ s off v, P s → s.busy = false → off < frameMax → P { s with rx := { s.rx with buf := writeOctet s.rx.buf off v } }
  command : ∀ s i, P s → s.busy = false → P (commandBody i s)
  session : ∀ s a, P s → s.busy = true → P (engineStep a s)
  reset : ∀ s, P (resetEngine s)

theorem Preserved.exec {P : State → Prop} (h : Preserved P) {i : Instr} {s t : State} (hp : P s) (he : exec i s = .next t) : P t := by
  rw [exec_eq] at he
  cases he
  split
  · exact h.reject s _ hp
  · rename_i hb; exact h.command s i hp (by simpa using hb)

theorem Preserved.hostStep {P : State → Prop} (h : Preserved P) {op : HostOp} {s t : State} (hp : P s) (he : hostStep op s = .next t) : P t := by
  cases op with
  | read idx => cases he; exact h.reply s _ hp
  | bufRead b off => cases he; exact h.reply s _ hp
  | bufWrite b off v =>
    cases he
    unfold hostBufWrite
    split
    · exact h.reject s _ hp
    · rename_i hb
      split
      · exact h.reject s _ hp
      · split
        · rename_i ho; exact h.bufWrite s off v hp (by simpa using hb) ho
        · exact h.reject s _ hp
  | write idx v =>
    simp only [Machine.hostStep, hostWrite] at he
    split at he
    · simp only [submit] at he
      split at he
      · cases he; exact h.reject s _ hp
      · split at he
        · cases he; exact h.reject s _ hp
        · exact h.exec hp he
    · cases he; exact h.writeStatus s v hp
    · cases he; unfold writePlain
      split
      · exact h.reject s _ hp
      · rename_i hb
        split
        · exact h.reject s _ hp
        · split
          · exact h.reject s _ hp
          · rename_i hw; exact h.writeReg s _ v _ hp (by simpa using hb) hw

theorem Preserved.engineStep {P : State → Prop} (h : Preserved P) (a : TrxAnswers) {s : State} (hp : P s) : P (engineStep a s) := by
  by_cases hb : s.busy = true
  · exact h.session s a hp hb
  · rw [Machine.engineStep, if_neg hb]; exact hp

/-- One induction for every invariant: a property kept in each of these cases is kept by every step. -/
theorem Preserved.step {P : State → Prop} (h : Preserved P) {s t : State} (hp : P s) (he : step s = .next t) : P t := by
  unfold Machine.step at he
  split at he
  · cases he
    unfold idleStep
    split
    · exact h.engineStep _ (h.outside s s.sched (s.free + 1) hp)
    · exact hp
  · rename_i e rest _
    have hp' : P { s with sched := rest } := h.outside s rest s.free hp
    cases e with
    | reset => cases he; exact h.reset _
    | poll a => cases he; exact h.engineStep a hp'
    | host op => exact h.hostStep hp' he

end Sys2Proof.Machine
end

