-- ==== Sys2Proof/Tests/Slice0.lean ====
section
/-! SUPPORT. Tests: the smoke test of WellFormed, a word of every command written out from R91 to R94, at most two small
steps of every command with the values of the spec's derived vectors (95_test_vectors.md), and for every statement with
hypotheses a state that meets them. -/

namespace Sys2Proof.Tests

open Sys2Proof.Machine

/-! ### A small machine -/

/-- A bias table with breakpoints `p0`, `p0 + dp`, ... and biases `b0`, `b0 + db`, .... -/
def testTable (p0 dp b0 db : Int) : BiasTable :=
  Vector.ofFn fun i : Fin 18 => ⟨BitVec.ofInt 32 (p0 + dp * i.val), BitVec.ofInt 32 (b0 + db * i.val)⟩

/-- The function codes and the activity octet of TESTCFG, and tables 1 to 3 of it (table 0 simplified to a line). -/
def testParams : Params where
  fcBlink := 0xB0
  fcRangingInit := 0xB1
  fcPoll := 0xB2
  fcResponse := 0xB3
  fcFinal := 0xB4
  fcConfirm := 0xB5
  fcFinished := 0xB6
  actContinue := 0x02
  biasRom := #v[testTable (-95000) 2000 (-300) 20, testTable (-95000) 1500 100 (-7), testTable (-95000) 2000 0 0,
    testTable (-95000) 2000 (-1000) 10]
  confirm_ne_finished := by decide
  ascending := by decide

/-- The machine right after reset, with the test parameters and a transceiver of its own. -/
def base : State :=
  { State.reset with params := testParams, trx := ⟨0x0123456789ABCDEF#64, 0x5678#16, 0xDECA#16, 5#4, 0#1⟩ }

/-- `T[r]` at a value. -/
def withT (r : Reg) (v : Int) (s : State) : State := { s with tsu := { s.tsu with tregs := s.tsu.tregs.set r (toTs v) } }

/-- A complete exchange: the six timestamps and the full mask. -/
def withExchange (ps pr rs rr fs fr : Int) (s : State) : State :=
  let s := withT 13 fr (withT 12 fs (withT 11 rr (withT 10 rs (withT 9 pr (withT 8 ps s)))))
  { s with tsu := { s.tsu with exchMask := 0b111111#6 } }

/-- `RXLEN` and `RXBUF` holding a frame. -/
def withRx (l : List Octet) (s : State) : State :=
  { s with rx := { s.rx with len := BitVec.ofNat 7 l.length, buf := writeOctets [] 0 l } }

/-- A running session in state `f`. -/
def inSession (f : FsmState) (s : State) : State := { s with ctl := { s.ctl with fsm := f, status := 0b0000001#7 } }

/-- The inputs of `RNG.CORRECT`. -/
def withRange (d p : Int) (k : BitVec 2) (s : State) : State :=
  { s with rmu := { s.rmu with distRaw := toTs d, rxpwr := BitVec.ofInt 32 p, biaskey := k, rangeStatus := 0x01#8 } }

/-- The state after an instruction. -/
def after (i : Instr) (s : State) : State :=
  match exec i s with
  | .next t => t
  | .fault _ => s
  | .refused _ => s

/-- The state after one step. -/
def stepped (s : State) : State :=
  match step s with
  | .next t => t
  | .fault _ => s
  | .refused _ => s

/-- The transceiver's answers with nothing to report. -/
def quiet : TrxAnswers := ⟨false, false, false, false, ⟨[], by decide⟩, 0, 0, 0, 0⟩

/-! ### WellFormed: an ill-formed term for each check -/

theorem test_wf_fcEnc_kind7 : (Instr.fcEnc 7).wf = false := by decide
theorem test_wf_fcDec_kind15 : (Instr.fcDec 15).wf = false := by decide
theorem test_wf_fcEnc_kind6 : (Instr.fcEnc 6).wf = true := by decide
theorem test_wf_fcDec_kind0 : (Instr.fcDec 0).wf = true := by decide

/-! ### Decode: op 31:24, rd 23:20, ra 19:16, rb 15:12, bits 11:0 zero (R91, R92, R94) -/

theorem test_decode_tsFromraw : decode 0b00010000_1000_0000_0000_000000000000#32 = .ok (.tsFromraw 8) := by decide
theorem test_decode_tsToraw : decode 0b00010001_0000_0010_0000_000000000000#32 = .ok (.tsToraw 2) := by decide
theorem test_decode_tsAdd : decode 0b00010010_0010_0000_0001_000000000000#32 = .ok (.tsAdd 2 0 1) := by decide
theorem test_decode_tsSub : decode 0b00010011_0010_0000_0001_000000000000#32 = .ok (.tsSub 2 0 1) := by decide
theorem test_decode_tsMuls : decode 0b00010100_0001_0000_0000_000000000000#32 = .ok (.tsMuls 1 0) := by decide
theorem test_decode_tsDivs : decode 0b00010101_0110_0101_0000_000000000000#32 = .ok (.tsDivs 6 5) := by decide
theorem test_decode_tsMult : decode 0b00010110_0101_0001_0011_000000000000#32 = .ok (.tsMult 5 1 3) := by decide
theorem test_decode_tsDivt : decode 0b00010111_0010_0000_0001_000000000000#32 = .ok (.tsDivt 2 0 1) := by decide
theorem test_decode_tsWrap : decode 0b00011000_0011_0010_0000_000000000000#32 = .ok (.tsWrap 3 2) := by decide
theorem test_decode_tsValid : decode 0b00011001_0000_0010_0000_000000000000#32 = .ok (.tsValid 2) := by decide
theorem test_decode_tsTous : decode 0b00011010_0000_0111_0000_000000000000#32 = .ok (.tsTous 7) := by decide
theorem test_decode_tsTom : decode 0b00011011_0000_0111_0000_000000000000#32 = .ok (.tsTom 7) := by decide
theorem test_decode_rngCompute : decode 0b00100000_0000_0000_0000_000000000000#32 = .ok .rngCompute := by decide
theorem test_decode_rngCorrect : decode 0b00100001_0000_0000_0000_000000000000#32 = .ok .rngCorrect := by decide
theorem test_decode_fcEnc : decode 0b00110000_0110_0000_0000_000000000000#32 = .ok (.fcEnc 6) := by decide
theorem test_decode_fcDec : decode 0b00110001_0100_0000_0000_000000000000#32 = .ok (.fcDec 4) := by decide
theorem test_decode_sesTag : decode 0b01000000_0000_0000_0000_000000000000#32 = .ok .sesTag := by decide
theorem test_decode_sesAnchor : decode 0b01000001_0000_0000_0000_000000000000#32 = .ok .sesAnchor := by decide
theorem test_decode_sesAdmit : decode 0b01000010_0000_0000_0000_000000000000#32 = .ok .sesAdmit := by decide
theorem test_decode_sesClear : decode 0b01000011_0000_0000_0000_000000000000#32 = .ok .sesClear := by decide

/-- V87: the first unused opcode after `TS.TOM`. -/
theorem test_decode_V87 : decode 0x1C000000#32 = .error .illegalOpcode := by decide
/-- V88: `TS.FROMRAW` with `ra` = 1. -/
theorem test_decode_V88 : decode 0x10810000#32 = .error .reservedBits := by decide
/-- V93: the form is tested before the kind. -/
theorem test_decode_V93 : decode 0x30710000#32 = .error .reservedBits := by decide
theorem test_decodeTableWord : decodeTableWord 32 0x12201000 = some (.tsAdd 2 0 1) := by decide

/-! ### One step of every command, values of the derived vectors -/

/-- V1. -/
theorem test_fromraw_V1 : let t := after (.tsFromraw 8) { base with tsu := { base.tsu with rawin := 100000#40 } }
    readT 8 t = 100000 ∧ t.tsu.exchMask = 0b000001#6 := by decide
/-- V2. -/
theorem test_fromraw_V2 : readT 0 (after (.tsFromraw 0) { base with tsu := { base.tsu with rawin := 0xFFFFFFFFFF#40 } }) =
    1099511627775 := by decide
/-- V6. -/
theorem test_toraw_V6 : let t := after (.tsToraw 2) (withT 2 (-50000) base)
    t.tsu.rawout = 0xFFFFFF3CB0#40 ∧ t.rawInvalid = true := by decide
/-- V3. -/
theorem test_add_V3 : readT 2 (after (.tsAdd 2 0 1) (withT 1 1 (withT 0 1099511627775 base))) = 1099511627776 := by decide
/-- V7. -/
theorem test_add_V7 : readT 1 (after (.tsAdd 1 1 1) (withT 1 7 base)) = 14 := by decide
/-- V5. -/
theorem test_sub_V5 : readT 2 (after (.tsSub 2 0 1) (withT 1 150000 (withT 0 100000 base))) = -50000 := by decide
/-- V23: a difference below `MIN_TS` saturates. -/
theorem test_sub_V23 :
    let t := after (.tsSub 7 6 0) (withT 0 1099511627775 (withT 6 (-170141183460469231731687303715884105727) base))
    readT 7 t = -170141183460469231731687303715884105728 ∧ t.tsOvf = true := by decide
/-- V15. -/
theorem test_muls_V15 : readT 2 (after (.tsMuls 2 0)
    { withT 0 50000 base with tsu := { (withT 0 50000 base).tsu with scalar := 0xFFFFFFFFFFFFFFFF#64 } }) = -50000 := by decide
/-- V16. -/
theorem test_divs_V16 : readT 6 (after (.tsDivs 6 5)
    { withT 5 (-7) base with tsu := { (withT 5 (-7) base).tsu with scalar := 2#64 } }) = -4 := by decide
/-- V19. -/
theorem test_divs_V19 : let t := after (.tsDivs 7 5) (withT 5 7 base)
    readT 7 t = -170141183460469231731687303715884105728 ∧ t.ctl.status = 0x10#7 := by decide
/-- V22. -/
theorem test_mult_V22 :
    let t := after (.tsMult 3 2 0) (withT 2 1329227995781289095344966471291109375 (withT 0 1099511627775 base))
    readT 3 t = 170141183460469231731687303715884105727 ∧ t.ctl.status = 0x08#7 := by decide
/-- V20. -/
theorem test_divt_V20 : readT 2 (after (.tsDivt 2 0 1) (withT 1 260000 (withT 0 5200000000 base))) = 20000 := by decide
/-- V21. -/
theorem test_divt_V21 : let t := after (.tsDivt 3 0 4) (withT 0 5200000000 base)
    readT 3 t = -170141183460469231731687303715884105728 ∧ t.tsDivz = true := by decide
/-- V4. -/
theorem test_wrap_V4 : readT 3 (after (.tsWrap 3 2) (withT 2 1099511627776 base)) = 1099511627776 := by decide
/-- V12. -/
theorem test_wrap_V12 : readT 3 (after (.tsWrap 3 2) (withT 2 (-2199023255545) base)) = -1099511627769 := by decide
/-- V3 and V10. -/
theorem test_valid_V3 : (after (.tsValid 2) (withT 2 1099511627776 base)).tsValid = false := by decide
theorem test_valid_V10 : (after (.tsValid 3) (withT 3 1099511577776 base)).tsValid = true := by decide
/-- V24. -/
theorem test_tous_V24 : (after (.tsTous 0) (withT 0 63897600 base)).tsu.conv.toInt = 1000000000000027852800 := by decide
/-- V27. -/
theorem test_tom_V27 : (after (.tsTom 1) (withT 1 (-1) base)).tsu.conv.toInt = -46917639786159 := by decide
/-- V28. -/
theorem test_tom_V28 : let t := after (.tsTom 1) (withT 1 170141183460469231731687303715884105727 base)
    t.tsu.conv.toInt = 170141183460469231731687303715884105727 ∧ t.tsOvf = true := by decide
/-- V33: the division comes last. -/
theorem test_compute_V33 : let t := after .rngCompute (withExchange 0 0 10000 12133 42133 42134 base)
    t.rmu.tofNum.toInt = 89881822 ∧ t.rmu.tofDen.toInt = 84267 ∧ t.rmu.distRaw.toInt = 50043824366829972 := by decide
/-- V43: a difference above 2^40. -/
theorem test_compute_V43 :
    let t := after .rngCompute (withExchange (-3298534783325) 120000 130000 150000 230000 250000 base)
    t.rmu.rangeStatus = 0x04#8 ∧ t.rmu.round1.toInt = 3298534933325 := by decide
/-- V62: a negative slope, floor division. -/
theorem test_correct_V62 : let t := after .rngCorrect (withRange 938352795723180000 (-94999) 1 base)
    t.rmu.bias.toInt = 999953333333333 ∧ t.rmu.dist.toInt = 939352749056513333 := by decide
/-- V66: clamped. -/
theorem test_correct_V66 : let t := after .rngCorrect (withRange (-29247359866696520) (-75000) 2 base)
    t.rmu.dist.toInt = 10000000000000 ∧ t.rmu.rangeStatus = 0x31#8 := by decide
/-- V73e. -/
theorem test_fcEnc_V73e : (after (.fcEnc 4) { base with tx := { base.tx with
      seq := 4, dst := 0x5678#16, src := 0x1234#16, ts0 := 100000#32, ts1 := 150000#32, ts2 := 230000#32 } }).txFrame =
    [0xB4, 0x04, 0x78, 0x56, 0x34, 0x12, 0xA0, 0x86, 0x01, 0x00, 0xF0, 0x49, 0x02, 0x00, 0x70, 0x82, 0x03, 0x00] := by decide
/-- V75: `SEQ` wraps. -/
theorem test_fcEnc_V75 : (after (.fcEnc 2) { base with tx := { base.tx with seq := 0xFF } }).tx.seq = 0 := by decide
/-- V76b. -/
theorem test_fcDec_V76b :
    let t := after (.fcDec 1)
      (withRx [0xB1, 0x01, 0xCA, 0xDE, 0xEF, 0xCD, 0xAB, 0x89, 0x67, 0x45, 0x23, 0x01, 0x78, 0x56, 0x34, 0x12] base)
    t.rx.eui = 0x0123456789ABCDEF#64 ∧ t.rx.arg = 0x1234#16 ∧ t.decOk = true := by decide
/-- V82: the function code is tested before the length. -/
theorem test_fcDec_V82 : (after (.fcDec 2) (withRx [0xB3, 0x01] base)).ctl.err = ⟨.protocolViolation, .badFc, .idle⟩ := by
  decide
/-- R190. -/
theorem test_sesTag_blinks : let t := after .sesTag base
    t.ctl.fsm = .blinkSent ∧ t.txFrame = [0xB0, 0x00, 0xEF, 0xCD, 0xAB, 0x89, 0x67, 0x45, 0x23, 0x01] := by decide
/-- V94. -/
theorem test_sesTag_V94 : (after .sesTag { base with ctl := { base.ctl with fsm := .failed } }).ctl.cmdErrCode = .badState := by
  decide
/-- R220. -/
theorem test_sesAnchor_listens : let t := after .sesAnchor base
    t.ctl.fsm = .awaitingPoll ∧ t.calls = [.startReceive] := by decide
/-- R240. -/
theorem test_sesAdmit_listens : (after .sesAdmit base).ctl.fsm = .awaitingBlink := by decide
/-- V96. -/
theorem test_sesClear_V96 : (after .sesClear { base with ctl := { base.ctl with fsm := .failed } }).ctl.fsm = .idle := by decide
/-- V98. -/
theorem test_sesClear_V98 : (after .sesClear (inSession .awaitingPoll base)).ctl.cmdErrCode = .busy := by decide
/-- A command placed by `withFetchWord` is what the next step runs. -/
theorem test_withFetchWord : readT 2 (stepped ((withT 1 1 (withT 0 2 base)).withFetchWord 32 0x12201000)) = 3 := by decide

/-! ### Session steps, values of the derived vectors -/

/-- An anchor in `AwaitingFinal` whose Poll came at `pr` and whose answer left at `rs`, its peer `0x1234`. -/
def anchorWaiting (pr rs : Int) : State :=
  let s := withT 10 rs (withT 9 pr (inSession .awaitingFinal base))
  { s with tsu := { s.tsu with exchMask := 0b000110#6 }, ses := { s.ses with peerAddr := 0x1234#16 },
           rmu := { s.rmu with bandMap := 0 }, trx := { s.trx with prf := 1#1 } }

/-- The answers with a FinalMessage from `0x1234` to `0x5678` of these three times, heard at `fr` with power `p`. -/
def finalHeard (ts0 ts1 ts2 : BitVec 32) (fr : Raw40) (p : Int) : TrxAnswers :=
  { quiet with
    rxDone := true, rxTime := fr, rxPower := BitVec.ofInt 32 p
    frame := ⟨[0xB4, 0x02, 0x78, 0x56, 0x34, 0x12] ++ le32 ts0 ++ le32 ts1 ++ le32 ts2, by simp [le32]⟩ }

/-- V130: the tag's clock rolls over between its Poll and its FinalMessage. -/
theorem test_final_V130 :
    let t := engineStep (finalHeard 4294339520#32 4294389520#32 63329824#32 64657600#40 (-80250)) (anchorWaiting 700000 746000)
    t.rmu.distRaw.toInt = 93835279572318000 ∧ t.rmu.bias.toInt = 311666666666666 ∧ t.ctl.fsm = .rangeComputed := by decide
/-- V117: four differences of 0. -/
theorem test_final_V117 :
    let t := engineStep (finalHeard 100000#32 100000#32 100000#32 120000#40 (-80000)) (anchorWaiting 120000 120000)
    t.ctl.err = ⟨.rangeInvalid, .divZero, .awaitingFinal⟩ ∧ t.ses.result = 0b01#2 ∧ t.rmu.rangeStatus = 0x08#8 := by decide
/-- V115: a hardware fault while the ResponseToPoll is on the air. -/
theorem test_fault_V115 : (engineStep { quiet with hwFault := true, txDone := true } (inSession .responseSent base)).ctl.err =
    ⟨.hardwareFault, .none, .responseSent⟩ := by decide

/-! ### Witnesses: for every statement with hypotheses, states and operands that meet them, clause by clause -/

/-- The answers in which a frame is heard. -/
def heard (l : List Octet) (h : l.length ≤ 127) : TrxAnswers := { quiet with rxDone := true, frame := ⟨l, h⟩ }

/-- The answers in which the transmission is done. -/
def sent : TrxAnswers := { quiet with txDone := true, txTime := 130000#40 }

/-- A peer's field registers: to `0x5678` from `0x1234`, "continue". -/
def peerTx : Tx := { base.tx with dst := 0x5678#16, src := 0x1234#16, act := 0x02, eui := 0x0123456789ABCDEF#64 }

/-- The answers in which the peer's frame of kind `k` is heard, with one octet to spare. -/
def heardKind (k : Kind) : TrxAnswers := heard (frameOf testParams peerTx k ++ [0xFF]) (by cases k <;> decide)

/-- A session in state `f` whose peer is `0x1234`. -/
def withPeer (f : FsmState) : State :=
  let s := inSession f base
  { s with ses := { s.ses with peerAddr := 0x1234#16, anchorAddr := 0x1234#16 } }

/-- V31's exchange. -/
def exchangeV31 : State := withExchange 100000 120000 130000 150000 230000 250000 base

/-- The machine with its session state at `f` and no session running. -/
def resting (f : FsmState) : State := { base with ctl := { base.ctl with fsm := f } }

theorem witness_DecodeEncode : (Instr.fcEnc 6).wf = true ∧ (Instr.fcDec 0).wf = true ∧ (Instr.tsAdd 15 0 15).wf = true := by
  decide
theorem witness_EncodeDecode : decode 0x12201000#32 = .ok (.tsAdd 2 0 1) ∧ decode 0x30600000#32 = .ok (.fcEnc 6) := by decide
theorem witness_CommandAcceptance_busy : (inSession .awaitingPoll base).busy = true := by decide
theorem witness_CommandAcceptance_opcode : base.busy = false ∧ knownOpcode 0x1C000000#32 = false := by decide
theorem witness_CommandAcceptance_form : base.busy = false ∧ knownOpcode 0x20000001#32 = true ∧ legalForm 0x20000001#32 = false := by
  decide
theorem witness_CommandAcceptance_kind : base.busy = false ∧ legalForm 0x30700000#32 = true ∧ badKindWord 0x30700000#32 = true := by
  decide
theorem witness_CommandAcceptance_state :
    (resting .done).busy = false ∧ legalForm 0x40000000#32 = true ∧ startWord 0x40000000#32 = true ∧
      (resting .done).ctl.fsm ≠ .idle := by decide
theorem witness_CommandAcceptance_accepted :
    base.busy = false ∧ legalForm 0x30600000#32 = true ∧ badKindWord 0x30600000#32 = false ∧
      (startWord 0x42000000#32 = true → base.ctl.fsm = .idle) ∧ legalForm 0x42000000#32 = true := by decide
theorem witness_StepRunsCommand :
    ({ base with sched := [.host (.write 0x00#8 0x12201000#128)] } : State).sched = [.host (.write 0x00#8 0x12201000#128)] ∧
      decode ((0x12201000#128).setWidth 32) = .ok (.tsAdd 2 0 1) := by decide
theorem witness_StepTakesNextEvent :
    ({ base with sched := [.poll quiet] } : State).sched = [.poll quiet] ∧ base.busy = false ∧ base.sched = [] ∧
      (inSession .pollSent base).sched = [] ∧ (inSession .pollSent base).busy = true := by decide
theorem witness_TsFromrawLoads : base.busy = false := by decide
theorem witness_TsTorawStores : base.busy = false := by decide
theorem witness_TsAddSubMult : base.busy = false := by decide
theorem witness_TsMulsScales : base.busy = false := by decide
theorem witness_TsDivides :
    base.busy = false ∧ base.tsu.scalar.toInt = 0 ∧ readT 3 base = 0 ∧ readT 4 (withT 4 (-1) base) ≠ 0 ∧
      ({ base.tsu with scalar := 1#64 } : Tsu).scalar.toInt ≠ 0 := by decide
theorem witness_TsWrapNormalizes : base.busy = false ∧ readT 2 (withT 2 (-1) base) < 0 ∧ 0 ≤ readT 2 base := by decide
theorem witness_TsValidTests : base.busy = false := by decide
theorem witness_TsConverts : base.busy = false ∧ Instr.tsTous 3 = .tsTous 3 ∧ Instr.tsTom 3 = .tsTom 3 := by decide
theorem witness_ValidOperandsNeverOverflow :
    let s := withT 1 1099511627775 base
    s.busy = false ∧ ValidTs (readT 0 s) ∧ ValidTs (readT 1 s) := by unfold ValidTs; decide
theorem witness_WrapLaws_idempotent :
    let s := withT 0 (-1099511627776) (withT 1 1099511627775 base)
    s.busy = false ∧ -2 ^ 40 ≤ readT 0 s ∧ readT 0 s < 2 ^ 40 ∧ -2 ^ 40 ≤ readT 1 s ∧ readT 1 s < 2 ^ 40 := by decide
theorem witness_WrapLaws_modulus :
    let s := withT 1 1099511627775 base
    s.busy = false ∧ ValidTs (readT 0 s) ∧ ValidTs (readT 1 s) := by unfold ValidTs; decide
theorem witness_WrapLaws_offset :
    let s := withT 0 5 (withT 1 1099511627775 base)
    let s' := withT 0 6 (withT 1 0 base)
    s.busy = false ∧ s'.busy = false ∧ ValidTs (readT 0 s) ∧ ValidTs (readT 1 s) ∧
      readT 0 s' = (readT 0 s + 1) % 2 ^ 40 ∧ readT 1 s' = (readT 1 s + 1) % 2 ^ 40 := by unfold ValidTs; decide
theorem witness_RngComputeMeasures_incomplete : base.busy = false ∧ base.tsu.exchMask ≠ 0b111111#6 := by decide
theorem witness_RngComputeMeasures_invalid :
    let s := withExchange (-1) 0 0 1099511627775 0 0 base
    s.busy = false ∧ s.tsu.exchMask = 0b111111#6 ∧ ¬ ValidTs (wrappedDiff (readT 11 s) (readT 8 s)) := by unfold ValidTs; decide
theorem witness_RngComputeMeasures_zero :
    let s := withExchange 5 5 5 5 5 5 base
    s.busy = false ∧ s.tsu.exchMask = 0b111111#6 ∧ wrappedDiff (readT 11 s) (readT 8 s) = 0 ∧
      wrappedDiff (readT 10 s) (readT 9 s) = 0 ∧ wrappedDiff (readT 13 s) (readT 10 s) = 0 ∧
      wrappedDiff (readT 12 s) (readT 11 s) = 0 := by decide
theorem witness_RngComputeMeasures_computed :
    let s := withExchange 0 1 0 1099511627775 1099511627774 1099511627775 base
    s.busy = false ∧ s.tsu.exchMask = 0b111111#6 ∧ ValidTs (wrappedDiff (readT 11 s) (readT 8 s)) ∧
      ValidTs (wrappedDiff (readT 10 s) (readT 9 s)) ∧ ValidTs (wrappedDiff (readT 13 s) (readT 10 s)) ∧
      ValidTs (wrappedDiff (readT 12 s) (readT 11 s)) ∧ wrappedDiff (readT 11 s) (readT 8 s) = 1099511627775 := by
  unfold ValidTs; decide
theorem witness_ExchangeConsumedOnce : exchangeV31.busy = false ∧ exchangeV31.tsu.exchMask = 0b111111#6 := by decide
theorem witness_ValidExchangeIsExact :
    exchangeV31.busy = false ∧ exchangeV31.tsu.exchMask = 0b111111#6 ∧
      (∀ r : Reg, 8 ≤ r.val → r.val ≤ 13 → ValidTs (readT r exchangeV31)) := by unfold ValidTs; decide
theorem witness_OffsetInvariance_tag :
    let s := withExchange 1099511627775 0 0 0 0 0 base
    let s' := withExchange 0 0 0 1 1 0 base
    s.busy = false ∧ s'.busy = false ∧ s.tsu.exchMask = 0b111111#6 ∧ s'.tsu.exchMask = 0b111111#6 ∧
      (∀ r : Reg, 8 ≤ r.val → r.val ≤ 13 → ValidTs (readT r s)) ∧
      (∀ r ∈ ([8, 11, 12] : List Reg), readT r s' = (readT r s + 1) % 2 ^ 40) ∧
      (∀ r ∈ ([9, 10, 13] : List Reg), readT r s' = readT r s) := by unfold ValidTs; decide
theorem witness_OffsetInvariance_anchor :
    let s := exchangeV31
    let s' := withExchange 100000 120007 130007 150000 230000 250007 base
    s.busy = false ∧ s'.busy = false ∧ s.tsu.exchMask = 0b111111#6 ∧ s'.tsu.exchMask = 0b111111#6 ∧
      (∀ r : Reg, 8 ≤ r.val → r.val ≤ 13 → ValidTs (readT r s)) ∧
      (∀ r ∈ ([8, 11, 12] : List Reg), readT r s' = readT r s) ∧
      (∀ r ∈ ([9, 10, 13] : List Reg), readT r s' = (readT r s + 7) % 2 ^ 40) := by unfold ValidTs; decide
theorem witness_RecoversTimeOfFlight :
    let s := exchangeV31
    s.busy = false ∧ s.tsu.exchMask = 0b111111#6 ∧ ValidTs (wrappedDiff (readT 11 s) (readT 8 s)) ∧
      ValidTs (wrappedDiff (readT 10 s) (readT 9 s)) ∧ ValidTs (wrappedDiff (readT 13 s) (readT 10 s)) ∧
      ValidTs (wrappedDiff (readT 12 s) (readT 11 s)) ∧
      wrappedDiff (readT 11 s) (readT 8 s) = wrappedDiff (readT 10 s) (readT 9 s) + 2 * 20000 ∧
      wrappedDiff (readT 13 s) (readT 10 s) = wrappedDiff (readT 12 s) (readT 11 s) + 2 * 20000 ∧
      wrappedDiff (readT 11 s) (readT 8 s) ≠ 0 := by unfold ValidTs; decide
theorem witness_RngCorrectAddsBias_key :
    let s := withRange 0 (-95000) 3 base
    s.busy = false ∧ (3 : Fin 4).val = 2 * (s.rmu.biaskey.getLsbD 1).toNat + (s.rmu.biaskey.getLsbD 0).toNat := by decide
theorem witness_RngCorrectAddsBias_off :
    let s : State := { base with ctl := { base.ctl with ctrl := 0 } }
    s.busy = false ∧ s.biasEn = false := by decide
theorem witness_RngCorrectAddsBias_low :
    let s := withRange 0 (-95000) 0 base
    s.busy = false ∧ s.rmu.biaskey.toNat = 0 ∧ s.biasEn = true ∧ s.rmu.rxpwr.toInt ≤ ((s.params.biasRom[0])[0]).p.toInt := by decide
theorem witness_RngCorrectAddsBias_high :
    let s := withRange 0 (-61000) 0 base
    s.busy = false ∧ s.rmu.biaskey.toNat = 0 ∧ s.biasEn = true ∧ ((s.params.biasRom[0])[17]).p.toInt ≤ s.rmu.rxpwr.toInt := by decide
theorem witness_RngCorrectAddsBias_between :
    let s := withRange 0 (-93001) 0 base
    s.busy = false ∧ s.rmu.biaskey.toNat = 0 ∧ s.biasEn = true ∧ ((s.params.biasRom[0])[(0 : Fin 17).castSucc]).p.toInt ≤ s.rmu.rxpwr.toInt ∧
      s.rmu.rxpwr.toInt < ((s.params.biasRom[0])[(0 : Fin 17).succ]).p.toInt := by decide
/-- V67 and V68: a corrected distance of 0 and of 1. -/
theorem witness_RngCorrectAddsBias_clamp :
    let t := after .rngCorrect (withRange 0 (-75000) 2 base)
    let u := after .rngCorrect (withRange 1 (-75000) 2 base)
    t.rmu.distRaw.toInt + t.rmu.bias.toInt ≤ 0 ∧ 0 < u.rmu.distRaw.toInt + u.rmu.bias.toInt ∧
      u.rmu.distRaw.toInt + u.rmu.bias.toInt < 2 ^ 127 := by decide
/-- The edge of `DIST`: a corrected distance of exactly `2^127`, and of `2^127 - 1`. -/
theorem witness_RngCorrectAddsBias_overflow :
    let s := withRange (2 ^ 127 - 1000000000000000) (-95000) 1 base
    let u := withRange (2 ^ 127 - 1 - 1000000000000000) (-95000) 1 base
    s.busy = false ∧ s.rmu.biaskey.toNat = (1 : Fin 4).val ∧
      s.rmu.distRaw.toInt + (after .rngCorrect s).rmu.bias.toInt = 2 ^ 127 ∧
      u.rmu.distRaw.toInt + (after .rngCorrect u).rmu.bias.toInt = 2 ^ 127 - 1 := by decide
theorem witness_BiasLaws :
    let s := withRange 0 0 1 base
    let t := s.params.biasRom[1]
    s.busy = false ∧ s.biasEn = true ∧ s.rmu.biaskey.toNat = (1 : Fin 4).val ∧
      (t[(0 : Fin 17).castSucc]).p.toInt ≤ (BitVec.ofInt 32 (-95000)).toInt ∧
      (BitVec.ofInt 32 (-95000)).toInt + 1 = (BitVec.ofInt 32 (-94999)).toInt ∧
      (BitVec.ofInt 32 (-94999)).toInt ≤ (t[(0 : Fin 17).succ]).p.toInt ∧
      (t[(0 : Fin 17).succ]).b.toInt ≤ (t[(0 : Fin 17).castSucc]).b.toInt ∧
      (BitVec.ofInt 32 (-95000)).toInt ≤ (t[0]).p.toInt ∧ (t[17]).p.toInt ≤ (BitVec.ofInt 32 (-69500)).toInt := by decide
theorem witness_BiasLaws_rising :
    let t := testParams.biasRom[0]
    (t[(16 : Fin 17).castSucc]).b.toInt ≤ (t[(16 : Fin 17).succ]).b.toInt := by decide
theorem witness_FcEncStoresFrame : base.busy = false ∧ buffersCanonical base = true ∧ 7 ≤ (7 : KindNum).val := by decide
theorem witness_FcDecReadsFrame_empty : base.busy = false ∧ base.rx.len.toNat = 0 ∧ 7 ≤ (15 : KindNum).val := by decide
theorem witness_FcDecReadsFrame_badFc :
    let s := withRx [0xB3] base
    s.busy = false ∧ 0 < s.rx.len.toNat ∧ readOctet s.rx.buf 0 ≠ codeOfKind s.params .poll := by decide
theorem witness_FcDecReadsFrame_short :
    let s := withRx [0xB2, 0x01, 0x78, 0x56, 0x34] base
    s.busy = false ∧ 0 < s.rx.len.toNat ∧ readOctet s.rx.buf 0 = codeOfKind s.params .poll ∧
      s.rx.len.toNat < (frameOf s.params s.tx .poll).length := by decide
theorem witness_FcDecReadsFrame_accepted :
    let s := withRx [0xB2, 0x01, 0x78, 0x56, 0x34, 0x12] base
    s.busy = false ∧ readOctet s.rx.buf 0 = codeOfKind s.params .poll ∧ (frameOf s.params s.tx .poll).length ≤ s.rx.len.toNat := by decide
theorem witness_FrameRoundTrip :
    base.busy = false ∧ buffersCanonical base = true ∧
      (∀ i, i < (after (.fcEnc 4) base).tx.len.toNat →
        readOctet (after (.fcEnc 4) base).tx.buf i = readOctet (after (.fcEnc 4) base).tx.buf i) :=
  ⟨by decide, by decide, fun _ _ => rfl⟩
theorem witness_DecodeReadsOnlyTheFrame :
    let s := withRx [0xB2, 0x01, 0x78, 0x56, 0x34, 0x12] base
    s.busy = false ∧ (∀ i, i < 6 → readOctet (writeOctet s.rx.buf 6 0xFF) i = readOctet s.rx.buf i) ∧
      s.rx.len.toNat = 6 := by decide
theorem witness_SesTagStarts : base.busy = false ∧ base.ctl.fsm = .idle ∧ buffersCanonical base = true := by decide
theorem witness_SesAnchorListens : base.busy = false ∧ base.ctl.fsm = .idle := by decide
theorem witness_SesAdmitListens : base.busy = false ∧ base.ctl.fsm = .idle := by decide
theorem witness_SesClearReturns : (resting .failed).busy = false ∧ (inSession .awaitingPoll base).busy = true := by decide
theorem witness_HostReadsChangeNothing :
    listedIndex 0x06#8 = false ∧ listedIndex 0x8F#8 = true ∧ hostRegAt 0x8F#8 = some (.t 15) ∧ 126 < 127 ∧
      (0x11#8, base.rmu.reply1) ∈ registerValues base := by decide
theorem witness_HostWrites : base.busy = false ∧ (0x4B#8, 7) ∈ writableRegs := by decide
theorem witness_HostWrites_refused :
    (0x09#8 ≠ 0x00#8 ∧ 0x09#8 ≠ 0x01#8) ∧ ∀ p ∈ writableRegs, p.1 ≠ 0x09#8 := by decide
theorem witness_HostBufferWrites : base.busy = false ∧ 126 ≤ 126 ∧ buffersCanonical base = true ∧ 126 < 127 := by decide
theorem witness_HostCannotDisturbSession : (inSession .awaitingPoll base).busy = true := by decide
theorem witness_TransmitDoneSteps :
    (∀ f ∈ ([.blinkSent, .pollSent, .finalSent, .confirmSent, .finishedSent, .initiationSent, .responseSent] : List FsmState),
      (inSession f base).busy = true ∧ (inSession f base).ctl.fsm = f) ∧ sent.hwFault = false ∧ sent.txDone = true := by decide
theorem presents_heardKind (f : FsmState) (k : Kind) : Presents (withPeer f) (heardKind k) peerTx k :=
  ⟨rfl, rfl, [0xFF], rfl⟩
theorem witness_InitiationAccepted :
    (withPeer .awaitingInitiation).busy = true ∧ (withPeer .awaitingInitiation).ctl.fsm = .awaitingInitiation ∧
      buffersCanonical (withPeer .awaitingInitiation) = true ∧
      Presents (withPeer .awaitingInitiation) (heardKind .rinit) peerTx .rinit ∧
      peerTx.eui = (withPeer .awaitingInitiation).trx.eui :=
  ⟨by decide, rfl, by decide, presents_heardKind _ _, by decide⟩
theorem witness_ResponseAccepted :
    (withPeer .awaitingResponse).busy = true ∧ (withPeer .awaitingResponse).ctl.fsm = .awaitingResponse ∧
      buffersCanonical (withPeer .awaitingResponse) = true ∧
      Presents (withPeer .awaitingResponse) (heardKind .resp) peerTx .resp ∧
      peerTx.dst = (withPeer .awaitingResponse).trx.shortAddr ∧ peerTx.src = (withPeer .awaitingResponse).ses.anchorAddr ∧
      peerTx.act = (withPeer .awaitingResponse).params.actContinue :=
  ⟨by decide, rfl, by decide, presents_heardKind _ _, by decide, by decide, by decide⟩
theorem witness_ConfirmAccepted :
    (withPeer .awaitingConfirm).busy = true ∧ (withPeer .awaitingConfirm).ctl.fsm = .awaitingConfirm ∧
      buffersCanonical (withPeer .awaitingConfirm) = true ∧ peerTx.dst = (withPeer .awaitingConfirm).trx.shortAddr ∧
      peerTx.src = (withPeer .awaitingConfirm).ses.anchorAddr ∧
      Presents (withPeer .awaitingConfirm) (heardKind .confirm) peerTx .confirm ∧
      Presents (withPeer .awaitingConfirm) (heardKind .finished) peerTx .finished :=
  ⟨by decide, rfl, by decide, by decide, by decide, presents_heardKind _ _, presents_heardKind _ _⟩
theorem witness_PollAccepted :
    (withPeer .awaitingPoll).busy = true ∧ (withPeer .awaitingPoll).ctl.fsm = .awaitingPoll ∧
      buffersCanonical (withPeer .awaitingPoll) = true ∧ Presents (withPeer .awaitingPoll) (heardKind .poll) peerTx .poll ∧
      peerTx.dst = (withPeer .awaitingPoll).trx.shortAddr :=
  ⟨by decide, rfl, by decide, presents_heardKind _ _, by decide⟩
/-- The state of V130; the FinalMessage of `peerTx`, its three times 0, gives `d` > 0. -/
theorem witness_FinalAccepted :
    (anchorWaiting 0 1099511627775).busy = true ∧ (anchorWaiting 0 1099511627775).ctl.fsm = .awaitingFinal ∧
      buffersCanonical (anchorWaiting 0 1099511627775) = true ∧ (anchorWaiting 0 1099511627775).tsu.exchMask = 0b000110#6 ∧
      ValidTs (readT 9 (anchorWaiting 0 1099511627775)) ∧ ValidTs (readT 10 (anchorWaiting 0 1099511627775)) ∧
      Presents (anchorWaiting 0 1099511627775) (heardKind .final) peerTx .final ∧
      peerTx.dst = (anchorWaiting 0 1099511627775).trx.shortAddr ∧
      peerTx.src = (anchorWaiting 0 1099511627775).ses.peerAddr :=
  ⟨by decide, rfl, by decide, by decide, by unfold ValidTs; decide, by unfold ValidTs; decide, ⟨rfl, rfl, [0xFF], rfl⟩,
    by decide, by decide⟩
/-- `d` = 0 for the same FinalMessage where the anchor's three times are equal, and `d` ≠ 0 where they are not. -/
theorem witness_FinalAccepted_cases :
    (anchorWaiting 0 0).tsu.exchMask = 0b000110#6 ∧ (readT 10 (anchorWaiting 0 0) - readT 9 (anchorWaiting 0 0)) % 2 ^ 40 = 0 ∧ (heardKind .final).rxTime.toNat = 0 ∧
      (readT 10 (anchorWaiting 0 1099511627775) - readT 9 (anchorWaiting 0 1099511627775)) % 2 ^ 40 ≠ 0 ∧
      (1 : Fin 4).val = 2 * ((anchorWaiting 0 0).rmu.bandMap.getLsbD (anchorWaiting 0 0).trx.channel.toNat).toNat +
        ((anchorWaiting 0 0).trx.prf.getLsbD 0).toNat := by decide
theorem witness_TruncationLosesNothing :
    let s := withT 0 4294967294 (withT 1 1099511627775 base)
    s.busy = false ∧ readT 0 s = (4294967294#40).toNat ∧ readT 1 s = (1099511627775#40).toNat ∧
      (4294967294#40 - 1099511627775#40 : Raw40).toNat < 2 ^ 32 := by decide
theorem witness_InternalSteps :
    (inSession .nextAnchor base).busy = true ∧ buffersCanonical (inSession .nextAnchor base) = true ∧
      (inSession .nextAnchor base).ctl.fsm = .nextAnchor ∧ (inSession .rangeComputed base).ctl.fsm = .rangeComputed ∧
      (inSession .rangeComputed base).policy = false ∧
      (inSession .rangeComputed { base with ctl := { base.ctl with ctrl := 0b11#2 } }).policy = true := by decide
theorem witness_BlinkAccepted :
    (withPeer .awaitingBlink).busy = true ∧ (withPeer .awaitingBlink).ctl.fsm = .awaitingBlink ∧
      buffersCanonical (withPeer .awaitingBlink) = true ∧ Presents (withPeer .awaitingBlink) (heardKind .blink) peerTx .blink :=
  ⟨by decide, rfl, by decide, presents_heardKind _ _⟩
theorem witness_WaitStatePriorities :
    (∀ f ∈ transmitWaits ++ receiveWaits, (inSession f base).busy = true ∧ (inSession f base).ctl.fsm = f) ∧
      ({ quiet with hwFault := true } : TrxAnswers).hwFault = true ∧ quiet.hwFault = false ∧ quiet.txDone = false ∧
      quiet.rxDone = false ∧ quiet.rxTimedOut = false ∧ ({ quiet with rxTimedOut := true } : TrxAnswers).rxTimedOut = true := by
  decide
theorem witness_MalformedFrameFails :
    (∀ f ∈ receiveWaits, (inSession f base).busy = true ∧ buffersCanonical (inSession f base) = true ∧
      (inSession f base).ctl.fsm ∈ receiveWaits) ∧
      (heard [] (by decide)).hwFault = false ∧ (heard [] (by decide)).rxDone = true ∧
      (heard [] (by decide)).frame.octets = [] := by decide
theorem witness_MalformedFrameFails_badFc :
    ∀ k ∈ expectedKinds (inSession .awaitingConfirm base).ctl.fsm, (0xB2 : Octet) ≠ codeOfKind (inSession .awaitingConfirm base).params k := by
  decide
theorem witness_MalformedFrameFails_short :
    Kind.confirm ∈ expectedKinds (inSession .awaitingConfirm base).ctl.fsm ∧
      (0xB5 : Octet) = codeOfKind (inSession .awaitingConfirm base).params .confirm ∧
      ([0xB5, 2, 0x34, 0x12, 0x78, 0x56, 0xBC] : List Octet).length < (frameOf testParams base.tx .confirm).length := by decide
theorem witness_WrongAddressFails_eui :
    let s := { withPeer .awaitingInitiation with trx := { base.trx with eui := 0x0123456789ABCDEE#64 } }
    s.busy = true ∧ buffersCanonical s = true ∧ Kind.rinit ∈ expectedKinds s.ctl.fsm ∧ peerTx.eui ≠ s.trx.eui := by decide
theorem witness_WrongAddressFails_presents (f : FsmState) (k : Kind) : Presents (withPeer f) (heardKind k) peerTx k :=
  presents_heardKind f k
theorem witness_WrongAddressFails_own :
    let s := { withPeer .awaitingPoll with trx := { base.trx with shortAddr := 0x5679#16 } }
    s.busy = true ∧ Kind.poll ∈ expectedKinds s.ctl.fsm ∧ peerTx.dst ≠ s.trx.shortAddr := by decide
theorem witness_WrongAddressFails_peer :
    Kind.resp ∈ expectedKinds (withPeer .awaitingResponse).ctl.fsm ∧ Kind.confirm ∈ expectedKinds (withPeer .awaitingConfirm).ctl.fsm ∧
      Kind.finished ∈ expectedKinds (withPeer .awaitingConfirm).ctl.fsm ∧
      Kind.final ∈ expectedKinds (withPeer .awaitingFinal).ctl.fsm ∧ peerTx.src ≠ (inSession .awaitingResponse base).ses.anchorAddr ∧
      peerTx.src ≠ (inSession .awaitingFinal base).ses.peerAddr := by decide
theorem witness_WrongAddressFails_activity :
    let s := withPeer .awaitingResponse
    peerTx.dst = s.trx.shortAddr ∧ peerTx.src = s.ses.anchorAddr ∧ ({ peerTx with act := 0 } : Tx).act ≠ s.params.actContinue := by
  decide
theorem witness_SessionMoves : (inSession .pollSent base).busy = true := by decide
/-- The three cases of `SessionMoves` occur: a move, an end, a failure. -/
theorem witness_SessionMoves_cases :
    (engineStep sent (inSession .pollSent base)).ctl.fsm = .awaitingResponse ∧
      (engineStep sent (inSession .confirmSent base)).busy = false ∧
      (engineStep { quiet with hwFault := true } (inSession .pollSent base)).ctl.fsm = .failed := by decide
theorem witness_TagComputesNothing : (inSession .awaitingResponse base).busy = true ∧ (inSession .awaitingResponse base).ctl.fsm.tagState = true := by
  decide
theorem witness_IdentityIsStable :
    step { withPeer .awaitingInitiation with sched := [.poll (heardKind .rinit)] } =
      .next (engineStep (heardKind .rinit) (withPeer .awaitingInitiation)) := rfl
theorem witness_SessionNeverInvalid :
    exchangeTracked (anchorWaiting 700000 746000) = true ∧ localTimesValid (anchorWaiting 700000 746000) = true ∧
      (anchorWaiting 700000 746000).ctl.err.detail ≠ .diffInvalid ∧ (anchorWaiting 700000 746000).busy = true ∧
      (anchorWaiting 700000 746000).ctl.fsm = .awaitingFinal := by decide
/-- A machine with a Poll to hear and an engine step to take. -/
def aboutToStep : State := { withPeer .awaitingPoll with sched := [.poll (heardKind .poll)] }

theorem witness_BuffersStayCanonical :
    buffersCanonical aboutToStep = true ∧ txlenLegal aboutToStep = true ∧
      step aboutToStep = .next (engineStep (heardKind .poll) (withPeer .awaitingPoll)) := ⟨by decide, by decide, rfl⟩
theorem witness_SessionStaysConsistent :
    sessionConsistent aboutToStep = true ∧ step aboutToStep = .next (engineStep (heardKind .poll) (withPeer .awaitingPoll)) :=
  ⟨by decide, rfl⟩
theorem witness_ExchangeStaysTracked :
    let s := { anchorWaiting 700000 746000 with sched := [.poll quiet] }
    exchangeTracked s = true ∧ localTimesValid s = true ∧ step s = .next (engineStep quiet (anchorWaiting 700000 746000)) :=
  ⟨by decide, by decide, rfl⟩
theorem witness_ErrStaysLegal :
    errLegal aboutToStep = true ∧ step aboutToStep = .next (engineStep (heardKind .poll) (withPeer .awaitingPoll)) :=
  ⟨by decide, rfl⟩
theorem witness_RangeRegistersStayLegal :
    let s := withRange 0 0 0 base
    rangeStatusLegal s = true ∧ denominatorLegal s = true ∧ step s = .next s := ⟨by decide, by decide, rfl⟩

end Sys2Proof.Tests
end

section
/-! The statement of the family `00_scope.md`: what no step touches outside the engine (R11, R83, R275). Every operation
of the model but `setOwnShortAddress` keeps the parameters and the transceiver and only extends the records; the session
steps are taken from `engineStep_cases`, the commands from `exec_eq`. -/

namespace Sys2Proof.Machine

/-! ### The relation and its rules -/

/-- From `s` to `t` the parameters and the transceiver are unchanged and the two records only grow (R11, R83, R275). -/
structure IdentityKept (s t : State) : Prop where
  params : t.params = s.params
  trx : t.trx = s.trx
  calls : s.calls <+: t.calls
  replies : s.replies <+: t.replies

theorem IdentityKept.refl (s : State) : IdentityKept s s := ⟨rfl, rfl, List.prefix_refl _, List.prefix_refl _⟩

theorem IdentityKept.trans {s t u : State} (h : IdentityKept s t) (h' : IdentityKept t u) : IdentityKept s u :=
  ⟨h'.params.trans h.params, h'.trx.trans h.trx, h.calls.trans h'.calls, h.replies.trans h'.replies⟩

/-- Only the engine's own registers differ. -/
theorem identityKept_of_eq {s t : State} (hp : t.params = s.params) (hx : t.trx = s.trx) (hc : t.calls = s.calls)
    (hr : t.replies = s.replies) : IdentityKept s t :=
  ⟨hp, hx, hc ▸ List.prefix_refl _, hr ▸ List.prefix_refl _⟩

theorem IdentityKept.raiseErr {s u : State} (h : IdentityKept s u) (c : ErrClass) (d : ErrDetail) :
    IdentityKept s (raiseErr c d u) := ⟨h.params, h.trx, h.calls, h.replies⟩

theorem IdentityKept.ite {s t u : State} {c : Prop} [Decidable c] (ht : IdentityKept s t) (hu : IdentityKept s u) :
    IdentityKept s (if c then t else u) := by
  split
  · exact ht
  · exact hu

theorem Judged.identityKept {s u : State} (h : Judged s u) : IdentityKept s u :=
  ⟨h.params, h.trx, h.calls, h.replies ▸ List.prefix_refl _⟩

/-! ### Commands -/

theorem identityKept_writeQuotient (rd : Reg) (a d : Int) (s : State) : IdentityKept s (writeQuotient rd a d s) :=
  .ite (identityKept_of_eq rfl rfl rfl rfl) (identityKept_of_eq rfl rfl rfl rfl)

theorem identityKept_computeRange (s : State) : IdentityKept s (computeRange s) := by
  obtain ⟨-, -, -, -, hparams, htrx, hcalls, -, hreplies⟩ := computeRange_keeps s
  exact identityKept_of_eq hparams htrx hcalls hreplies

theorem identityKept_decodeCommand (k : Kind) (s : State) : IdentityKept s (decodeCommand k s) := by
  have hd := ((Judged.refl s).decodeFrame k).1.identityKept
  unfold decodeCommand
  split <;> (rename_i heq; rw [heq] at hd)
  · exact hd
  · exact ⟨hd.params, hd.trx, hd.calls, hd.replies⟩

theorem identityKept_startTag (s : State) : IdentityKept s (startTag s) := by
  constructor <;> simp [startTag, loadOwnEui]

theorem identityKept_startListening (f : FsmState) (s : State) : IdentityKept s (startListening f s) := by
  constructor <;> simp

theorem identityKept_startAnchor (s : State) : IdentityKept s (startAnchor s) := by
  constructor <;> simp [startAnchor]

theorem identityKept_startAdmit (s : State) : IdentityKept s (startAdmit s) := by
  constructor <;> simp [startAdmit]

theorem identityKept_commandBody (i : Instr) (s : State) : IdentityKept s (commandBody i s) := by
  have hreject (c : RejectCode) : IdentityKept s (s.reject c) := identityKept_of_eq rfl rfl rfl rfl
  cases i with
  | tsDivs rd ra => exact identityKept_writeQuotient ..
  | tsDivt rd ra rb => exact identityKept_writeQuotient ..
  | rngCompute => exact identityKept_computeRange s
  | fcEnc k =>
    simp only [commandBody]
    split
    · exact hreject _
    · exact identityKept_of_eq rfl rfl rfl rfl
  | fcDec k =>
    simp only [commandBody]
    split
    · exact hreject _
    · exact identityKept_decodeCommand ..
  | sesTag => exact .ite (identityKept_startTag s) (hreject _)
  | sesAnchor => exact .ite (identityKept_startAnchor s) (hreject _)
  | sesAdmit => exact .ite (identityKept_startAdmit s) (hreject _)
  | _ => exact identityKept_of_eq rfl rfl rfl rfl

theorem identityKept_exec {i : Instr} {s t : State} (h : exec i s = .next t) : IdentityKept s t := by
  rw [exec_eq] at h
  cases h
  exact .ite (identityKept_of_eq rfl rfl rfl rfl) (identityKept_commandBody i s)

/-! ### The host port -/

theorem identityKept_submit {w : CmdWord} {s t : State} (h : submit w s = .next t) : IdentityKept s t := by
  unfold submit at h
  split at h
  · cases h; exact identityKept_of_eq rfl rfl rfl rfl
  · split at h
    · cases h; exact identityKept_of_eq rfl rfl rfl rfl
    · exact identityKept_exec h

theorem identityKept_writePlain (r : Option HostReg) (v : BitVec 128) (s : State) : IdentityKept s (writePlain r v s) := by
  have hreject : IdentityKept s (s.reject .writeRefused) := identityKept_of_eq rfl rfl rfl rfl
  unfold writePlain
  split
  · exact hreject
  · split
    · exact hreject
    · split
      · exact hreject
      · rename_i hw
        obtain ⟨hparams, htrx, hcalls, hreplies, -⟩ := writeReg_some hw
        exact identityKept_of_eq hparams htrx hcalls hreplies

theorem identityKept_hostBufWrite (b : BufName) (off : Nat) (v : Octet) (s : State) :
    IdentityKept s (hostBufWrite b off v s) := by
  unfold hostBufWrite
  repeat' split
  all_goals exact identityKept_of_eq rfl rfl rfl rfl

theorem identityKept_reply (r : HostReply) (s : State) : IdentityKept s (s.reply r) := by
  constructor <;> simp

theorem identityKept_hostStep {op : HostOp} {s t : State} (h : hostStep op s = .next t) : IdentityKept s t := by
  cases op with
  | read idx => cases h; exact identityKept_reply ..
  | bufRead b off => cases h; exact identityKept_reply ..
  | bufWrite b off v => cases h; exact identityKept_hostBufWrite b off v s
  | write idx v =>
    simp only [hostStep, hostWrite] at h
    split at h
    · exact identityKept_submit h
    · cases h; exact identityKept_of_eq rfl rfl rfl rfl
    · cases h; exact identityKept_writePlain _ v s

/-! ### Session steps -/

theorem identityKept_sendPoll (s : State) : IdentityKept s (sendPoll s) := by
  constructor <;> simp [sendPoll]

theorem identityKept_sendVerdict (s : State) : IdentityKept s (sendVerdict s) := by
  unfold sendVerdict
  dsimp only
  split <;> constructor <;> simp

theorem identityKept_onResponseSent (a : TrxAnswers) (s : State) : IdentityKept s (onResponseSent a s) := by
  constructor <;> simp [onResponseSent]

theorem identityKept_acceptBlink (s : State) : IdentityKept s (acceptBlink s) := by
  constructor <;> simp [acceptBlink]

theorem identityKept_completedExchange (a : TrxAnswers) (s : State) : IdentityKept s (completedExchange a s) := by
  rw [completedExchange_eq]
  exact ⟨rfl, rfl, List.prefix_append .., List.prefix_refl _⟩

theorem identityKept_rangeExchange (s : State) : IdentityKept s (rangeExchange s) := by
  have hc := identityKept_computeRange s
  obtain ⟨-, he⟩ | ⟨-, -, he⟩ | ⟨-, -, he⟩ := rangeExchange_cases s <;> rw [he]
  · exact hc.raiseErr ..
  · exact hc.raiseErr ..
  · exact hc.trans (identityKept_of_eq rfl rfl rfl rfl)

/-- The step of a busy `AwaitingInitiation` that accepts its frame is the one that replaces the short address (R193). -/
theorem identityKept_carryOn (a : TrxAnswers) {u : State} (h : u.ctl.fsm ≠ .awaitingInitiation) :
    IdentityKept u (carryOn a u) := by
  cases hf : u.ctl.fsm
  case awaitingInitiation => exact absurd hf h
  case awaitingFinal =>
    rw [carryOn_awaitingFinal hf]
    exact (identityKept_completedExchange a u).trans (identityKept_rangeExchange _)
  all_goals rw [carryOn, hf]; dsimp only
  case blinkSent | pollSent | finalSent => exact identityKept_startListening ..
  case responseSent => exact identityKept_onResponseSent a u
  case nextAnchor => exact identityKept_sendPoll u
  case rangeComputed => exact identityKept_sendVerdict u
  case awaitingBlink => exact identityKept_acceptBlink u
  case awaitingResponse => constructor <;> simp [recordTagTimes, loadFinalFields]
  case awaitingPoll => constructor <;> simp
  case awaitingConfirm => split <;> exact identityKept_of_eq rfl rfl rfl rfl
  all_goals exact identityKept_of_eq rfl rfl rfl rfl

/-- `s` with another short address in the transceiver: what `setOwnShortAddress` replaces (R275). -/
def readdressed (addr : BitVec 16) (s : State) : State := { s with trx := { s.trx with shortAddr := addr } }

theorem IdentityKept.readdressed {s u : State} (h : IdentityKept s u) (addr : BitVec 16) :
    IdentityKept (readdressed addr s) (readdressed addr u) :=
  ⟨h.params, congrArg (fun x : Trx => { x with shortAddr := addr }) h.trx, h.calls, h.replies⟩

theorem identityKept_carryOn_readdressed (a : TrxAnswers) {u : State} (h : u.ctl.fsm = .awaitingInitiation) :
    IdentityKept (readdressed u.rx.arg u) (carryOn a u) := by
  rw [carryOn, h]
  have hset : IdentityKept (readdressed u.rx.arg u)
      { setOwnShortAddress u.rx.arg u with ses := { u.ses with anchorAddr := u.rx.src } } :=
    ⟨rfl, rfl, List.prefix_append .., List.prefix_refl _⟩
  exact hset.trans (identityKept_sendPoll _)

/-- Everything a step may change outside the engine: the records grow, and a running tag session that waits for its
RangingInitiation may replace the short address. -/
def IdentityStable (s t : State) : Prop :=
  IdentityKept s t ∨ (s.busy = true ∧ s.ctl.fsm = .awaitingInitiation) ∧ ∃ addr, IdentityKept (readdressed addr s) t

theorem identityStable_engineStep (a : TrxAnswers) (s : State) : IdentityStable s (engineStep a s) := by
  by_cases hb : s.busy = true
  · obtain ⟨l, he⟩ | ⟨c, d, u, -, hj, he⟩ | ⟨u, hj, he⟩ := engineStep_cases (a := a) hb <;> rw [he]
    · exact .inl ⟨rfl, rfl, List.prefix_append .., List.prefix_refl _⟩
    · exact .inl (hj.identityKept.raiseErr c d)
    · by_cases hf : u.ctl.fsm = .awaitingInitiation
      · exact .inr ⟨⟨hb, hj.fsm ▸ hf⟩, u.rx.arg,
          (hj.identityKept.readdressed _).trans (identityKept_carryOn_readdressed a hf)⟩
      · exact .inl (hj.identityKept.trans (identityKept_carryOn a hf))
  · rw [engineStep, if_neg hb]
    exact .inl (.refl s)

/-- The relation looks at neither the schedule nor the counter of free values. -/
theorem IdentityStable.outside {s t : State} {l : List Event} {n : Nat}
    (h : IdentityStable { s with sched := l, free := n } t) : IdentityStable s t := by
  obtain hk | ⟨hwait, addr, hk⟩ := h
  · exact .inl ⟨hk.params, hk.trx, hk.calls, hk.replies⟩
  · exact .inr ⟨hwait, addr, hk.params, hk.trx, hk.calls, hk.replies⟩

theorem identityStable_idleStep (s : State) : IdentityStable s (idleStep s) := by
  unfold idleStep
  split
  · exact (identityStable_engineStep _ _).outside
  · exact .inl (.refl s)

theorem identityStable_eventStep {e : Event} {s t : State} (h : eventStep e s = .next t) : IdentityStable s t := by
  cases e with
  | host op => exact .inl (identityKept_hostStep h)
  | poll a => cases h; exact identityStable_engineStep a s
  | reset => cases h; exact .inl (identityKept_of_eq rfl rfl rfl rfl)

theorem identityStable_step {s t : State} (h : step s = .next t) : IdentityStable s t := by
  unfold step at h
  split at h
  · cases h; exact identityStable_idleStep s
  · exact (identityStable_eventStep h).outside

/-- Settles O53: from `identityStable_step`, which splits on the next event. -/
theorem identityIsStable : Obligations.IdentityIsStable := by
  unfold Obligations.IdentityIsStable
  intro s t h
  obtain hk | ⟨hwait, addr, hk⟩ := identityStable_step h
  · exact ⟨hk.params, by rw [hk.trx], fun hne => absurd (by rw [hk.trx]) hne, hk.calls, hk.replies⟩
  · exact ⟨hk.params, by rw [hk.trx]; rfl, fun _ => hwait, hk.calls, hk.replies⟩

end Sys2Proof.Machine
end

section
/-! The statements of the family `10_state.md`, the invariants (O55, O56, O59): each is a predicate that reads a few
fields only, so one congruence lemma carries it over everything else; what writes those fields is then checked case by
case, and `Preserved.step` gives every step. -/

namespace Sys2Proof.Machine

/-! ### What the shared bodies leave as it was -/

@[simp] theorem writeQuotient_rmu (rd : Reg) (a d : Int) (s : State) : (writeQuotient rd a d s).rmu = s.rmu := by
  unfold writeQuotient; split <;> rfl
@[simp] theorem writeQuotient_tx (rd : Reg) (a d : Int) (s : State) : (writeQuotient rd a d s).tx = s.tx := by
  unfold writeQuotient; split <;> rfl
@[simp] theorem writeQuotient_rx (rd : Reg) (a d : Int) (s : State) : (writeQuotient rd a d s).rx = s.rx := by
  unfold writeQuotient; split <;> rfl
@[simp] theorem fsm_writeQuotient (rd : Reg) (a d : Int) (s : State) : (writeQuotient rd a d s).ctl.fsm = s.ctl.fsm := by
  unfold writeQuotient; split <;> simp
@[simp] theorem busy_writeQuotient (rd : Reg) (a d : Int) (s : State) : (writeQuotient rd a d s).busy = s.busy := by
  unfold writeQuotient; split <;> simp

/-! ### The buffers and `TXLEN` -/

/-- Both buffers are canonical and `TXLEN` is 0 or the length of a kind. -/
structure BuffersLegal (s : State) : Prop where
  tx : Memory.wf s.tx.buf = true
  rx : Memory.wf s.rx.buf = true
  len : txlenLegal s = true

theorem buffersLegal_iff (s : State) : BuffersLegal s ↔ buffersCanonical s = true ∧ txlenLegal s = true := by
  rw [canonical_iff]
  exact ⟨fun h => ⟨⟨h.tx, h.rx⟩, h.len⟩, fun ⟨⟨htx, hrx⟩, hlen⟩ => ⟨htx, hrx, hlen⟩⟩

theorem BuffersLegal.congr {s t : State} (h : BuffersLegal s) (htx : t.tx.buf = s.tx.buf) (hrx : t.rx.buf = s.rx.buf)
    (hlen : t.tx.len = s.tx.len) : BuffersLegal t where
  tx := htx ▸ h.tx
  rx := hrx ▸ h.rx
  len := by rw [txlenLegal, hlen]; exact h.len

theorem Judged.buffersLegal {s u : State} (hj : Judged s u) (h : BuffersLegal s) : BuffersLegal u where
  tx := by rw [hj.tx]; exact h.tx
  rx := hj.buf h.rx
  len := by rw [txlenLegal, hj.tx]; exact h.len

/-- An encode stores at most 18 octets and leaves the length of its kind in `TXLEN` (R160, R170). -/
theorem BuffersLegal.encodeFrame {s : State} (h : BuffersLegal s) (k : Kind) : BuffersLegal (encodeFrame k s) where
  tx := by
    rw [encodeFrame_buf]
    exact writeOctets_wf h.tx (by rw [length_frameOf]; cases k <;> decide)
  rx := h.rx
  len := by cases k <;> rfl

theorem BuffersLegal.decodeCommand {s : State} (h : BuffersLegal s) (k : Kind) : BuffersLegal (decodeCommand k s) := by
  have hd := ((Judged.refl s).decodeFrame k).1.buffersLegal h
  unfold Machine.decodeCommand
  split <;> (rename_i heq; rw [heq] at hd)
  · exact hd
  · exact hd.congr rfl rfl rfl

/-- An encode, its frame handed to the transceiver at once (R172), and the move to the next state. -/
theorem BuffersLegal.transmitted {s : State} (k : Kind) (f : FsmState) (h : BuffersLegal s) :
    BuffersLegal ((transmit (Machine.encodeFrame k s)).goto f) := (h.encodeFrame k).congr rfl rfl rfl

theorem BuffersLegal.transmittedDelayed {s : State} (k : Kind) (f : FsmState) (fut : Raw40) (h : BuffersLegal s) :
    BuffersLegal ((transmitDelayed fut (Machine.encodeFrame k s)).goto f) := (h.encodeFrame k).congr rfl rfl rfl

theorem BuffersLegal.startTag {s : State} (h : BuffersLegal s) : BuffersLegal (startTag s) :=
  .transmitted .blink .blinkSent (h.congr rfl rfl rfl)

theorem BuffersLegal.sendPoll {s : State} (h : BuffersLegal s) : BuffersLegal (sendPoll s) :=
  .transmitted .poll .pollSent (h.congr rfl rfl rfl)

theorem BuffersLegal.sendVerdict {s : State} (h : BuffersLegal s) : BuffersLegal (sendVerdict s) := by
  unfold Machine.sendVerdict
  dsimp only
  split
  · exact .transmitted .confirm .confirmSent (h.congr rfl rfl rfl)
  · exact .transmitted .finished .finishedSent (h.congr rfl rfl rfl)

theorem BuffersLegal.writeQuotient {s : State} (h : BuffersLegal s) (rd : Reg) (a d : Int) :
    BuffersLegal (writeQuotient rd a d s) := h.congr (by simp) (by simp) (by simp)

theorem BuffersLegal.commandBody {s : State} (h : BuffersLegal s) (i : Instr) : BuffersLegal (commandBody i s) := by
  have hreject (c : RejectCode) : BuffersLegal (s.reject c) := h.congr rfl rfl rfl
  cases i with
  | tsDivs rd ra => exact h.writeQuotient ..
  | tsDivt rd ra rb => exact h.writeQuotient ..
  | rngCompute =>
    obtain ⟨-, -, htx, hrx, -⟩ := computeRange_keeps s
    exact h.congr (congrArg Tx.buf htx) (congrArg Rx.buf hrx) (congrArg Tx.len htx)
  | fcEnc k =>
    simp only [Machine.commandBody]
    split
    · exact hreject _
    · exact h.encodeFrame _
  | fcDec k =>
    simp only [Machine.commandBody]
    split
    · exact hreject _
    · exact h.decodeCommand _
  | sesTag =>
    simp only [Machine.commandBody]
    split
    · exact h.startTag
    · exact hreject _
  | sesAnchor => simp only [Machine.commandBody]; split <;> exact h.congr rfl rfl rfl
  | sesAdmit => simp only [Machine.commandBody]; split <;> exact h.congr rfl rfl rfl
  | _ => exact h.congr rfl rfl rfl

theorem rangeExchange_buffers (s : State) : (rangeExchange s).tx = s.tx ∧ (rangeExchange s).rx = s.rx := by
  obtain ⟨-, -, htx, hrx, -⟩ := computeRange_keeps s
  obtain ⟨-, he⟩ | ⟨-, -, he⟩ | ⟨-, -, he⟩ := rangeExchange_cases s <;> rw [he] <;> exact ⟨htx, hrx⟩

theorem BuffersLegal.carryOn {u : State} (h : BuffersLegal u) (a : TrxAnswers) : BuffersLegal (carryOn a u) := by
  cases hf : u.ctl.fsm
  case awaitingFinal =>
    rw [carryOn_awaitingFinal hf]
    have hu : BuffersLegal (completedExchange a u) := h.congr rfl rfl rfl
    obtain ⟨htx, hrx⟩ := rangeExchange_buffers (completedExchange a u)
    exact hu.congr (congrArg Tx.buf htx) (congrArg Rx.buf hrx) (congrArg Tx.len htx)
  all_goals rw [Machine.carryOn, hf]; dsimp only
  case awaitingInitiation => exact .sendPoll (h.congr rfl rfl rfl)
  case nextAnchor => exact h.sendPoll
  case awaitingResponse => exact .transmittedDelayed .final .finalSent _ (h.congr rfl rfl rfl)
  case awaitingPoll => exact .transmitted .resp .responseSent (h.congr rfl rfl rfl)
  case awaitingBlink => exact .transmitted .rinit .initiationSent (h.congr rfl rfl rfl)
  case rangeComputed => exact h.sendVerdict
  case awaitingConfirm => split <;> exact h.congr rfl rfl rfl
  all_goals exact h.congr rfl rfl rfl

theorem BuffersLegal.engineStep {s : State} (h : BuffersLegal s) (a : TrxAnswers) (hb : s.busy = true) :
    BuffersLegal (engineStep a s) := by
  obtain ⟨l, he⟩ | ⟨c, d, u, -, hj, he⟩ | ⟨u, hj, he⟩ := engineStep_cases (a := a) hb <;> rw [he]
  · exact h.congr rfl rfl rfl
  · exact (hj.buffersLegal h).congr rfl rfl rfl
  · exact (hj.buffersLegal h).carryOn a

theorem buffersLegal_reset : BuffersLegal State.reset := ⟨rfl, rfl, rfl⟩

theorem preserved_buffersLegal : Preserved BuffersLegal where
  outside _ _ _ h := h.congr rfl rfl rfl
  reject _ _ h := h.congr rfl rfl rfl
  reply _ _ h := h.congr rfl rfl rfl
  writeStatus _ _ h := h.congr rfl rfl rfl
  writeReg _ _ _ _ h _ hw := by
    obtain ⟨-, -, -, -, -, -, -, htx, hrx, hlen, -⟩ := writeReg_some hw
    exact h.congr htx hrx hlen
  bufWrite _ _ v h _ hoff := ⟨h.tx, writeOctet_wf v h.rx hoff, h.len⟩
  command _ i h _ := h.commandBody i
  session _ a h hb := h.engineStep a hb
  reset _ := buffersLegal_reset.congr rfl rfl rfl

/-- Settles O55: canonical buffers and a legal `TXLEN` are kept in every case of `Preserved`. -/
theorem buffersStayCanonical : Obligations.BuffersStayCanonical := by
  unfold Obligations.BuffersStayCanonical
  intro s t hcanonical hlen hstep
  exact (buffersLegal_iff t).1 (preserved_buffersLegal.step ((buffersLegal_iff s).2 ⟨hcanonical, hlen⟩) hstep)

/-! ### `STATUS.BUSY` and `FSM_STATE` -/

theorem busy_congr {s t : State} (h : t.ctl = s.ctl) : t.busy = s.busy := by rw [State.busy, h]; rfl

theorem busy_startTag (s : State) : (startTag s).busy = true := State.busy_setBusy true s
theorem busy_startAnchor (s : State) : (startAnchor s).busy = true := State.busy_setBusy true s
theorem busy_startAdmit (s : State) : (startAdmit s).busy = true := State.busy_setBusy true s

theorem sessionConsistent_congr {s t : State} (hbusy : t.busy = s.busy) (hfsm : t.ctl.fsm = s.ctl.fsm)
    (h : sessionConsistent s = true) : sessionConsistent t = true := by
  rw [sessionConsistent, hbusy, hfsm]; exact h

theorem sessionConsistent_busy {s : State} (hbusy : s.busy = true) (hrun : s.ctl.fsm.running = true) :
    sessionConsistent s = true := by rw [sessionConsistent, if_pos hbusy]; exact hrun

theorem sessionConsistent_ready {s : State} (hbusy : s.busy = false) (hrest : s.ctl.fsm.atRest = true) :
    sessionConsistent s = true := by rw [sessionConsistent, hbusy]; exact hrest

/-- A session step that goes on to a running state. -/
theorem sessionConsistent_moved {s t : State} {f : FsmState} (hb : s.busy = true)
    (hctl : t.ctl = { s.ctl with fsm := f }) (hrun : f.running = true) : sessionConsistent t = true :=
  sessionConsistent_busy (by rw [State.busy, hctl]; exact hb) (by rw [hctl]; exact hrun)

/-- A session step that clears `BUSY` in a terminal state. -/
theorem sessionConsistent_ended {s t : State} {f : FsmState}
    (hctl : t.ctl = { s.ctl with fsm := f, status := setBit s.ctl.status 0 false }) (hrest : f.atRest = true) :
    sessionConsistent t = true :=
  sessionConsistent_ready (by rw [State.busy, hctl]; simp) (by rw [hctl]; exact hrest)

/-- A failed session is over (R246, R264). -/
theorem sessionConsistent_raiseErr (c : ErrClass) (d : ErrDetail) (s : State) :
    sessionConsistent (raiseErr c d s) = true := sessionConsistent_ready (busy_raiseErr c d s) rfl

theorem sessionConsistent_commandBody (i : Instr) {s : State} (h : sessionConsistent s = true) (hb : s.busy = false) :
    sessionConsistent (commandBody i s) = true := by
  have hreject (c : RejectCode) : sessionConsistent (s.reject c) = true :=
    sessionConsistent_congr (State.busy_reject c s) rfl h
  cases i with
  | tsToraw ra => exact sessionConsistent_congr (State.busy_setRawInvalid _ s) rfl h
  | rngCompute =>
    obtain ⟨hctl, -⟩ := computeRange_keeps s
    exact sessionConsistent_congr (busy_congr hctl) (congrArg Ctl.fsm hctl) h
  | rngCorrect => exact h
  | fcEnc k =>
    simp only [commandBody]
    split
    · exact hreject _
    · exact h
  | fcDec k =>
    simp only [commandBody]
    split
    · exact hreject _
    · obtain ⟨hfsm, hbusy, -⟩ := decodeCommand_keeps ‹_› s
      exact sessionConsistent_congr hbusy hfsm h
  | sesTag =>
    simp only [commandBody]
    split
    · exact sessionConsistent_busy (busy_startTag s) rfl
    · exact hreject _
  | sesAnchor =>
    simp only [commandBody]
    split
    · exact sessionConsistent_busy (busy_startAnchor s) rfl
    · exact hreject _
  | sesAdmit =>
    simp only [commandBody]
    split
    · exact sessionConsistent_busy (busy_startAdmit s) rfl
    · exact hreject _
  | sesClear => exact sessionConsistent_ready hb rfl
  | _ => exact sessionConsistent_congr (by simp [commandBody]) (by simp [commandBody, writeConv]) h

/-- The three ways out of the anchor's ranging step leave the session failed or in `RangeComputed` (R228, R229). -/
theorem sessionConsistent_rangeExchange {s : State} (hb : s.busy = true) :
    sessionConsistent (rangeExchange s) = true := by
  obtain ⟨hctl, -⟩ := computeRange_keeps s
  obtain ⟨-, he⟩ | ⟨-, -, he⟩ | ⟨-, -, he⟩ := rangeExchange_cases s <;> rw [he]
  · exact sessionConsistent_raiseErr ..
  · exact sessionConsistent_raiseErr ..
  · exact sessionConsistent_busy ((busy_congr hctl).trans hb) rfl

theorem sessionConsistent_carryOn (a : TrxAnswers) {u : State} (h : sessionConsistent u = true) (hb : u.busy = true) :
    sessionConsistent (carryOn a u) = true := by
  by_cases hfinal : u.ctl.fsm = .awaitingFinal
  · rw [carryOn_awaitingFinal hfinal]
    refine sessionConsistent_rangeExchange ?_
    rw [completedExchange_eq]; exact hb
  · have hctl := ctl_carryOn a u hfinal
    cases hf : u.ctl.fsm <;> simp only [hf] at hctl
    case awaitingFinal => exact absurd hf hfinal
    case idle | done | failed | admitted =>
      exact sessionConsistent_congr (busy_congr hctl) (congrArg Ctl.fsm hctl) h
    case confirmSent | finishedSent | initiationSent => exact sessionConsistent_ended hctl rfl
    case awaitingConfirm =>
      split at hctl
      · exact sessionConsistent_moved hb hctl rfl
      · exact sessionConsistent_ended hctl rfl
    case rangeComputed => exact sessionConsistent_moved hb hctl (by split <;> rfl)
    all_goals exact sessionConsistent_moved hb hctl rfl

theorem sessionConsistent_engineStep (a : TrxAnswers) {s : State} (h : sessionConsistent s = true) (hb : s.busy = true) :
    sessionConsistent (engineStep a s) = true := by
  obtain ⟨l, he⟩ | ⟨c, d, u, -, -, he⟩ | ⟨u, hj, he⟩ := engineStep_cases (a := a) hb <;> rw [he]
  · exact h
  · exact sessionConsistent_raiseErr c d u
  · exact sessionConsistent_carryOn a (sessionConsistent_congr hj.busy hj.fsm h) (hj.busy.trans hb)

theorem sessionConsistent_reset : sessionConsistent State.reset = true := by decide

theorem preserved_sessionConsistent : Preserved (sessionConsistent · = true) where
  outside _ _ _ h := h
  reject s c h := sessionConsistent_congr (State.busy_reject c s) rfl h
  reply _ _ h := h
  writeStatus s v h := sessionConsistent_congr (busy_writeStatus v s) rfl h
  writeReg _ _ _ _ h _ hw := by
    obtain ⟨-, -, -, -, hfsm, hstatus, -⟩ := writeReg_some hw
    exact sessionConsistent_congr (congrArg (·.getLsbD 0) hstatus) hfsm h
  bufWrite _ _ _ h _ _ := h
  command _ i h hb := sessionConsistent_commandBody i h hb
  session _ a h hb := sessionConsistent_engineStep a h hb
  reset _ := sessionConsistent_congr (s := State.reset) rfl rfl sessionConsistent_reset

/-- Settles O56: `BUSY` and `FSM_STATE` agree after every case of `Preserved`; a session step either stays in a running
state, or clears `BUSY` in a terminal one. -/
theorem sessionStaysConsistent : Obligations.SessionStaysConsistent := by
  unfold Obligations.SessionStaysConsistent
  exact fun _ _ h hstep => preserved_sessionConsistent.step h hstep

/-! ### `RANGE_STATUS` and `TOF_DEN` -/

/-- `RANGE_STATUS` and `TOF_DEN` hold legal values (R38, R40, R145). -/
structure RangeLegal (s : State) : Prop where
  status : rangeStatusLegal s = true
  den : denominatorLegal s = true

theorem RangeLegal.congr {s t : State} (h : RangeLegal s) (hstatus : t.rmu.rangeStatus = s.rmu.rangeStatus)
    (hden : t.rmu.tofDen = s.rmu.tofDen) : RangeLegal t where
  status := by rw [rangeStatusLegal, hstatus]; exact h.status
  den := by rw [denominatorLegal, hden]; exact h.den

theorem RangeLegal.of_rmu {s t : State} (h : RangeLegal s) (hrmu : t.rmu = s.rmu) : RangeLegal t :=
  h.congr (congrArg Rmu.rangeStatus hrmu) (congrArg Rmu.tofDen hrmu)

theorem denominatorLegal_iff (s : State) :
    denominatorLegal s = true ↔ 0 ≤ s.rmu.tofDen.toInt ∧ s.rmu.tofDen.toInt < 2 ^ 42 := by
  simp [denominatorLegal]

/-- Each of the five values `RNG.COMPUTE` writes is legal (R40, R141). -/
theorem rangeStatusLegal_computeRange (s : State) : rangeStatusLegal (computeRange s) = true := by
  rw [rangeStatusLegal, rangeStatus_computeRange]
  split_ifs <;> decide

/-- `TOF_DEN` after `RNG.COMPUTE` (R141): the sum of four valid legs, 0 for invalid ones, as before without an exchange. -/
theorem denominatorLegal_computeRange {s : State} (h : denominatorLegal s = true) :
    denominatorLegal (computeRange s) = true := by
  by_cases hmask : s.tsu.exchMask = 0b111111#6
  · rw [denominatorLegal_iff, computeRange_complete hmask]
    by_cases hlegs : legsValid (exchangeLegs s) = true
    · obtain ⟨hnonneg, hlt⟩ := tofDenominator_bounds hlegs
      have hden : (rangeRegisters (exchangeLegs s) s.rmu).tofDen = toTs (tofDenominator (exchangeLegs s)) := by
        simp only [rangeRegisters, if_pos hlegs]; split <;> rfl
      rw [hden, toInt_toTs (by omega) (by omega)]
      exact ⟨hnonneg, hlt⟩
    · have hden : (rangeRegisters (exchangeLegs s) s.rmu).tofDen = 0 := by
        simp only [rangeRegisters, if_neg hlegs]
      rw [hden]
      decide
  · rw [computeRange_incomplete hmask]; exact h

theorem RangeLegal.computeRange {s : State} (h : RangeLegal s) : RangeLegal (computeRange s) :=
  ⟨rangeStatusLegal_computeRange s, denominatorLegal_computeRange h.den⟩

theorem extractLsb'_rsCorrected (high low clamped : Bool) (v : BitVec 8) :
    (rsCorrected high low clamped v).extractLsb' 0 4 = v.extractLsb' 0 4 := by
  apply BitVec.eq_of_getLsbD_eq
  intro i hi
  simp [getLsbD_rsCorrected, hi]

/-- A correction keeps bits 0 to 3, sets `CORRECTED`, and never sets both power flags (R40, R150). -/
theorem RangeLegal.correctRange {s : State} (h : RangeLegal s) : RangeLegal (correctRange s) where
  status := by
    obtain ⟨high, low, clamped, hstatus, hpower⟩ := rangeStatus_correctRange s
    have hlow := h.status
    simp only [rangeStatusLegal, Bool.and_eq_true] at hlow
    obtain ⟨⟨hcompute, -⟩, -⟩ := hlow
    have hone : (low && high) = false := Bool.eq_false_iff.2 fun hb => hpower (by simpa [and_comm] using hb)
    rw [rangeStatusLegal, hstatus]
    simp only [extractLsb'_rsCorrected, getLsbD_rsCorrected, hcompute]
    simp [hone]
  den := h.den

theorem RangeLegal.commandBody {s : State} (h : RangeLegal s) (i : Instr) : RangeLegal (commandBody i s) := by
  have hreject (c : RejectCode) : RangeLegal (s.reject c) := h.of_rmu rfl
  cases i with
  | tsDivs rd ra => exact h.of_rmu (writeQuotient_rmu ..)
  | tsDivt rd ra rb => exact h.of_rmu (writeQuotient_rmu ..)
  | rngCompute => exact h.computeRange
  | rngCorrect => exact h.correctRange
  | fcEnc k => simp only [Machine.commandBody]; split <;> exact h.of_rmu rfl
  | fcDec k =>
    simp only [Machine.commandBody]
    split
    · exact hreject _
    · obtain ⟨-, -, -, hrmu, -⟩ := decodeCommand_keeps ‹_› s
      exact h.of_rmu hrmu
  | sesTag => simp only [Machine.commandBody]; split <;> exact h.of_rmu rfl
  | sesAnchor => simp only [Machine.commandBody]; split <;> exact h.of_rmu rfl
  | sesAdmit => simp only [Machine.commandBody]; split <;> exact h.of_rmu rfl
  | _ => exact h.of_rmu rfl

theorem RangeLegal.rangeExchange {s : State} (h : RangeLegal s) : RangeLegal (rangeExchange s) := by
  obtain ⟨-, he⟩ | ⟨-, -, he⟩ | ⟨-, -, he⟩ := rangeExchange_cases s <;> rw [he]
  · exact h.computeRange.of_rmu rfl
  · exact h.computeRange.of_rmu rfl
  · exact h.computeRange.correctRange.of_rmu rfl

/-- Of the session's steps only the anchor's ranging step writes the ranging registers (R206, R228). -/
theorem RangeLegal.carryOn {u : State} (h : RangeLegal u) (a : TrxAnswers) : RangeLegal (carryOn a u) := by
  cases hf : u.ctl.fsm
  case awaitingFinal =>
    rw [carryOn_awaitingFinal hf]
    exact RangeLegal.rangeExchange (h.congr rfl rfl)
  all_goals rw [Machine.carryOn, hf]; dsimp only
  case awaitingConfirm => split <;> exact h.of_rmu rfl
  case rangeComputed => unfold sendVerdict; dsimp only; split <;> exact h.of_rmu rfl
  all_goals exact h.of_rmu rfl

theorem RangeLegal.engineStep {s : State} (h : RangeLegal s) (a : TrxAnswers) (hb : s.busy = true) :
    RangeLegal (engineStep a s) := by
  obtain ⟨l, he⟩ | ⟨c, d, u, -, hj, he⟩ | ⟨u, hj, he⟩ := engineStep_cases (a := a) hb <;> rw [he]
  · exact h.of_rmu rfl
  · exact h.of_rmu hj.rmu
  · exact (h.of_rmu hj.rmu).carryOn a

theorem rangeLegal_reset : RangeLegal State.reset := ⟨by decide, by decide⟩

theorem preserved_rangeLegal : Preserved RangeLegal where
  outside _ _ _ h := h.of_rmu rfl
  reject _ _ h := h.of_rmu rfl
  reply _ _ h := h.of_rmu rfl
  writeStatus _ _ h := h.of_rmu rfl
  writeReg _ _ _ _ h _ hw := by
    obtain ⟨-, -, -, -, -, -, -, -, -, -, hstatus, hden, -⟩ := writeReg_some hw
    exact h.congr hstatus hden
  bufWrite _ _ _ h _ _ := h.of_rmu rfl
  command _ i h _ := h.commandBody i
  session _ a h hb := h.engineStep a hb
  reset _ := rangeLegal_reset.of_rmu rfl

/-- Settles O59: only `RNG.COMPUTE` and `RNG.CORRECT`, as commands and inside the anchor's session, write these two
registers, and what they write is legal. -/
theorem rangeRegistersStayLegal : Obligations.RangeRegistersStayLegal := by
  unfold Obligations.RangeRegistersStayLegal
  intro s t hstatus hden hstep
  obtain ⟨hstatus', hden'⟩ := preserved_rangeLegal.step ⟨hstatus, hden⟩ hstep
  exact ⟨hstatus', hden'⟩

end Sys2Proof.Machine
end

section
/-! The statements of the family `10_state.md` about `RNG.CORRECT` and the host port (O23, O34, O5, O33, O35) and about
reset (O38, O60). -/

namespace Sys2Proof.Machine

/-! ### `RNG.CORRECT` -/

theorem correctKept_correctRange (s : State) : CorrectKept s (correctRange s) where
  ctl := rfl
  tsu := rfl
  legs := ⟨rfl, rfl, rfl, rfl⟩
  tof := ⟨rfl, rfl⟩
  distRaw := rfl
  inputs := ⟨rfl, rfl, rfl⟩
  ses := rfl
  tx := rfl
  rx := rfl
  octets := octetsKept_of_bufs rfl rfl
  surroundings := ⟨rfl, rfl, rfl, rfl, rfl⟩

/-- The key of R39 as its two bits. -/
theorem toNat_biaskey (v : BitVec 2) : v.toNat = 2 * (v.getLsbD 1).toNat + (v.getLsbD 0).toNat := by
  decide +revert

theorem selectedTable_eq {s : State} {k : Fin 4}
    (hk : k.val = 2 * (s.rmu.biaskey.getLsbD 1).toNat + (s.rmu.biaskey.getLsbD 0).toNat) :
    selectedTable s = s.params.biasRom[k] := by
  have hkey : biasKeyIndex s = k := Fin.ext ((toNat_biaskey _).trans hk.symm)
  subst hkey
  rfl

/-- Settles O23: the correction's values are `corrected_correctRange`, its frame is by the fields of the record update. -/
theorem rngCorrectAddsBias : Obligations.RngCorrectAddsBias := by
  unfold Obligations.RngCorrectAddsBias
  refine ⟨by decide, fun s k hb hk => ⟨correctRange s, exec_rngCorrect hb, correctKept_correctRange s, ?_, fun i => ?_⟩⟩
  · rw [← selectedTable_eq hk]
    exact corrected_correctRange s
  · obtain ⟨high, low, clamped, hstatus, -⟩ := rangeStatus_correctRange s
    rw [hstatus, getLsbD_rsCorrected, if_pos i.isLt]

/-! ### Host writes -/

theorem hostRegAt_writable : ∀ p ∈ writableRegs, (hostRegAt p.1).isSome = true := by decide

/-- The timestamp registers, from index `0x80` on, are read-only (R46). -/
theorem timestamp_not_writable (i : Reg) (w : Nat) : ((HostReg.t i).index, w) ∉ writableRegs := by
  have hbelow : ∀ p ∈ writableRegs, p.1.toNat < 0x80 := by decide
  intro h
  have hlt := hbelow _ h
  have := i.isLt
  simp only [HostReg.index, BitVec.toNat_add, BitVec.toNat_ofNat] at hlt
  omega

/-- A writable register takes the low bits of the port's carrier and reads them back (R71, R72). -/
theorem writeReg_writable {r : HostReg} {w : Nat} (h : (r.index, w) ∈ writableRegs) (v : BitVec 128) (s : State) :
    ∃ t, writeReg r v s = some t ∧ readReg r t = (v.setWidth w).setWidth 128 := by
  cases r
  case t i => exact absurd h (timestamp_not_writable i w)
  all_goals simp only [writableRegs, HostReg.index, BitVec.ofNat_eq_ofNat, BitVec.reduceEq, List.mem_cons,
    List.not_mem_nil, Prod.mk.injEq, true_and, false_and, or_self, or_false, false_or] at h
  all_goals subst h
  case distRaw => exact ⟨_, rfl, by simp [readReg]⟩
  all_goals exact ⟨_, rfl, rfl⟩

/-- What lies outside the engine is as before a register write. -/
theorem writeReg_frame {r : HostReg} {v : BitVec 128} {s t : State} (h : writeReg r v s = some t) :
    OctetsKept s t ∧ SurroundingsKept s t ∧ t.free = s.free := by
  cases r <;> simp only [writeReg] at h <;> cases h <;> exact ⟨octetsKept_of_bufs rfl rfl, ⟨rfl, rfl, rfl, rfl, rfl⟩, rfl⟩

theorem ne_cmd_status_of_writable {idx : BitVec 8} {w : Nat} (h : (idx, w) ∈ writableRegs) : idx ≠ 0x00#8 ∧ idx ≠ 0x01#8 := by
  have : ∀ p ∈ writableRegs, p.1 ≠ 0x00#8 ∧ p.1 ≠ 0x01#8 := by decide
  exact this _ h

/-- Settles O34: a writable index names a register that `writeReg` accepts; every other index is read-only or unlisted, and
`writePlain` refuses it. -/
theorem hostWrites : Obligations.HostWrites := by
  unfold Obligations.HostWrites
  intro s idx v hb
  refine ⟨fun w hw => ?_, fun hcmd hstatus hro => ⟨s.reject .writeRefused, ?_, onlyRejected_reject _ s⟩⟩
  · obtain ⟨hcmd, hstatus⟩ := ne_cmd_status_of_writable hw
    obtain ⟨r, hr⟩ := Option.isSome_iff_exists.1 (hostRegAt_writable _ hw)
    have hidx : r.index = idx := index_eq hr
    obtain ⟨t, ht, hread⟩ := writeReg_writable (hidx ▸ hw) v s
    refine ⟨t, ?_, ?_, fun j hj => read_other ht (hidx ▸ hj), writeReg_frame ht⟩
    · rw [hostWrite_plain hcmd hstatus, hr]
      simp [writePlain, hb, ht]
    · rw [hostReadValue, hr]; exact hread
  · rw [hostWrite_plain hcmd hstatus]
    cases hr : hostRegAt idx with
    | none => simp [writePlain, hb]
    | some r =>
      obtain ⟨w, hw⟩ | hnone := writeReg_none_or r v s
      · exact absurd (index_eq hr ▸ hw) (hro w)
      · simp [writePlain, hb, hnone]

/-! ### The step that runs a command -/

theorem submit_of_decode {w : CmdWord} {i : Instr} (h : decode w = .ok i) (s : State) : submit w s = exec i s := by
  unfold submit
  split
  · rename_i hb; rw [exec_busy hb]
  · rw [h]

theorem step_cmd {s : State} {rest : List Event} {v : BitVec 128} {i : Instr}
    (hs : s.sched = .host (.write 0x00#8 v) :: rest) (hi : decode (v.setWidth 32) = .ok i) :
    step s = exec i { s with sched := rest } := by
  rw [step, hs]
  exact submit_of_decode hi _

/-- The word that `withFetchWord` places is the word that is decoded. -/
theorem setWidth_placed (w : CmdWord) : ((BitVec.ofNat 32 (w.toNat % 2 ^ 32)).setWidth 128).setWidth 32 = w := by
  apply BitVec.eq_of_toNat_eq
  have := w.isLt
  simp
  omega

/-- Settles O5: from `step_cmd`; a placed word is the head of the schedule, and taking it off gives the state back. -/
theorem stepRunsCommand : Obligations.StepRunsCommand := by
  unfold Obligations.StepRunsCommand
  refine ⟨fun s rest v i hs hi => step_cmd hs hi, fun s w i hi => ?_⟩
  exact step_cmd (s := s.withFetchWord 32 w.toNat) (rest := s.sched) rfl (by rw [setWidth_placed]; exact hi)

/-! ### Host reads -/

/-! The codes of R31, R34 and R35 count up in the order of the spec's tables. -/

theorem FsmState.toNat_code (f : FsmState) : f.code.toNat = fsmStates.idxOf f := by cases f <;> rfl
theorem ErrClass.toNat_code (c : ErrClass) : c.code.toNat = errClasses.idxOf c := by cases c <;> rfl
theorem ErrDetail.toNat_code (d : ErrDetail) : d.code.toNat = errDetails.idxOf d := by cases d <;> rfl
theorem RejectCode.toNat_code (c : RejectCode) : c.code.toNat = rejectCodes.idxOf c := by cases c <;> rfl

/-- The fields of `ERR` at their places (R34). -/
theorem errWord_eq (e : ErrReg) : (errWord e).setWidth 128 = errValue e := by
  have := e.state.code.isLt; have := e.detail.code.isLt; have := e.cls.code.isLt
  have h : (errWord e).toNat = e.cls.code.toNat + 16 * e.detail.code.toNat + 256 * e.state.code.toNat := by
    simp only [errWord, BitVec.toNat_append, BitVec.toNat_ofNat, Nat.zero_mod]
    rw [← Nat.shiftLeft_add_eq_or_of_lt (by omega), ← Nat.shiftLeft_add_eq_or_of_lt (by omega),
      ← Nat.shiftLeft_add_eq_or_of_lt (by omega), ← Nat.shiftLeft_add_eq_or_of_lt (by omega)]
    simp only [Nat.shiftLeft_eq]
    omega
  rw [← BitVec.ofNat_toNat, h, ErrClass.toNat_code, ErrDetail.toNat_code, FsmState.toNat_code, errValue]

/-- Every listed index has its row: the rows' indices do not depend on the state. -/
theorem exists_mem_registerValues (s : State) {idx : BitVec 8} (h : listedIndex idx = true) :
    ∃ v, (idx, v) ∈ registerValues s := by
  have key : ∀ idx, listedIndex idx = true → idx ∈ (registerValues State.reset).map Prod.fst := by decide
  have hmap : (registerValues s).map Prod.fst = (registerValues State.reset).map Prod.fst := rfl
  obtain ⟨p, hp, rfl⟩ := List.mem_map.1 (hmap.symm ▸ key idx h)
  exact ⟨p.2, hp⟩

theorem read_registerValues (s : State) : ∀ r ∈ registerValues s, hostReadValue r.1 s = r.2 := by
  have herr : hostReadValue 0x03#8 s = errValue s.ctl.err := errWord_eq _
  have hfsm : hostReadValue 0x04#8 s = BitVec.ofNat 128 (fsmStates.idxOf s.ctl.fsm) := by
    rw [← FsmState.toNat_code, BitVec.ofNat_toNat]; rfl
  have hcode : hostReadValue 0x05#8 s = BitVec.ofNat 128 (rejectCodes.idxOf s.ctl.cmdErrCode) := by
    rw [← RejectCode.toNat_code, BitVec.ofNat_toNat]; rfl
  simp only [registerValues, List.forall_mem_cons, List.not_mem_nil, false_implies,
    implies_true, herr, hfsm, hcode, true_and, and_true]
  and_intros
  all_goals rfl

/-- Settles O33: the register map is read off row by row (`read_registerValues`); a read is a record update of `replies`. -/
theorem hostReadsChangeNothing : Obligations.HostReadsChangeNothing := by
  unfold Obligations.HostReadsChangeNothing
  intro s
  refine ⟨fun _ => rfl, read_registerValues s, fun _ h => exists_mem_registerValues s h, fun idx h => ?_, fun idx r hr => ?_,
    fun _ _ => rfl, fun off ho => ?_, fun b off ho => ?_⟩
  · obtain hr | hr := hostRegAt_unlisted idx h
    · rw [hostReadValue, hr]
    · rw [hostReadValue, hr]; rfl
  · rw [hostReadValue, hr]; exact readReg_lt r s
  · exact ⟨if_pos ho, if_pos ho⟩
  · exact if_neg (by rw [frameMax]; omega)

/-! ### Host writes of `STATUS` -/

/-- The write-one-to-clear bits of `STATUS` (R32). -/
theorem getLsbD_clearSticky (status v : BitVec 7) (i : Fin 7) :
    (clearSticky status v).getLsbD i.val =
      (status.getLsbD i.val && !(v.getLsbD i.val && (decide (i.val = 3) || decide (i.val = 4) || decide (i.val = 5)))) := by
  have hmask : (0b0111000#7).getLsbD i.val = (decide (i.val = 3) || decide (i.val = 4) || decide (i.val = 5)) := by
    decide +revert
  rw [clearSticky, BitVec.getLsbD_and, BitVec.getLsbD_not, BitVec.getLsbD_and, hmask, decide_eq_true i.isLt, Bool.true_and]

/-- Settles O35: `getLsbD_clearSticky` at the seven low bits of the port's carrier. -/
theorem statusWriteClears : Obligations.StatusWriteClears := by
  unfold Obligations.StatusWriteClears
  intro s v
  refine ⟨writeStatus v s, rfl, fun i => ?_, rfl⟩
  have hcarrier : (v.setWidth 7).getLsbD i.val = v.getLsbD i.val := by
    rw [BitVec.getLsbD_setWidth, decide_eq_true i.isLt, Bool.true_and]
  rw [← hcarrier]
  exact getLsbD_clearSticky s.ctl.status (v.setWidth 7) i

/-! ### Reset -/

theorem hostReadValue_resetEngine (idx : BitVec 8) (s : State) :
    hostReadValue idx (resetEngine s) = hostReadValue idx State.reset := by
  unfold hostReadValue
  cases hostRegAt idx with
  | none => rfl
  | some r => cases r <;> rfl

theorem hostBufReadValue_reset (b : BufName) (off : Nat) : hostBufReadValue b off State.reset = 0 := by
  unfold hostBufReadValue
  split
  · cases b <;> rfl
  · rfl

/-- Settles O38: the reset input leaves the engine as `State.reset` has it, so both halves are one set of values. -/
theorem resetValues : Obligations.ResetValues := by
  unfold Obligations.ResetValues
  refine ⟨hostReadValue_reset, hostBufReadValue_reset, fun s => ⟨resetEngine s, rfl, fun idx => ?_, fun b off => ?_,
    rfl, rfl, rfl, ?_, rfl⟩⟩
  · rw [hostReadValue_resetEngine, hostReadValue_reset]
  · exact hostBufReadValue_reset b off
  · exact (busy_congr (s := State.reset) rfl).trans (by decide)

/-- Settles O60: the three invariants of this family by their lemmas on `State.reset`, the others by evaluation. -/
theorem resetMeetsInvariants : Obligations.ResetMeetsInvariants := by
  unfold Obligations.ResetMeetsInvariants
  obtain ⟨hcanonical, hlen⟩ := (buffersLegal_iff _).1 buffersLegal_reset
  exact ⟨hcanonical, hlen, sessionConsistent_reset, by decide, by decide, by decide, rangeLegal_reset.status,
    rangeLegal_reset.den⟩

end Sys2Proof.Machine
end

section
/-! The statements of the family `20_memory.md`: the octets a decode depends on (O28), the host's writes of the buffers (O36)
and of a running engine (O37), and the steps that run no command (O6). -/

namespace Sys2Proof.Machine

/-! ### The octets a decode depends on -/

/-- `s` with another content of `RXBUF`. -/
def State.withRxBuf (buf : Memory) (s : State) : State := { s with rx := { s.rx with buf := buf } }

/-- The field values of a frame of kind `k` are read below `MINLEN[k]` (R161 to R167). -/
theorem decodedFrom_withBuf {k : Kind} {r : Rx} {buf : Memory}
    (h : ∀ i, i < minLen k → readOctet buf i = readOctet r.buf i) :
    decodedFrom { r with buf := buf } k = { decodedFrom r k with buf := buf } := by
  cases k <;>
  · simp only [minLen] at h
    simp (disch := omega) only [decodedFrom, num16, num32, num64, h]

/-- Each of the four outcomes of a decode reads only octets that the tests before it have found in the frame (R178). -/
theorem decodeFrame_withRxBuf {k : Kind} {s : State} {buf : Memory}
    (h : ∀ i, i < s.rx.len.toNat → i < minLen k → readOctet buf i = readOctet s.rx.buf i) :
    decodeFrame k (s.withRxBuf buf) = ((decodeFrame k s).1.withRxBuf buf, (decodeFrame k s).2) := by
  have hmin : 0 < minLen k := by cases k <;> decide
  by_cases hempty : s.rx.len = 0#7
  · rw [decodeFrame_empty k s hempty, decodeFrame_empty k (s.withRxBuf buf) hempty]
    rfl
  have hpos : 0 < s.rx.len.toNat := Nat.pos_of_ne_zero fun h0 => hempty (BitVec.eq_of_toNat_eq h0)
  have hfirst : readOctet buf 0 = readOctet s.rx.buf 0 := h 0 hpos hmin
  by_cases hcode : readOctet s.rx.buf 0 = codeOfKind s.params k
  · have hcode' : readOctet (s.withRxBuf buf).rx.buf 0 = codeOfKind s.params k := hfirst.trans hcode
    by_cases hlen : s.rx.len.toNat < minLen k
    · rw [decodeFrame_short k s hpos hcode hlen, decodeFrame_short k (s.withRxBuf buf) hpos hcode' hlen]
      simp only [State.withRxBuf, State.setDecOk, State.setStatusBit, hfirst]
    · have hlen' : minLen k ≤ s.rx.len.toNat := Nat.le_of_not_lt hlen
      have hfields : decodedFrom (s.withRxBuf buf).rx k = { decodedFrom s.rx k with buf := buf } :=
        decodedFrom_withBuf fun i hi => h i (Nat.lt_of_lt_of_le hi hlen') hi
      rw [decodeFrame_accept k s hcode hlen', decodeFrame_accept k (s.withRxBuf buf) hcode' hlen', hfields]
      rfl
  · have hcode' : readOctet (s.withRxBuf buf).rx.buf 0 ≠ codeOfKind s.params k := hfirst ▸ hcode
    rw [decodeFrame_badFc k s hpos hcode, decodeFrame_badFc k (s.withRxBuf buf) hpos hcode']
    simp only [State.withRxBuf, State.setDecOk, State.setStatusBit, hfirst]

theorem decodeCommand_withRxBuf {k : Kind} {s : State} {buf : Memory}
    (h : ∀ i, i < s.rx.len.toNat → i < minLen k → readOctet buf i = readOctet s.rx.buf i) :
    decodeCommand k (s.withRxBuf buf) = (decodeCommand k s).withRxBuf buf := by
  unfold decodeCommand
  rw [decodeFrame_withRxBuf h]
  obtain ⟨u, d⟩ := decodeFrame k s
  cases d <;> rfl

/-- Settles O28: `decodeCommand_withRxBuf`, the kind's minimum length being the length of its frame. -/
theorem decodeReadsOnlyTheFrame : Obligations.DecodeReadsOnlyTheFrame := by
  unfold Obligations.DecodeReadsOnlyTheFrame
  intro k s buf hb h
  rw [length_frameOf] at h
  refine ⟨decodeCommand k s, exec_fcDec hb k, ?_⟩
  have hb' : (s.withRxBuf buf).busy = false := hb
  exact (exec_fcDec hb' k).trans (congrArg Host.Outcome.next (decodeCommand_withRxBuf h))

/-! ### The host's writes of the buffers -/

theorem hostBufWrite_refused {s : State} {b : BufName} {off : Nat} (h : s.busy = true ∨ b = .txbuf ∨ frameMax ≤ off)
    (v : Octet) : hostBufWrite b off v s = s.reject .writeRefused := by
  unfold hostBufWrite
  split
  · rfl
  · rename_i hb
    cases b with
    | txbuf => rfl
    | rxbuf =>
      have hoff : frameMax ≤ off := by simpa [hb] using h
      exact if_neg (Nat.not_lt.2 hoff)

theorem hostBufWrite_rxbuf {s : State} {off : Nat} (hb : s.busy = false) (ho : off < frameMax) (v : Octet) :
    hostBufWrite .rxbuf off v s = s.withRxBuf (writeOctet s.rx.buf off v) := by
  simp [hostBufWrite, State.withRxBuf, hb, ho]

/-- One octet of `RXBUF` takes the written value; every other octet of both buffers reads as before (R75). -/
theorem hostBufReadValue_written {s : State} {off : Nat} (hw : Memory.wf s.rx.buf = true) (ho : off < frameMax) (v : Octet)
    (b : BufName) (o : Nat) :
    hostBufReadValue b o (s.withRxBuf (writeOctet s.rx.buf off v)) =
      if b = .rxbuf ∧ o = off then v else hostBufReadValue b o s := by
  cases b with
  | txbuf => simp [hostBufReadValue, State.withRxBuf]
  | rxbuf =>
    simp only [hostBufReadValue, State.withRxBuf, readOctet_writeOctet off v hw, true_and]
    by_cases h : o = off
    · simp [h, ho]
    · simp [h]

theorem onlyRejected_of_hostStep {s t : State} {op : HostOp} {c : RejectCode} (ht : hostStep op s = .next t)
    (h : hostStep op s = .next (s.reject c)) : OnlyRejected c s t := by
  cases ht.symm.trans h
  exact onlyRejected_reject c s

/-- Settles O36: the one accepted write is `hostBufWrite_rxbuf`, the others are `hostBufWrite_refused`. -/
theorem hostBufferWrites : Obligations.HostBufferWrites := by
  unfold Obligations.HostBufferWrites
  intro s off v hb
  have refused (b : BufName) (h : b = .txbuf ∨ frameMax ≤ off) :
      ∃ t, hostStep (.bufWrite b off v) s = .next t ∧ OnlyRejected .writeRefused s t :=
    ⟨_, congrArg Host.Outcome.next (hostBufWrite_refused (.inr h) v), onlyRejected_reject _ s⟩
  refine ⟨fun ho hc => ?_, fun ho => refused .rxbuf (.inr ho), refused .txbuf (.inl rfl)⟩
  obtain ⟨-, hw⟩ := Bool.and_eq_true_iff.1 hc
  have ho' : off < frameMax := Nat.lt_succ_of_le ho
  exact ⟨_, congrArg Host.Outcome.next (hostBufWrite_rxbuf hb ho' v), hostBufReadValue_written hw ho' v, rfl⟩

/-! ### The host and a running session -/

/-- From `s` to `t` nothing a session works on has changed: all but the sticky flags, `CMD_ERR_CODE` and the record of the
host's answers (R73). -/
structure SessionUndisturbed (s t : State) : Prop where
  tsu : t.tsu = s.tsu
  rmu : t.rmu = s.rmu
  ses : t.ses = s.ses
  tx : t.tx = s.tx
  rx : t.rx = s.rx
  trx : t.trx = s.trx
  params : t.params = s.params
  calls : t.calls = s.calls
  sched : t.sched = s.sched
  free : t.free = s.free
  fsm : t.ctl.fsm = s.ctl.fsm
  ctrl : t.ctl.ctrl = s.ctl.ctrl
  err : t.ctl.err = s.ctl.err
  busy : t.busy = s.busy
  status : StatusKept [3, 4, 5] s t

theorem sessionUndisturbed_reply (r : HostReply) (s : State) : SessionUndisturbed s (s.reply r) := by
  constructor
  case status => exact fun _ _ => rfl
  all_goals rfl

theorem statusKept_reject (c : RejectCode) (s : State) : StatusKept [3, 4, 5] s (s.reject c) := by
  intro i hi
  have hne : ¬ 5 = i.val := by rintro h; simp [← h] at hi
  rw [State.reject_status, getLsbD_setBit, if_neg fun h => hne h.1]

theorem sessionUndisturbed_reject (c : RejectCode) (s : State) : SessionUndisturbed s (s.reject c) := by
  constructor
  case busy => exact State.busy_reject c s
  case status => exact statusKept_reject c s
  all_goals rfl

theorem statusKept_writeStatus (v : BitVec 128) (s : State) : StatusKept [3, 4, 5] s (writeStatus v s) := by
  intro i hi
  simp only [List.mem_cons, List.not_mem_nil, or_false, not_or] at hi
  obtain ⟨h3, h4, h5⟩ := hi
  have hbit : (writeStatus v s).ctl.status.getLsbD i.val = _ := getLsbD_clearSticky s.ctl.status (v.setWidth 7) i
  rw [hbit, decide_eq_false h3, decide_eq_false h4, decide_eq_false h5]
  simp

theorem sessionUndisturbed_writeStatus (v : BitVec 128) (s : State) : SessionUndisturbed s (writeStatus v s) := by
  constructor
  case busy => exact busy_writeStatus v s
  case status => exact statusKept_writeStatus v s
  all_goals rfl

section
variable {s : State} (hb : s.busy = true)
include hb

theorem hostStep_cmd_busy (v : BitVec 128) : hostStep (.write 0x00#8 v) s = .next (s.reject .busy) :=
  if_pos hb

theorem hostStep_plain_busy {idx : BitVec 8} (hcmd : idx ≠ 0x00#8) (hstatus : idx ≠ 0x01#8) (v : BitVec 128) :
    hostStep (.write idx v) s = .next (s.reject .writeRefused) := by
  have hrefused : writePlain (hostRegAt idx) v s = s.reject .writeRefused := if_pos hb
  rw [hostWrite_plain hcmd hstatus, hrefused]

theorem hostStep_bufWrite_busy (b : BufName) (off : Nat) (v : Octet) :
    hostStep (.bufWrite b off v) s = .next (s.reject .writeRefused) :=
  congrArg Host.Outcome.next (hostBufWrite_refused (.inl hb) v)

/-- All that the host can do to a busy engine (R73): be answered, clear sticky flags, be refused. -/
theorem hostStep_busy_undisturbed (op : HostOp) : ∃ t, hostStep op s = .next t ∧ SessionUndisturbed s t := by
  cases op with
  | read idx => exact ⟨_, rfl, sessionUndisturbed_reply _ s⟩
  | bufRead b off => exact ⟨_, rfl, sessionUndisturbed_reply _ s⟩
  | bufWrite b off v => exact ⟨_, hostStep_bufWrite_busy hb b off v, sessionUndisturbed_reject _ s⟩
  | write idx v =>
    by_cases hcmd : idx = 0x00#8
    · exact ⟨_, hcmd ▸ hostStep_cmd_busy hb v, sessionUndisturbed_reject _ s⟩
    by_cases hstatus : idx = 0x01#8
    · subst hstatus
      exact ⟨writeStatus v s, rfl, sessionUndisturbed_writeStatus v s⟩
    · exact ⟨_, hostStep_plain_busy hb hcmd hstatus v, sessionUndisturbed_reject _ s⟩

end

/-- Settles O37: the frame is `hostStep_busy_undisturbed`, the three refusals are the lemmas it is built from. -/
theorem hostCannotDisturbSession : Obligations.HostCannotDisturbSession := by
  unfold Obligations.HostCannotDisturbSession
  intro s op hb
  obtain ⟨t, ht, hk⟩ := hostStep_busy_undisturbed hb op
  refine ⟨t, ht, hk.tsu, hk.rmu, hk.ses, hk.tx, hk.rx, hk.trx, hk.params, hk.calls, hk.sched, hk.free, hk.fsm, hk.ctrl, hk.err,
    hk.busy.trans hb, hk.status, ?_, ?_, ?_⟩
  · rintro v rfl
    exact onlyRejected_of_hostStep ht (hostStep_cmd_busy hb v)
  · rintro idx v rfl hcmd hstatus
    exact onlyRejected_of_hostStep ht (hostStep_plain_busy hb hcmd hstatus v)
  · rintro b off v rfl
    exact onlyRejected_of_hostStep ht (hostStep_bufWrite_busy hb b off v)

/-! ### The steps that run no command -/

theorem step_poll {s : State} {rest : List Event} {a : TrxAnswers} (hs : s.sched = .poll a :: rest) :
    step s = .next (engineStep a { s with sched := rest }) := by
  rw [step, hs]
  rfl

theorem step_unscheduled {s : State} (hs : s.sched = []) : step s = .next (idleStep s) := by
  rw [step, hs]

theorem engineStep_not_busy {s : State} (hb : s.busy = false) (a : TrxAnswers) : engineStep a s = s := by
  simp [engineStep, hb]

theorem idleStep_not_busy {s : State} (hb : s.busy = false) : idleStep s = s := by
  simp [idleStep, hb]

theorem idleStep_busy {s : State} (hb : s.busy = true) :
    idleStep s = engineStep (Config.answers s.free) { s with free := s.free + 1 } :=
  if_pos hb

/-- Settles O6: a scheduled poll is `step_poll`; with nothing scheduled the step is `idleStep`, whose two cases are by
`STATUS.BUSY`. -/
theorem stepTakesNextEvent : Obligations.StepTakesNextEvent := by
  unfold Obligations.StepTakesNextEvent
  refine ⟨fun s rest a hs => step_poll hs, fun s a hb => engineStep_not_busy hb a, fun s hs hb => ?_,
    fun s hs hb => ⟨Config.answers s.free, ?_⟩⟩
  · rw [step_unscheduled hs, idleStep_not_busy hb]
  · rw [step_unscheduled hs, idleStep_busy hb]

end Sys2Proof.Machine
end

section
/-! The statements of the family `30_encoding.md`: the decoder and the encoder undo each other (O2, O3, O1), and the five
tests of the write to `CMD` in their order (O4). What `decode` answers is said once per outcome, in the words of R94's mask
and match columns. -/

namespace Sys2Proof.Machine

/-! ### Decoding an encoded word -/

/-- Settles O2: one lemma of `EncodeRoundTrip` per command. -/
theorem decodeEncode : Obligations.DecodeEncode := by
  unfold Obligations.DecodeEncode
  intro i hwf
  cases i with
  | tsFromraw rd => exact Laws.EncodeRoundTrip.tsFromraw rd hwf
  | tsToraw ra => exact Laws.EncodeRoundTrip.tsToraw ra hwf
  | tsAdd rd ra rb => exact Laws.EncodeRoundTrip.tsAdd rd ra rb hwf
  | tsSub rd ra rb => exact Laws.EncodeRoundTrip.tsSub rd ra rb hwf
  | tsMuls rd ra => exact Laws.EncodeRoundTrip.tsMuls rd ra hwf
  | tsDivs rd ra => exact Laws.EncodeRoundTrip.tsDivs rd ra hwf
  | tsMult rd ra rb => exact Laws.EncodeRoundTrip.tsMult rd ra rb hwf
  | tsDivt rd ra rb => exact Laws.EncodeRoundTrip.tsDivt rd ra rb hwf
  | tsWrap rd ra => exact Laws.EncodeRoundTrip.tsWrap rd ra hwf
  | tsValid ra => exact Laws.EncodeRoundTrip.tsValid ra hwf
  | tsTous ra => exact Laws.EncodeRoundTrip.tsTous ra hwf
  | tsTom ra => exact Laws.EncodeRoundTrip.tsTom ra hwf
  | rngCompute => exact Laws.EncodeRoundTrip.rngCompute hwf
  | rngCorrect => exact Laws.EncodeRoundTrip.rngCorrect hwf
  | fcEnc k => exact Laws.EncodeRoundTrip.fcEnc k hwf
  | fcDec k => exact Laws.EncodeRoundTrip.fcDec k hwf
  | sesTag => exact Laws.EncodeRoundTrip.sesTag hwf
  | sesAnchor => exact Laws.EncodeRoundTrip.sesAnchor hwf
  | sesAdmit => exact Laws.EncodeRoundTrip.sesAdmit hwf
  | sesClear => exact Laws.EncodeRoundTrip.sesClear hwf

/-! ### What the decoder answers -/

/-- A word in a legal form has its opcode's row in R94 and no must-be-zero bit set. -/
theorem legalForm_iff (w : CmdWord) :
    legalForm w = true ↔ ∃ f mk, opcodeRow (opField w) = some (f, mk) ∧ w &&& f.mustBeZero = 0#32 := by
  rw [legalForm_eq]
  cases opcodeRow (opField w) with
  | none => simp
  | some row => simp [Prod.ext_iff]

/-- The kind test of the decoder is R95's test 4 of the word. -/
theorem row_wf {w : CmdWord} {f : Format} {mk : Reg → Reg → Reg → Instr} (hrow : opcodeRow (opField w) = some (f, mk)) :
    (mk (rdField w) (raField w) (rbField w)).wf = !badKindWord w := by
  rw [badKindWord_eq, opcodeRow_wf hrow]

theorem decode_illegalOpcode {w : CmdWord} (h : knownOpcode w = false) : decode w = .error .illegalOpcode := by
  rw [knownOpcode_eq, Option.isSome_eq_false_iff, Option.isNone_iff_eq_none] at h
  rw [decode, h]

theorem decode_reservedBits {w : CmdWord} (hknown : knownOpcode w = true) (hlegal : legalForm w = false) :
    decode w = .error .reservedBits := by
  rw [knownOpcode_eq, Option.isSome_iff_exists] at hknown
  obtain ⟨⟨f, mk⟩, hrow⟩ := hknown
  have hz : w &&& f.mustBeZero ≠ 0#32 := fun hz =>
    Bool.false_ne_true (hlegal.symm.trans ((legalForm_iff w).2 ⟨f, mk, hrow, hz⟩))
  simp only [decode, hrow, if_pos hz]

theorem decode_badKind {w : CmdWord} (hlegal : legalForm w = true) (hkind : badKindWord w = true) :
    decode w = .error .badKind := by
  obtain ⟨f, mk, hrow, hz⟩ := (legalForm_iff w).1 hlegal
  simp [decode, hrow, hz, row_wf hrow, hkind]

/-- The words that decode, and to what: those in a legal form with a legal kind, to their row's command. -/
theorem decode_eq_ok_iff {w : CmdWord} {i : Instr} :
    decode w = .ok i ↔ ∃ f mk, opcodeRow (opField w) = some (f, mk) ∧ w &&& f.mustBeZero = 0#32 ∧
      badKindWord w = false ∧ mk (rdField w) (raField w) (rbField w) = i := by
  constructor
  · intro h
    unfold decode at h
    split at h
    · cases h
    · rename_i f mk hrow
      rw [row_wf hrow] at h
      split_ifs at h with hz hkind
      exact ⟨f, mk, hrow, not_not.1 hz, by simpa using hkind, Except.ok.inj h⟩
  · rintro ⟨f, mk, hrow, hz, hkind, rfl⟩
    simp [decode, hrow, hz, row_wf hrow, hkind]

/-- Settles O3: the decoded command is its row's command of the word's fields (`decode_eq_ok_iff`), whose word is that word
(`opcodeRow_cases`). -/
theorem encodeDecode : Obligations.EncodeDecode := by
  unfold Obligations.EncodeDecode
  intro w i h
  obtain ⟨f, mk, hrow, hz, hkind, rfl⟩ := decode_eq_ok_iff.1 h
  exact ⟨opcodeRow_cases hrow w rfl hz, by rw [row_wf hrow, hkind]; rfl⟩

/-! ### The acceptance test -/

/-- The three session-start commands carry no frame kind. -/
theorem badKindWord_of_startWord {w : CmdWord} (h : startWord w = true) : badKindWord w = false := by
  rw [startWord_eq] at h
  simp only [Bool.or_eq_true, beq_iff_eq] at h
  rw [badKindWord_eq]
  obtain (h | h) | h := h <;> rw [h] <;> rfl

theorem decode_startWord {w : CmdWord} (hlegal : legalForm w = true) (hstart : startWord w = true) :
    ∃ i, decode w = .ok i ∧ (i = .sesTag ∨ i = .sesAnchor ∨ i = .sesAdmit) := by
  obtain ⟨f, mk, hrow, hz⟩ := (legalForm_iff w).1 hlegal
  exact ⟨_, decode_eq_ok_iff.2 ⟨f, mk, hrow, hz, badKindWord_of_startWord hstart, rfl⟩,
    opcodeRow_start hrow (startWord_eq w ▸ hstart) _ _ _⟩

/-- Test 5 of R95: a session starts from `Idle` only. -/
theorem exec_start_badState {s : State} {i : Instr} (hi : i = .sesTag ∨ i = .sesAnchor ∨ i = .sesAdmit)
    (hb : s.busy = false) (hf : s.ctl.fsm ≠ .idle) : exec i s = .next (s.reject .badState) := by
  obtain rfl | rfl | rfl := hi
  · exact startSession_badState hb hf startTag
  · exact startSession_badState hb hf startAnchor
  · exact startSession_badState hb hf startAdmit

theorem submit_of_decode_error {s : State} {w : CmdWord} {e : DecodeError} (hb : s.busy = false)
    (h : decode w = .error e) : submit w s = .next (s.reject (rejectCodeOf e)) := by
  simp [submit, hb, h]

/-- Settles O4: tests 2 to 4 are the decoder's three errors, test 5 is the session start's own; a word that passes test 4 is
the word of the command it decodes to (`encodeDecode`). -/
theorem commandAcceptance : Obligations.CommandAcceptance := by
  unfold Obligations.CommandAcceptance
  intro s w
  rw [hostStep_cmd]
  have rejected {c : RejectCode} (h : submit w s = .next (s.reject c)) :
      ∃ t, submit w s = .next t ∧ OnlyRejected c s t := ⟨_, h, onlyRejected_reject c s⟩
  refine ⟨fun hb => rejected (if_pos hb),
    fun hb hop => rejected (submit_of_decode_error hb (decode_illegalOpcode hop)),
    fun hb hop hlegal => rejected (submit_of_decode_error hb (decode_reservedBits hop hlegal)),
    fun hb hlegal hkind => rejected (submit_of_decode_error hb (decode_badKind hlegal hkind)),
    fun hb hlegal hstart hf => ?_, fun _ hlegal hkind _ => ?_⟩
  · obtain ⟨i, hi, hsession⟩ := decode_startWord hlegal hstart
    exact rejected ((submit_of_decode hi s).trans (exec_start_badState hsession hb hf))
  · obtain ⟨f, mk, hrow, hz⟩ := (legalForm_iff w).1 hlegal
    have hi : decode w = .ok _ := decode_eq_ok_iff.2 ⟨f, mk, hrow, hz, hkind, rfl⟩
    obtain ⟨hencode, hwf⟩ := encodeDecode w _ hi
    exact ⟨_, hwf, hencode, submit_of_decode hi s⟩

/-! ### Sample words -/

theorem decode_of_encode_eq {w : CmdWord} {i : Instr} (h : encode i = w) (hwf : i.wf = true) : decode w = .ok i :=
  h ▸ decodeEncode i hwf

/-- Settles O1: the ten words are the encoder's words of their commands; the four bad words each fail the test of R95 that
names their rejection. -/
theorem decodeSampleWords : Obligations.DecodeSampleWords := by
  unfold Obligations.DecodeSampleWords
  refine ⟨decode_of_encode_eq ?_ ?_, decode_of_encode_eq ?_ ?_, decode_of_encode_eq ?_ ?_, decode_of_encode_eq ?_ ?_,
    decode_of_encode_eq ?_ ?_, decode_of_encode_eq ?_ ?_, decode_of_encode_eq ?_ ?_, decode_of_encode_eq ?_ ?_,
    decode_of_encode_eq ?_ ?_, decode_of_encode_eq ?_ ?_, decode_illegalOpcode ?_, decode_illegalOpcode ?_,
    decode_reservedBits ?_ ?_, decode_badKind ?_ ?_⟩
  all_goals decide

end Sys2Proof.Machine
end

section
/-! The statements of the family `40_timestamp_unit.md`: the twelve `TS.*` commands (O8 to O15), R121's last sentence (O16)
and the laws of `wrap` (O17), and that every step answers a next state (O7). A command with a destination is one `writeT`, a
conversion one `writeConv`; what each of the two does is said once, and a command's statement is that at its exact result. -/

namespace Sys2Proof.Machine

/-! ### Every step answers -/

theorem submit_next (w : CmdWord) (s : State) : ∃ t, submit w s = .next t := by
  unfold submit
  split
  · exact ⟨_, rfl⟩
  · split
    · exact ⟨_, rfl⟩
    · exact exec_next _ s

theorem hostStep_next (op : HostOp) (s : State) : ∃ t, hostStep op s = .next t := by
  cases op with
  | read idx => exact ⟨_, rfl⟩
  | bufRead b off => exact ⟨_, rfl⟩
  | bufWrite b off v => exact ⟨_, rfl⟩
  | write idx v =>
    simp only [hostStep, hostWrite]
    split
    · exact submit_next _ s
    · exact ⟨_, rfl⟩
    · exact ⟨_, rfl⟩

theorem eventStep_next (e : Event) (s : State) : ∃ t, eventStep e s = .next t := by
  cases e with
  | host op => exact hostStep_next op s
  | poll a => exact ⟨_, rfl⟩
  | reset => exact ⟨_, rfl⟩

/-- Settles O7: the one event that runs a command ends in `exec`, which always answers (`exec_next`). -/
theorem stepAlwaysAnswers : Obligations.StepAlwaysAnswers := by
  unfold Obligations.StepAlwaysAnswers
  intro s
  unfold step
  split
  · exact ⟨_, rfl⟩
  · exact eventStep_next _ _

/-! ### The command words -/

/-- A word written out by its fields decodes to the command that is encoded with those fields. -/
theorem decode_wordOf {op : Nat} {rd ra rb : Reg} {i : Instr} (h : encode i = packWord (BitVec.ofNat 8 op) rd ra rb)
    (hwf : i.wf = true) : decode (wordOf op rd.val ra.val rb.val) = .ok i := by
  rw [wordOf_eq_packWord]
  exact decode_of_encode_eq h hwf

/-! ### `STATUS` bits -/

theorem StatusKept.setStatusBit {l : List Nat} {s t : State} (h : StatusKept l s t) (n : Nat) (b : Bool) :
    StatusKept (n :: l) s (t.setStatusBit n b) := by
  intro i hi
  obtain ⟨hn, hl⟩ := not_or.1 (List.mem_cons.not.1 hi)
  rw [State.setStatusBit_status, getLsbD_setBit, if_neg fun h => hn h.1.symm]
  exact h i hl

theorem statusKept_refl (s : State) : StatusKept [] s s := fun _ _ => rfl

theorem tsValid_setTsValid (b : Bool) (s : State) : (s.setTsValid b).tsValid = b := by simp [State.tsValid]

theorem rawInvalid_setRawInvalid (b : Bool) (s : State) : (s.setRawInvalid b).rawInvalid = b := by simp [State.rawInvalid]

theorem tsDivz_raiseTsDivz (s : State) : s.raiseTsDivz.tsDivz = true := by simp [State.tsDivz]

/-! ### A write of a timestamp -/

/-- All that `writeT` does (R121): the value, its frame, and the one sticky flag. -/
theorem writeT_effect (rd : Reg) (r : Int) (s : State) :
    WritesTimestamp rd r s (writeT rd r s) ∧ StatusKept [3] s (writeT rd r s) ∧
      (writeT rd r s).tsOvf = (s.tsOvf || outOfRange r) :=
  ⟨writeT_writes rd r s, statusKept_writeT rd r s, tsOvf_writeT rd r s⟩

section
variable {r : Int} (hfits : fitsTs r = true) (rd : Reg) (s : State)
include hfits

theorem readT_writeT_of_fits : readT rd (writeT rd r s) = r := by
  rw [readT_writeT_same, sat_of_fits hfits]

theorem status_writeT_of_fits : (writeT rd r s).ctl.status = s.ctl.status := by
  rw [status_writeT, if_pos hfits]

theorem statusKept_writeT_of_fits : StatusKept [] s (writeT rd r s) := fun _ _ => by
  rw [status_writeT_of_fits hfits]

end

/-- `WritesTimestamp` leaves `STATUS` open, so a flag may be raised after the write. -/
theorem WritesTimestamp.raiseTsDivz {rd : Reg} {r : Int} {s t : State} (h : WritesTimestamp rd r s t) :
    WritesTimestamp rd r s t.raiseTsDivz :=
  { h with
    control := ⟨h.control.fsm, h.control.ctrl, h.control.err, h.control.cmdErrCode⟩
    units := ⟨h.units.rmu, h.units.ses, h.units.tx, h.units.rx, h.units.octets, h.units.free⟩
    surroundings := ⟨h.surroundings.params, h.surroundings.trx, h.surroundings.sched, h.surroundings.calls,
      h.surroundings.replies⟩ }

/-- All that a division does (R115, R117): the zero divisor writes `MIN_TS`, which fits and so raises `TS_DIVZ` only. -/
theorem writeQuotient_effect (rd : Reg) (a d : Int) (s : State) :
    (d = 0 → WritesTimestamp rd (-2 ^ 127) s (writeQuotient rd a d s) ∧ StatusKept [4] s (writeQuotient rd a d s) ∧
      (writeQuotient rd a d s).tsDivz = true) ∧
    (d ≠ 0 → WritesTimestamp rd (Int.fdiv a d) s (writeQuotient rd a d s) ∧
      StatusKept [3] s (writeQuotient rd a d s) ∧
      (writeQuotient rd a d s).tsOvf = (s.tsOvf || outOfRange (Int.fdiv a d))) := by
  constructor
  · intro hd
    rw [writeQuotient, if_pos hd, ← minTs_eq]
    exact ⟨(writeT_writes rd minTs s).raiseTsDivz, (statusKept_writeT_of_fits (by decide) rd s).setStatusBit 4 true,
      tsDivz_raiseTsDivz _⟩
  · intro hd
    rw [writeQuotient, if_neg hd]
    exact writeT_effect rd (floorDiv a d) s

/-! ### Values of valid timestamps -/

theorem validTs_raw (v : Raw40) : ValidTs v.toNat := by
  have := v.isLt
  exact ⟨by omega, by omega⟩

section
variable {a b : Int} (ha : ValidTs a) (hb : ValidTs b)
include ha hb

theorem ValidTs.fitsTs_add : fitsTs (a + b) = true := by
  obtain ⟨ha0, ha1⟩ := ha
  obtain ⟨hb0, hb1⟩ := hb
  rw [fitsTs_iff]
  omega

theorem ValidTs.fitsTs_sub : fitsTs (a - b) = true := by
  obtain ⟨ha0, ha1⟩ := ha
  obtain ⟨hb0, hb1⟩ := hb
  rw [fitsTs_iff]
  omega

/-- "the product of two valid timestamps is below 2^80 and always fits" (R116). -/
theorem ValidTs.fitsTs_mul : fitsTs (a * b) = true := by
  obtain ⟨ha0, ha1⟩ := ha
  obtain ⟨hb0, hb1⟩ := hb
  have hnonneg : 0 ≤ a * b := Int.mul_nonneg ha0 hb0
  have hbound : a * b ≤ 2 ^ 40 * 2 ^ 40 := Int.mul_le_mul ha1.le hb1.le hb0 (by norm_num)
  rw [fitsTs_iff]
  omega

end

/-! ### `wrap` -/

theorem wrap_of_neg {v : Int} (h : v < 0) : wrap v = v + 2 ^ 40 := by
  rw [wrap, if_pos h]; rfl

theorem wrap_of_nonneg {v : Int} (h : 0 ≤ v) : wrap v = v := by
  rw [wrap, if_neg (by omega)]

/-- The modulus is added at most once, so only `[-2^40, 2^40)` is brought into range (R118). -/
theorem validTs_wrap_iff (v : Int) : ValidTs (wrap v) ↔ -2 ^ 40 ≤ v ∧ v < 2 ^ 40 := by
  unfold ValidTs
  obtain h | h := lt_or_ge v 0
  · rw [wrap_of_neg h]; omega
  · rw [wrap_of_nonneg h]; omega

theorem wrap_eq_emod {v : Int} (hlow : -2 ^ 40 ≤ v) (hhigh : v < 2 ^ 40) : wrap v = v % 2 ^ 40 := by
  obtain h | h := lt_or_ge v 0
  · rw [wrap_of_neg h]; omega
  · rw [wrap_of_nonneg h]; omega

theorem fitsTs_wrap_readT (ra : Reg) (s : State) : fitsTs (wrap (readT ra s)) = true := by
  obtain ⟨hlow, hhigh⟩ := readT_bounds ra s
  rw [fitsTs_iff]
  obtain h | h := lt_or_ge (readT ra s) 0
  · rw [wrap_of_neg h]; omega
  · rw [wrap_of_nonneg h]; omega

theorem readT_writeT_wrap (rd ra : Reg) (s : State) :
    readT rd (writeT rd (wrap (readT ra s)) s) = wrap (readT ra s) :=
  readT_writeT_of_fits (fitsTs_wrap_readT ra s) rd s

/-- `TS.SUB` then `TS.WRAP` of the result, the pseudo-instruction of a difference (R98), on valid timestamps. -/
theorem exec_sub_wrap {s : State} (hb : s.busy = false) (rd : Reg) {ra rb : Reg} (ha : ValidTs (readT ra s))
    (hrb : ValidTs (readT rb s)) :
    ∃ t u, exec (.tsSub rd ra rb) s = .next t ∧ exec (.tsWrap rd rd) t = .next u ∧
      readT rd u = (readT ra s - readT rb s) % 2 ^ 40 := by
  refine ⟨_, _, exec_tsSub hb rd ra rb, exec_tsWrap ((busy_writeT ..).trans hb) rd rd, ?_⟩
  rw [readT_writeT_wrap, readT_writeT_of_fits (ha.fitsTs_sub hrb)]
  obtain ⟨ha0, ha1⟩ := ha
  obtain ⟨hb0, hb1⟩ := hrb
  exact wrap_eq_emod (by omega) (by omega)

/-! ### The commands -/

/-- Settles O8: a 40-bit value always fits, so the write is exact and sets no flag. -/
theorem tsFromrawLoads : Obligations.TsFromrawLoads := by
  unfold Obligations.TsFromrawLoads
  refine fun rd s => ⟨decode_wordOf (ra := 0) (rb := 0) rfl rfl, fun hb => ⟨_, exec_tsFromraw hb rd, ?_⟩⟩
  have hfits : fitsTs (rawinValue s) = true := fits_raw s.tsu.rawin
  have hvalue : readT rd (writeT rd (rawinValue s) s) = s.tsu.rawin.toNat := readT_writeT_of_fits hfits rd s
  exact ⟨hvalue, hvalue ▸ validTs_raw s.tsu.rawin, writeT_writes rd _ s, statusKept_writeT_of_fits hfits rd s⟩

/-- The low bits of a two's complement pattern are its signed value modulo their weight. -/
theorem toNat_setWidth_eq_toInt_emod {w n : Nat} (h : n ≤ w) (x : BitVec w) :
    ((x.setWidth n).toNat : Int) = x.toInt % 2 ^ n := by
  have hdvd : (2 ^ n : Int) ∣ ((2 ^ w : Nat) : Int) := by exact_mod_cast Nat.pow_dvd_pow 2 h
  have hmod : x.toInt % ((2 ^ w : Nat) : Int) = x.toNat % ((2 ^ w : Nat) : Int) := by
    rw [BitVec.toInt_eq_toNat_bmod, Int.bmod_emod]
  rw [BitVec.toNat_setWidth, ← Int.emod_emod_of_dvd x.toInt hdvd, hmod, Int.emod_emod_of_dvd _ hdvd]
  push_cast
  rfl

/-- Settles O9: the low 40 bits are the value modulo 2^40; `RAW_INVALID` is the negated validity test. -/
theorem tsTorawStores : Obligations.TsTorawStores := by
  unfold Obligations.TsTorawStores
  refine fun ra s => ⟨decode_wordOf (rd := 0) (rb := 0) rfl rfl, fun hb => ⟨_, exec_tsToraw hb ra,
    toNat_setWidth_eq_toInt_emod (by decide) _, ?_, (statusKept_refl s).setStatusBit 2 _, ⟨rfl, rfl, rfl, rfl⟩,
    ⟨fun _ _ => rfl, rfl⟩, rfl, rfl, rfl, ⟨rfl, rfl, rfl, rfl, fun _ _ => rfl, rfl⟩, ⟨rfl, rfl, rfl, rfl, rfl⟩⟩⟩
  show (s.setRawInvalid (!isValid (readT ra s))).rawInvalid = true ↔ _
  rw [rawInvalid_setRawInvalid, ← isValid_iff, Bool.not_eq_true', Bool.not_eq_true]

/-- Settles O10: `writeT_effect` at the three exact results. -/
theorem tsAddSubMult : Obligations.TsAddSubMult := by
  unfold Obligations.TsAddSubMult
  exact fun rd ra rb s => ⟨⟨decode_wordOf rfl rfl, decode_wordOf rfl rfl, decode_wordOf rfl rfl⟩, fun hb =>
    ⟨⟨_, exec_tsAdd hb rd ra rb, writeT_effect ..⟩, ⟨_, exec_tsSub hb rd ra rb, writeT_effect ..⟩,
      ⟨_, exec_tsMult hb rd ra rb, writeT_effect ..⟩⟩⟩

/-- Settles O11: `writeT_effect` at the product with the signed scalar. -/
theorem tsMulsScales : Obligations.TsMulsScales := by
  unfold Obligations.TsMulsScales
  exact fun rd ra s => ⟨decode_wordOf (rb := 0) rfl rfl, fun hb => ⟨_, exec_tsMuls hb rd ra, writeT_effect ..⟩⟩

/-- Settles O12: `writeQuotient_effect` at the two divisors. -/
theorem tsDivides : Obligations.TsDivides := by
  unfold Obligations.TsDivides
  exact fun rd ra rb s => ⟨⟨decode_wordOf (rb := 0) rfl rfl, decode_wordOf rfl rfl⟩, fun hb =>
    ⟨⟨_, exec_tsDivs hb rd ra, writeQuotient_effect ..⟩, ⟨_, exec_tsDivt hb rd ra rb, writeQuotient_effect ..⟩⟩⟩

/-- Settles O13: a wrapped register value fits, so the write is exact (`readT_writeT_wrap`) and sets no flag. -/
theorem tsWrapNormalizes : Obligations.TsWrapNormalizes := by
  unfold Obligations.TsWrapNormalizes
  refine fun rd ra s => ⟨decode_wordOf (rb := 0) rfl rfl, fun hb => ⟨_, exec_tsWrap hb rd ra, ?_⟩⟩
  rw [readT_writeT_wrap]
  exact ⟨wrap_of_neg, wrap_of_nonneg, validTs_wrap_iff _, writeT_writes rd _ s,
    statusKept_writeT_of_fits (fitsTs_wrap_readT ra s) rd s⟩

/-- Settles O14: one bit of `STATUS` is set to the validity test. -/
theorem tsValidTests : Obligations.TsValidTests := by
  unfold Obligations.TsValidTests
  refine fun ra s => ⟨decode_wordOf (rd := 0) (rb := 0) rfl rfl, fun hb => ⟨_, exec_tsValid hb ra, ?_,
    (statusKept_refl s).setStatusBit 1 _, ⟨rfl, rfl, rfl, rfl⟩, rfl, ⟨rfl, rfl, rfl, rfl, fun _ _ => rfl, rfl⟩,
    ⟨rfl, rfl, rfl, rfl, rfl⟩⟩⟩
  rw [tsValid_setTsValid]
  exact isValid_iff _

/-- Settles O15: both conversions are one `writeConv`, of the product with the command's constant. -/
theorem tsConverts : Obligations.TsConverts := by
  unfold Obligations.TsConverts
  refine fun ra s => ⟨⟨decode_wordOf (rd := 0) (rb := 0) rfl rfl, decode_wordOf (rd := 0) (rb := 0) rfl rfl⟩,
    fun hb i k hi => ?_⟩
  have hexec : exec i s = .next (writeConv (readT ra s * k) s) := by
    obtain ⟨rfl, rfl⟩ | ⟨rfl, rfl⟩ := hi
    · exact exec_tsTous hb ra
    · exact exec_tsTom hb ra
  have hvalue : SaturatesTo (readT ra s * k) (writeConv (readT ra s * k) s).tsu.conv.toInt := by
    rw [writeConv_conv, toInt_toTs_sat]
    exact saturatesTo_sat _
  exact ⟨_, hexec, hvalue, tsOvf_writeConv _ s, statusKept_writeConv _ s,
    ⟨noteOverflow_fsm _ s, noteOverflow_ctrl _ s, noteOverflow_err _ s, noteOverflow_cmdErrCode _ s⟩,
    ⟨fun _ _ => rfl, rfl⟩, rfl, rfl, rfl, ⟨rfl, rfl, rfl, rfl, fun _ _ => rfl, rfl⟩, ⟨rfl, rfl, rfl, rfl, rfl⟩⟩

/-- Settles O16: each of the three exact results fits, by the bounds of valid timestamps. -/
theorem validOperandsNeverOverflow : Obligations.ValidOperandsNeverOverflow := by
  unfold Obligations.ValidOperandsNeverOverflow
  intro rd ra rb s hb ha hrb i r hi
  obtain ⟨hexec, hfits⟩ : exec i s = .next (writeT rd r s) ∧ fitsTs r = true := by
    obtain ⟨rfl, rfl⟩ | ⟨rfl, rfl⟩ | ⟨rfl, rfl⟩ := hi
    · exact ⟨exec_tsAdd hb rd ra rb, ha.fitsTs_add hrb⟩
    · exact ⟨exec_tsSub hb rd ra rb, ha.fitsTs_sub hrb⟩
    · exact ⟨exec_tsMult hb rd ra rb, ha.fitsTs_mul hrb⟩
  exact ⟨_, hexec, readT_writeT_of_fits hfits rd s, status_writeT_of_fits hfits rd s⟩

/-! ### The laws of `wrap` -/

/-- Settles O17: (a) a wrapped value is valid and so is left alone by `wrap`; (b) is `exec_sub_wrap`; (c) is (b) in both
states, the offset cancelling modulo 2^40. -/
theorem wrapLaws : Obligations.WrapLaws := by
  unfold Obligations.WrapLaws
  refine ⟨fun rd ra s hb hlow hhigh => ?_, fun rd ra rb s hb ha hrb => exec_sub_wrap hb rd ha hrb,
    fun rd ra rb s s' c hb hb' ha hrb hca hcb => ?_⟩
  · have hvalid : ValidTs (wrap (readT ra s)) := (validTs_wrap_iff _).2 ⟨hlow, hhigh⟩
    refine ⟨_, _, exec_tsWrap hb rd ra, exec_tsWrap ((busy_writeT ..).trans hb) rd rd, ?_⟩
    rw [readT_writeT_wrap, readT_writeT_wrap]
    exact ⟨wrap_of_nonneg hvalid.1, hvalid⟩
  · have hvalid (v : Int) : ValidTs (v % 2 ^ 40) := ⟨Int.emod_nonneg v (by decide), Int.emod_lt_of_pos v (by decide)⟩
    obtain ⟨t, u, ht, hu, hdiff⟩ := exec_sub_wrap hb rd ha hrb
    obtain ⟨t', u', ht', hu', hdiff'⟩ :=
      exec_sub_wrap (ra := ra) (rb := rb) hb' rd (hca ▸ hvalid _) (hcb ▸ hvalid _)
    refine ⟨t, u, t', u', ht, hu, ht', hu', ?_⟩
    rw [hdiff', hdiff, hca, hcb, ← Int.sub_emod, add_sub_add_right_eq_sub]

end Sys2Proof.Machine
end

section
/-! The statements of the family `41_ranging_math.md` about the two commands: `RNG.COMPUTE` (O18 to O22) and the bias that
`RNG.CORRECT` leaves (O24). What the formula's registers hold for valid legs is said once (`Measured`); the anchor's session
step uses it too. -/

namespace Sys2Proof.Machine

/-! ### The registers of the formula -/

/-- The registers `r` hold the range of the valid legs `l` (R141): the legs and the formula, exact, and the two cases of the
denominator. -/
structure Measured (l : Legs) (r : Rmu) : Prop where
  round1 : r.round1.toInt = l.round1
  reply1 : r.reply1.toInt = l.reply1
  round2 : r.round2.toInt = l.round2
  reply2 : r.reply2.toInt = l.reply2
  tofNum : r.tofNum.toInt = tofNumerator l
  tofDen : r.tofDen.toInt = tofDenominator l
  divzero : tofDenominator l = 0 → r.distRaw.toInt = 0 ∧ r.rangeStatus = rsDivzero
  computed : tofDenominator l ≠ 0 →
    r.distRaw.toInt = Int.fdiv (tofNumerator l * kM) (tofDenominator l) ∧ r.rangeStatus = rsComputed

/-- `rangeRegisters` writes the legs, the formula, `DIST_RAW` and `RANGE_STATUS`, and leaves the rest (R141). -/
theorem rangeRegisters_eq (l : Legs) (r : Rmu) :
    rangeRegisters l r = { r with
      round1 := toTs (sat l.round1), reply1 := toTs (sat l.reply1)
      round2 := toTs (sat l.round2), reply2 := toTs (sat l.reply2)
      tofNum := if legsValid l then toTs (tofNumerator l) else 0
      tofDen := if legsValid l then toTs (tofDenominator l) else 0
      distRaw :=
        if legsValid l then
          if tofDenominator l = 0 then 0 else toTs (floorDiv (tofNumerator l * kM) (tofDenominator l))
        else 0
      rangeStatus :=
        if legsValid l then if tofDenominator l = 0 then rsDivzero else rsComputed else rsInvalid } := by
  unfold rangeRegisters
  split
  · split <;> rfl
  · rfl

/-- The scaled numerator of valid legs (R145). -/
theorem scaledNumerator_bounds {l : Legs} (h : legsValid l = true) :
    -2 ^ 126 < tofNumerator l * kM ∧ tofNumerator l * kM < 2 ^ 126 := by
  obtain ⟨hlow, hhigh⟩ := tofNumerator_bounds h
  rw [kM_eq]
  omega

/-- The uncorrected distance of valid legs fits its register with room for any bias. -/
theorem distance_bounds {l : Legs} (h : legsValid l = true) (hd : tofDenominator l ≠ 0) :
    -2 ^ 126 ≤ floorDiv (tofNumerator l * kM) (tofDenominator l) ∧
      floorDiv (tofNumerator l * kM) (tofDenominator l) < 2 ^ 126 := by
  obtain ⟨hlow, hhigh⟩ := scaledNumerator_bounds h
  obtain ⟨hnonneg, -⟩ := tofDenominator_bounds h
  exact fdiv_bounds (2 ^ 126) (by omega) hlow.le hhigh (by norm_num)

theorem toInt_toTs_of_valid {v : Int} (h : ValidTs v) : (toTs (sat v)).toInt = v := by
  obtain ⟨h0, h1⟩ := h
  rw [toInt_toTs_sat, sat_of_fits ((fitsTs_iff v).2 ⟨by omega, by omega⟩)]

theorem measured_rangeRegisters {l : Legs} (h : legsValid l = true) (r : Rmu) : Measured l (rangeRegisters l r) := by
  obtain ⟨hround1, hreply1, hround2, hreply2⟩ := (legsValid_iff l).1 h
  obtain ⟨hn0, hn1⟩ := tofNumerator_bounds h
  obtain ⟨hd0, hd1⟩ := tofDenominator_bounds h
  rw [rangeRegisters_eq]
  simp only [h, if_true]
  constructor
  case round1 => exact toInt_toTs_of_valid hround1
  case reply1 => exact toInt_toTs_of_valid hreply1
  case round2 => exact toInt_toTs_of_valid hround2
  case reply2 => exact toInt_toTs_of_valid hreply2
  case tofNum => exact toInt_toTs (by omega) (by omega)
  case tofDen => exact toInt_toTs (by omega) (by omega)
  case divzero =>
    intro hd
    simp [hd]
  case computed =>
    intro hd
    obtain ⟨hlow, hhigh⟩ := distance_bounds h hd
    simp only [hd, if_false, and_true]
    exact toInt_toTs (by omega) (by omega)

/-- The results of the formula depend on the legs alone, not on what the registers held. -/
theorem rangeRegisters_results (l : Legs) (r r' : Rmu) :
    (rangeRegisters l r').round1 = (rangeRegisters l r).round1 ∧
      (rangeRegisters l r').reply1 = (rangeRegisters l r).reply1 ∧
      (rangeRegisters l r').round2 = (rangeRegisters l r).round2 ∧
      (rangeRegisters l r').reply2 = (rangeRegisters l r).reply2 ∧
      (rangeRegisters l r').tofNum = (rangeRegisters l r).tofNum ∧
      (rangeRegisters l r').tofDen = (rangeRegisters l r).tofDen ∧
      (rangeRegisters l r').distRaw = (rangeRegisters l r).distRaw ∧
      (rangeRegisters l r').rangeStatus = (rangeRegisters l r).rangeStatus := by
  simp only [rangeRegisters_eq, and_self]

/-! ### A complete exchange -/

section
variable {s : State} (hmask : s.tsu.exchMask = 0b111111#6)
include hmask

theorem rmu_computeRange : (computeRange s).rmu = rangeRegisters (exchangeLegs s) s.rmu := by
  rw [computeRange_complete hmask]

theorem tsu_computeRange : (computeRange s).tsu = (clearExchange s).tsu := by
  rw [computeRange_complete hmask]

theorem measured_computeRange (hlegs : legsValid (exchangeLegs s) = true) :
    Measured (exchangeLegs s) (computeRange s).rmu := by
  rw [rmu_computeRange hmask]
  exact measured_rangeRegisters hlegs s.rmu

theorem exchangeCleared_computeRange : ExchangeCleared (computeRange s) :=
  exchangeCleared_of_tsu (tsu_computeRange hmask)

theorem computeKept_computeRange : ComputeKept s (computeRange s) := by
  rw [computeRange_complete hmask, rangeRegisters_eq]
  constructor
  case timestamps => exact timestampsKept_of_tsu rfl
  case operands => exact ⟨rfl, rfl, rfl, rfl⟩
  case octets => exact octetsKept_of_bufs rfl rfl
  case surroundings => exact ⟨rfl, rfl, rfl, rfl, rfl⟩
  all_goals rfl

end

/-- Settles O18: the incomplete case is `computeRange_incomplete`, the invalid one is read off `rangeRegisters_eq`, the other
two are `Measured`. -/
theorem rngComputeMeasures : Obligations.RngComputeMeasures := by
  unfold Obligations.RngComputeMeasures
  refine ⟨decode_wordOf (rd := 0) (ra := 0) (rb := 0) rfl rfl,
    fun s hb => ⟨computeRange s, exec_rngCompute hb, computeRange_incomplete, fun hmask => ?_⟩⟩
  dsimp only
  rw [← round1_eq, ← reply1_eq, ← round2_eq, ← reply2_eq, ← legsValid_iff]
  have saturated (v : Int) : SaturatesTo v (toTs (sat v)).toInt := by
    rw [toInt_toTs_sat]; exact saturatesTo_sat v
  have hrmu := rmu_computeRange hmask
  refine ⟨computeKept_computeRange hmask, exchangeCleared_computeRange hmask, ?_, ?_, ?_, ?_, fun hinvalid => ?_,
    fun hvalid => ?_⟩
  iterate 4 · rw [hrmu, rangeRegisters_eq]; exact saturated _
  · rw [hrmu, rangeRegisters_eq]
    simp only [if_neg hinvalid]
    exact ⟨rfl, rfl, rfl, rfl⟩
  · have hm := measured_computeRange hmask hvalid
    exact ⟨hm.tofNum, hm.tofDen, hm.divzero, hm.computed⟩

/-- Settles O19: the first command clears `EXCH_MASK`, so the second one finds it incomplete. -/
theorem exchangeConsumedOnce : Obligations.ExchangeConsumedOnce := by
  unfold Obligations.ExchangeConsumedOnce
  intro s hb hmask
  have hcleared := exchangeCleared_computeRange hmask
  have hb' : (computeRange s).busy = false := (busy_congr (computeKept_computeRange hmask).ctl).trans hb
  have hempty : (computeRange s).tsu.exchMask ≠ 0b111111#6 := by rw [hcleared.mask]; decide
  exact ⟨_, exec_rngCompute hb, hcleared,
    (exec_rngCompute hb').trans (congrArg Host.Outcome.next (computeRange_incomplete hempty))⟩

/-! ### Valid timestamps -/

section
variable {a b : Int} (ha : ValidTs a) (hb : ValidTs b)
include ha hb

theorem wrappedDiff_eq_emod : wrappedDiff a b = (a - b) % 2 ^ 40 := by
  obtain ⟨ha0, ha1⟩ := ha
  obtain ⟨hb0, hb1⟩ := hb
  rw [← wrap_eq_wrappedDiff, wrap_eq_emod (by omega) (by omega)]

theorem validTs_wrappedDiff : ValidTs (wrappedDiff a b) := by
  rw [wrappedDiff_eq_emod ha hb]
  exact ⟨Int.emod_nonneg _ (by norm_num), Int.emod_lt_of_pos _ (by norm_num)⟩

end

/-- The six timestamps of the exchange are valid (R15). -/
def ExchangeValid (s : State) : Prop := ∀ r : Reg, 8 ≤ r.val → r.val ≤ 13 → ValidTs (readT r s)

/-- R144: six valid timestamps give four valid legs. -/
theorem ExchangeValid.legsValid {s : State} (h : ExchangeValid s) : legsValid (exchangeLegs s) = true := by
  have valid (i j : Reg) (hi : 8 ≤ i.val ∧ i.val ≤ 13) (hj : 8 ≤ j.val ∧ j.val ≤ 13) :
      ValidTs (wrappedDiff (readT i s) (readT j s)) := validTs_wrappedDiff (h i hi.1 hi.2) (h j hj.1 hj.2)
  rw [legsValid_iff, round1_eq, reply1_eq, round2_eq, reply2_eq]
  exact ⟨valid 11 8 (by decide) (by decide), valid 10 9 (by decide) (by decide), valid 13 10 (by decide) (by decide),
    valid 12 11 (by decide) (by decide)⟩

/-- `INVALID` is set by a leg that is not valid and by nothing else (R141). -/
theorem rangeInvalid_computeRange {s : State} (hmask : s.tsu.exchMask = 0b111111#6)
    (hlegs : legsValid (exchangeLegs s) = true) : (computeRange s).rangeInvalid = false := by
  rw [State.rangeInvalid, rangeStatus_computeRange, if_pos hmask, if_pos hlegs]
  split <;> decide

theorem rangeDivzero_computeRange {s : State} (hmask : s.tsu.exchMask = 0b111111#6)
    (hlegs : legsValid (exchangeLegs s) = true) :
    (computeRange s).rangeDivzero = decide (tofDenominator (exchangeLegs s) = 0) := by
  rw [State.rangeDivzero, rangeStatus_computeRange, if_pos hmask, if_pos hlegs]
  by_cases hd : tofDenominator (exchangeLegs s) = 0
  · simp [hd, rsDivzero]
  · simp [hd, rsComputed]

/-- Settles O20: the legs are valid by R144, so `Measured` gives the exact registers and R145 the bounds. -/
theorem validExchangeIsExact : Obligations.ValidExchangeIsExact := by
  unfold Obligations.ValidExchangeIsExact
  intro s hb hmask hvalid
  have hlegs : legsValid (exchangeLegs s) = true := ExchangeValid.legsValid hvalid
  obtain ⟨hround1, hreply1, hround2, hreply2⟩ := (legsValid_iff _).1 hlegs
  obtain ⟨hn0, hn1⟩ := tofNumerator_bounds hlegs
  obtain ⟨hd0, hd1⟩ := tofDenominator_bounds hlegs
  obtain ⟨hk0, hk1⟩ := scaledNumerator_bounds hlegs
  have hm := measured_computeRange hmask hlegs
  refine ⟨_, exec_rngCompute hb, rangeInvalid_computeRange hmask hlegs, ?_⟩
  simp only [List.forall_mem_cons, List.not_mem_nil, false_implies, implies_true, and_true,
    hm.round1, hm.reply1, hm.round2, hm.reply2, hm.tofNum, hm.tofDen]
  exact ⟨⟨hround1, hreply1, hround2, hreply2⟩, rfl, hn0, hn1, rfl, hd0, hd1, hk0, hk1⟩

/-! ### Offset invariance -/

/-- The timestamps `rs` of `s'` are those of `s` with `c` added modulo 2^40 (R147). -/
def OffsetBy (c : Int) (rs : List Reg) (s s' : State) : Prop := ∀ r ∈ rs, readT r s' = (readT r s + c) % 2 ^ 40

/-- A difference of two times of one clock does not see the clock's offset. -/
theorem OffsetBy.wrappedDiff {c : Int} {rs : List Reg} {s s' : State} (h : OffsetBy c rs s s') {i j : Reg} (hi : i ∈ rs)
    (hj : j ∈ rs) (hvi : ValidTs (readT i s)) (hvj : ValidTs (readT j s)) :
    wrappedDiff (readT i s') (readT j s') = wrappedDiff (readT i s) (readT j s) := by
  have valid (v : Int) : ValidTs (v % 2 ^ 40) := ⟨Int.emod_nonneg _ (by norm_num), Int.emod_lt_of_pos _ (by norm_num)⟩
  rw [h i hi, h j hj, wrappedDiff_eq_emod (valid _) (valid _), wrappedDiff_eq_emod hvi hvj, ← Int.sub_emod,
    add_sub_add_right_eq_sub]

/-- Valid timestamps that are unchanged are offset by 0. -/
theorem offsetBy_zero {rs : List Reg} {s s' : State} (h : ∀ r ∈ rs, readT r s' = readT r s)
    (hvalid : ∀ r ∈ rs, ValidTs (readT r s)) : OffsetBy 0 rs s s' := by
  intro r hr
  obtain ⟨h0, h1⟩ := hvalid r hr
  rw [h r hr, add_zero, Int.emod_eq_of_lt h0 h1]

/-- The legs in the words of the spec (R141). -/
theorem exchangeLegs_eq (s : State) : exchangeLegs s =
    ⟨wrappedDiff (readT 11 s) (readT 8 s), wrappedDiff (readT 10 s) (readT 9 s),
      wrappedDiff (readT 13 s) (readT 10 s), wrappedDiff (readT 12 s) (readT 11 s)⟩ := by
  rw [← round1_eq, ← reply1_eq, ← round2_eq, ← reply2_eq]

/-- Each leg is a difference of two times of one node, so the legs see neither node's offset. -/
theorem exchangeLegs_offset {s s' : State} {c d : Int} (hvalid : ExchangeValid s)
    (htag : OffsetBy c [8, 11, 12] s s') (hanchor : OffsetBy d [9, 10, 13] s s') : exchangeLegs s' = exchangeLegs s := by
  have v (r : Reg) (h : 8 ≤ r.val ∧ r.val ≤ 13) : ValidTs (readT r s) := hvalid r h.1 h.2
  rw [exchangeLegs_eq, exchangeLegs_eq,
    htag.wrappedDiff (i := 11) (j := 8) (by decide) (by decide) (v _ (by decide)) (v _ (by decide)),
    hanchor.wrappedDiff (i := 10) (j := 9) (by decide) (by decide) (v _ (by decide)) (v _ (by decide)),
    hanchor.wrappedDiff (i := 13) (j := 10) (by decide) (by decide) (v _ (by decide)) (v _ (by decide)),
    htag.wrappedDiff (i := 12) (j := 11) (by decide) (by decide) (v _ (by decide)) (v _ (by decide))]

/-- Settles O21: in either case both nodes are offset, one of them by 0, so the two states have the same legs
(`exchangeLegs_offset`), and the results depend on nothing else. -/
theorem offsetInvariance : Obligations.OffsetInvariance := by
  unfold Obligations.OffsetInvariance
  intro s s' c hb hb' hmask hmask' hvalid hoffset
  have unchanged {rs : List Reg} (hrs : ∀ r ∈ rs, 8 ≤ r.val ∧ r.val ≤ 13) (h : ∀ r ∈ rs, readT r s' = readT r s) :
      OffsetBy 0 rs s s' := offsetBy_zero h fun r hr => hvalid r (hrs r hr).1 (hrs r hr).2
  have hlegs : exchangeLegs s' = exchangeLegs s := by
    obtain ⟨htag, hanchor⟩ | ⟨htag, hanchor⟩ := hoffset
    · exact exchangeLegs_offset hvalid htag (unchanged (by decide) hanchor)
    · exact exchangeLegs_offset hvalid (unchanged (by decide) htag) hanchor
  refine ⟨_, _, exec_rngCompute hb, exec_rngCompute hb', ?_⟩
  rw [rmu_computeRange hmask, rmu_computeRange hmask', hlegs]
  exact rangeRegisters_results ..

/-! ### The recovered time of flight -/

/-- R147 (b): the formula's numerator is the time of flight times its denominator. -/
theorem tofNumerator_of_tof {l : Legs} {tof : Int} (h1 : l.round1 = l.reply1 + 2 * tof)
    (h2 : l.round2 = l.reply2 + 2 * tof) : tofNumerator l = tof * tofDenominator l := by
  rw [tofNumerator, tofDenominator, h1, h2]
  ring

/-- Valid legs are not negative, so their sum is 0 only if each is (R141). -/
theorem tofDenominator_eq_zero_iff {l : Legs} (hlegs : legsValid l = true) :
    tofDenominator l = 0 ↔ l.round1 = 0 ∧ l.reply1 = 0 ∧ l.round2 = 0 ∧ l.reply2 = 0 := by
  obtain ⟨⟨hround1, -⟩, ⟨hreply1, -⟩, ⟨hround2, -⟩, ⟨hreply2, -⟩⟩ := (legsValid_iff l).1 hlegs
  rw [tofDenominator]
  omega

/-- Settles O22: `N = tof * D` (`tofNumerator_of_tof`) and `D ≠ 0`, so the floor division by `D` is exact. -/
theorem recoversTimeOfFlight : Obligations.RecoversTimeOfFlight := by
  unfold Obligations.RecoversTimeOfFlight
  intro s tof hb hmask _
  dsimp only
  rw [← round1_eq, ← reply1_eq, ← round2_eq, ← reply2_eq]
  intro hround1 hreply1 hround2 hreply2 h1 h2 hne
  have hlegs := (legsValid_iff _).2 ⟨hround1, hreply1, hround2, hreply2⟩
  have hm := measured_computeRange hmask hlegs
  have hn := tofNumerator_of_tof h1 h2
  have hd := (tofDenominator_eq_zero_iff hlegs).not.2 hne
  obtain ⟨hdist, hstatus⟩ := hm.computed hd
  refine ⟨_, exec_rngCompute hb, by rw [hm.tofNum, hm.tofDen, hn], ?_, hstatus⟩
  rw [hdist, hn, mul_right_comm, Int.mul_fdiv_cancel _ hd, kM_eq]

/-! ### The bias -/

/-- At a breakpoint the interpolation starts from the row's own bias (R152). -/
theorem biasLine_at_lo (lo hi : BiasRow) : biasLine lo hi lo.p.toInt = lo.b.toInt * mmDu := by
  simp [biasLine, floorDiv]

/-- Every row's power has the row's bias (R155 (b)). -/
theorem tableBias_row {t : BiasTable} (ha : Asc t) (i : Fin 18) : tableBias t (t[i]).p.toInt = (t[i]).b.toInt * mmDu := by
  cases i using Fin.lastCases with
  | last => exact tableBias_high ha le_rfl
  | cast i => rw [tableBias_interval ha i le_rfl (ha i), biasLine_at_lo]

/-- Settles O24: `BIAS` is `tableBias` at the power (`biasAfter_eq`), and each clause is that function's law; (d) is (b) at
the two ends. -/
theorem biasLaws : Obligations.BiasLaws := by
  unfold Obligations.BiasLaws
  intro s k hb he hk
  have ha : Asc s.params.biasRom[k] := asc_table s.params k
  simp only [biasAfter_eq hb he hk]
  refine ⟨fun i p q hp hpq hq => ⟨tableBias_mono ha i hp hpq hq, tableBias_anti ha i hp hpq hq⟩, fun i => ?_,
    fun i p q hp hq hq' => ?_, fun p hp => ?_, fun p hp => ?_⟩
  · rw [tableBias_row ha, mmDu_eq]
  · rw [hq] at hq' ⊢
    exact tableBias_step ha i hp hq'
  · rw [tableBias_low hp, tableBias_low le_rfl]
  · rw [tableBias_high ha hp, tableBias_high ha le_rfl]

end Sys2Proof.Machine
end

section
/-! The statement of the family `41_ranging_math.md` about the anchor's session (O44): an accepted FinalMessage completes the
exchange, the range is computed from it (R227, R228), and the step ends in `RangeComputed` or in the failure of R229. The
state in which the range is computed has its own layer of facts; what the two ways out have in common is `RangedFrom`. -/

namespace Sys2Proof.Machine

/-! ### The exchange that a FinalMessage completes -/

/-- The state in which the anchor computes its range, after it has accepted the FinalMessage with the fields of `x` (R227). -/
def finalExchange (a : TrxAnswers) (x : Tx) (s : State) : State :=
  completedExchange a ((acceptedFrame a x .final s).call .getOwnShortAddress)

/-- The legs of the anchor's range (R227): the tag's from the 32-bit fields, its own from the 40-bit times. -/
def finalLegs (a : TrxAnswers) (x : Tx) (s : State) : Legs where
  round1 := ((x.ts1.toNat : Int) - x.ts0.toNat) % 2 ^ 32
  reply1 := (readT 10 s - readT 9 s) % 2 ^ 40
  round2 := ((a.rxTime.toNat : Int) - readT 10 s) % 2 ^ 40
  reply2 := ((x.ts2.toNat : Int) - x.ts1.toNat) % 2 ^ 32

theorem engineStep_final {s : State} {a : TrxAnswers} {x : Tx} (hb : s.busy = true) (hf : s.ctl.fsm = .awaitingFinal)
    (hc : buffersCanonical s = true) (hp : Presents s a x .final) (hdst : x.dst = s.trx.shortAddr)
    (hsrc : x.src = s.ses.peerAddr) : engineStep a s = rangeExchange (finalExchange a x s) := by
  have ⟨hfault, hdone, _⟩ := hp
  have haddr : ¬ (x.dst ≠ s.trx.shortAddr ∨ x.src ≠ s.ses.peerAddr) := by simp [hdst, hsrc]
  have hrule : onReceiveDone a (heardFrame a s) = onFinal a (heardFrame a s) := by
    have hfsm : (heardFrame a s).ctl.fsm = .awaitingFinal := hf
    rw [onReceiveDone, hfsm]
  rw [engineStep_frame hb (by rw [hf]; decide) hfault hdone, hrule, onFinal, decodeFrame_heardFrame hc hp]
  exact if_neg haddr

/-! Accepting a FinalMessage changes `DEC_OK`, the exchange, the two bias inputs, the receive side and the record of calls. -/

section
variable (a : TrxAnswers) (x : Tx) (s : State)

@[simp] theorem finalExchange_ctl :
    (finalExchange a x s).ctl = { s.ctl with status := setBit s.ctl.status 6 true } := by
  rw [finalExchange, completedExchange_eq]; rfl
@[simp] theorem finalExchange_rmu :
    (finalExchange a x s).rmu =
      { s.rmu with rxpwr := a.rxPower, biaskey := biasKeyOf s.rmu.bandMap s.trx.channel s.trx.prf } := rfl
@[simp] theorem finalExchange_ses : (finalExchange a x s).ses = s.ses := rfl
@[simp] theorem finalExchange_tx : (finalExchange a x s).tx = s.tx := rfl
@[simp] theorem finalExchange_rx : (finalExchange a x s).rx = (acceptedFrame a x .final s).rx := rfl
@[simp] theorem finalExchange_params : (finalExchange a x s).params = s.params := rfl
@[simp] theorem finalExchange_trx : (finalExchange a x s).trx = s.trx := rfl
@[simp] theorem finalExchange_sched : (finalExchange a x s).sched = s.sched := rfl
@[simp] theorem finalExchange_replies : (finalExchange a x s).replies = s.replies := rfl
@[simp] theorem finalExchange_free : (finalExchange a x s).free = s.free := rfl
@[simp] theorem finalExchange_calls :
    (finalExchange a x s).calls = s.calls ++ [.isHardwareFault, .isReceiveDone, .getReceivedFrame, .getOwnShortAddress,
      .getReceiveTimestamp, .getReceivePowerDbm, .getChannel, .getPulseRepetitionFrequency] := by
  rw [finalExchange, completedExchange_eq]
  simp [acceptedFrame]

end

theorem readT_finalExchange (a : TrxAnswers) (x : Tx) (s : State) (r : Reg) :
    readT r (finalExchange a x s) =
      if r = 12 then (x.ts0.toNat : Int) + diff32 x.ts1 x.ts0 + diff32 x.ts2 x.ts1
      else if r = 11 then (x.ts0.toNat : Int) + diff32 x.ts1 x.ts0
      else if r = 8 then (x.ts0.toNat : Int)
      else if r = 13 then (a.rxTime.toNat : Int) else readT r s :=
  readT_completedExchange a _ r

theorem exchMask_finalExchange {s : State} (h : s.tsu.exchMask = 0b000110#6) (a : TrxAnswers) (x : Tx) :
    (finalExchange a x s).tsu.exchMask = 0b111111#6 :=
  exchMask_completedExchange a _ h

/-- A difference of 32-bit fields is the difference of their values modulo 2^32. -/
theorem diff32_eq_emod (x y : BitVec 32) : diff32 x y = ((x.toNat : Int) - y.toNat) % 2 ^ 32 := by
  have hx := x.isLt
  have hy := y.isLt
  rw [diff32, BitVec.toNat_sub]
  omega

/-- Times rebuilt in ascending order have the differences they were rebuilt from (R227). -/
theorem wrappedDiff_add_left {d : Int} (h : 0 ≤ d) (v : Int) : wrappedDiff (v + d) v = d := by
  rw [wrappedDiff, add_sub_cancel_left, if_neg (by omega)]

section
variable {s : State} (h9 : ValidTs (readT 9 s)) (h10 : ValidTs (readT 10 s)) (a : TrxAnswers) (x : Tx)
include h9 h10

theorem exchangeLegs_finalExchange : exchangeLegs (finalExchange a x s) = finalLegs a x s := by
  have h1 := (diff32_bounds x.ts1 x.ts0).1
  have h2 := (diff32_bounds x.ts2 x.ts1).1
  rw [exchangeLegs_eq, finalLegs, ← diff32_eq_emod, ← diff32_eq_emod, ← wrappedDiff_eq_emod h10 h9,
    ← wrappedDiff_eq_emod (validTs_raw a.rxTime) h10]
  simp [readT_finalExchange, wrappedDiff_add_left, h1, h2]

theorem legsValid_finalLegs : legsValid (finalLegs a x s) = true := by
  rw [← exchangeLegs_finalExchange h9 h10]
  exact legsValid_completedExchange a _ h9 h10

end

/-- The registers outside the exchange are as before, and those in it are then cleared (R142). -/
theorem timestampsKept_finalExchange (a : TrxAnswers) (x : Tx) (s : State) :
    TimestampsKept [8, 9, 10, 11, 12, 13] s (finalExchange a x s) := by
  intro r hr
  simp only [List.mem_cons, List.not_mem_nil, or_false, not_or] at hr
  obtain ⟨h8, -, -, h11, h12, h13⟩ := hr
  rw [readT_finalExchange, if_neg h12, if_neg h11, if_neg h8, if_neg h13]

theorem TimestampsKept.trans {l : List Reg} {s t u : State} (h : TimestampsKept l s t) (h' : TimestampsKept l t u) :
    TimestampsKept l s u := fun r hr => (h' r hr).trans (h r hr)

/-! ### The bias key -/

theorem getLsbD_biasKeyOf_zero (m : BitVec 16) (c : BitVec 4) (p : BitVec 1) :
    (biasKeyOf m c p).getLsbD 0 = p.getLsbD 0 := by
  rw [biasKeyOf, BitVec.getLsbD_append]; rfl

theorem getLsbD_biasKeyOf_one (m : BitVec 16) (c : BitVec 4) (p : BitVec 1) :
    (biasKeyOf m c p).getLsbD 1 = m.getLsbD c.toNat := by
  rw [biasKeyOf, BitVec.getLsbD_append]
  simp

/-! ### The ways out of the ranging step -/

section
variable {e : State} (hmask : e.tsu.exchMask = 0b111111#6) (hlegs : legsValid (exchangeLegs e) = true)
include hmask hlegs

theorem rangeExchange_divZero (hd : tofDenominator (exchangeLegs e) = 0) :
    rangeExchange e = raiseErr .rangeInvalid .divZero (computeRange e) := by
  simp [rangeExchange, rangeInvalid_computeRange hmask hlegs, rangeDivzero_computeRange hmask hlegs, hd]

theorem rangeExchange_computed (hd : tofDenominator (exchangeLegs e) ≠ 0) :
    rangeExchange e = (correctRange (computeRange e)).goto .rangeComputed := by
  simp [rangeExchange, rangeInvalid_computeRange hmask hlegs, rangeDivzero_computeRange hmask hlegs, hd]

/-- The sum of a computed distance and any bias fits `DIST`: R150's case without a rule does not arise. -/
theorem corrected_fits (hd : tofDenominator (exchangeLegs e) ≠ 0) :
    distRawValue (computeRange e) + correctionBias (computeRange e) < 2 ^ 127 := by
  obtain ⟨hdist, -⟩ := (measured_computeRange hmask hlegs).computed hd
  obtain ⟨-, hb⟩ := correctionBias_bounds (computeRange e)
  have hraw : distRawValue (computeRange e) < 2 ^ 126 := hdist.trans_lt (distance_bounds hlegs hd).2
  omega

end

/-- `RNG.COMPUTE` leaves what the correction reads besides `DIST_RAW` (R141, R150). -/
theorem corrected_computeRange {e : State} (hmask : e.tsu.exchMask = 0b111111#6) :
    Corrected e.biasEn (selectedTable e) (rxpwrValue e) (distRawValue (computeRange e))
      (correctRange (computeRange e)).rmu := by
  have hk := computeKept_computeRange hmask
  have hen : (computeRange e).biasEn = e.biasEn := congrArg (·.ctrl.getLsbD 1) hk.ctl
  have htable : selectedTable (computeRange e) = selectedTable e := by
    simp only [selectedTable, biasKeyIndex, hk.biaskey, hk.surroundings.params]
  have hpower : rxpwrValue (computeRange e) = rxpwrValue e := congrArg BitVec.toInt hk.rxpwr
  rw [← hen, ← htable, ← hpower]
  exact corrected_correctRange (computeRange e)

/-- What the anchor's ranging step leaves, whichever way it ends: the exchange of `e` is consumed, the other ranging registers
are those of `RNG.COMPUTE`, and only `FSM_STATE`, `ERR`, `BUSY`, `RESULT`, `BIAS`, `DIST` and `RANGE_STATUS` depend on the
outcome. -/
structure RangedFrom (e t : State) : Prop where
  tsu : t.tsu = (clearExchange e).tsu
  rmu : t.rmu = { (computeRange e).rmu with
    bias := t.rmu.bias, dist := t.rmu.dist, rangeStatus := t.rmu.rangeStatus }
  status : StatusKept [0] e t
  ctrl : t.ctl.ctrl = e.ctl.ctrl
  cmdErrCode : t.ctl.cmdErrCode = e.ctl.cmdErrCode
  tx : t.tx = e.tx
  rx : t.rx = e.rx
  params : t.params = e.params
  trx : t.trx = e.trx
  sched : t.sched = e.sched
  calls : t.calls = e.calls
  replies : t.replies = e.replies
  free : t.free = e.free

theorem rangedFrom_raiseErr {e : State} (hmask : e.tsu.exchMask = 0b111111#6) (c : ErrClass) (d : ErrDetail) :
    RangedFrom e (raiseErr c d (computeRange e)) := by
  constructor
  case rmu => rfl
  all_goals rw [computeRange_complete hmask]
  case status => exact statusKept_raiseErr c d fun _ _ => rfl
  all_goals rfl

theorem rangedFrom_correctRange {e : State} (hmask : e.tsu.exchMask = 0b111111#6)
    (hfits : distRawValue (computeRange e) + correctionBias (computeRange e) < 2 ^ 127) (f : FsmState) :
    RangedFrom e ((correctRange (computeRange e)).goto f) := by
  have hmax := maxTs_eq
  have hfree : (correctRange (computeRange e)).free = (computeRange e).free := if_pos (by omega)
  constructor
  case rmu => rfl
  case free => exact hfree.trans (computeKept_computeRange hmask).free
  all_goals rw [computeRange_complete hmask]
  case status => exact fun _ _ => rfl
  all_goals rfl

theorem rangedFrom_rangeExchange {e : State} (hmask : e.tsu.exchMask = 0b111111#6)
    (hlegs : legsValid (exchangeLegs e) = true) : RangedFrom e (rangeExchange e) := by
  by_cases hd : tofDenominator (exchangeLegs e) = 0
  · rw [rangeExchange_divZero hmask hlegs hd]
    exact rangedFrom_raiseErr hmask ..
  · rw [rangeExchange_computed hmask hlegs hd]
    exact rangedFrom_correctRange hmask (corrected_fits hmask hlegs hd) _

/-! ### The accepted FinalMessage -/

/-- `Heard` reads the receive registers and `DEC_OK` only. -/
theorem Heard.congr {x : Tx} {k : Kind} {a : TrxAnswers} {s t u : State} (h : Heard x k a s u) (hrx : t.rx = u.rx)
    (hdec : t.decOk = u.decOk) : Heard x k a s t where
  octets := by
    intro off hoff
    rw [← h.octets off hoff]
    simp only [hostBufReadValue, hrx]
  len := by rw [hrx]; exact h.len
  fields := by rw [hrx]; exact h.fields
  decOk := hdec.trans h.decOk

theorem StatusKept.trans {l l' : List Nat} {s t u : State} (h : StatusKept l s t) (h' : StatusKept l' t u) :
    StatusKept (l' ++ l) s u := by
  intro i hi
  obtain ⟨hi', hil⟩ := not_or.1 (List.mem_append.not.1 hi)
  exact (h' i hi').trans (h i hil)

theorem heard_finalExchange {a : TrxAnswers} {x : Tx} {s : State} (hc : buffersCanonical s = true) :
    Heard x .final a s (finalExchange a x s) ∧ StatusKept [6] s (finalExchange a x s) :=
  heard_acceptedFrame hc (finalExchange_rx a x s) (congrArg Ctl.status (finalExchange_ctl a x s))

section
variable {s : State} (hf : s.ctl.fsm = .awaitingFinal) (hmask : s.tsu.exchMask = 0b000110#6)
  (h9 : ValidTs (readT 9 s)) (h10 : ValidTs (readT 10 s)) (a : TrxAnswers) (x : Tx)

include hmask h9 h10 in
theorem measured_finalExchange : Measured (finalLegs a x s) (computeRange (finalExchange a x s)).rmu := by
  have hlegs := exchangeLegs_finalExchange h9 h10 a x
  rw [← hlegs]
  exact measured_computeRange (exchMask_finalExchange hmask a x) (hlegs ▸ legsValid_finalLegs h9 h10 a x)

include hmask h9 h10 in
theorem rangedFrom_finalExchange : RangedFrom (finalExchange a x s) (rangeExchange (finalExchange a x s)) :=
  rangedFrom_rangeExchange (exchMask_finalExchange hmask a x)
    (exchangeLegs_finalExchange h9 h10 a x ▸ legsValid_finalLegs h9 h10 a x)

include hf hmask h9 h10 in
/-- `D = 0` ends the session (R229): the failure is recorded and `BIAS` and `DIST` are left. -/
theorem finalExchange_divZero (hd : tofDenominator (finalLegs a x s) = 0) :
    let t := rangeExchange (finalExchange a x s)
    FailedWith .rangeInvalid .divZero s t ∧ t.rmu.distRaw.toInt = 0 ∧ t.rmu.bias = s.rmu.bias ∧ t.rmu.dist = s.rmu.dist ∧
      t.rmu.rangeStatus = rsDivzero ∧ t.ses = { s.ses with result := t.ses.result } := by
  have hfull := exchMask_finalExchange hmask a x
  have hlegs := exchangeLegs_finalExchange h9 h10 a x
  have hk := computeKept_computeRange hfull
  obtain ⟨hdist, hstatus⟩ := (measured_finalExchange hmask h9 h10 a x).divzero hd
  have hfsm : (computeRange (finalExchange a x s)).ctl.fsm = s.ctl.fsm := by rw [hk.ctl, finalExchange_ctl]
  have hses : (computeRange (finalExchange a x s)).ses = s.ses :=
    hk.ses.trans (finalExchange_ses ..)
  dsimp only
  rw [rangeExchange_divZero hfull (hlegs ▸ legsValid_finalLegs h9 h10 a x) (hlegs ▸ hd)]
  refine ⟨failedWith_raiseErr _ _ hfsm (congrArg Ses.result hses), hdist, hk.bias, hk.dist, hstatus, ?_⟩
  simp only [raiseErr, hfsm, hf, FsmState.anchorRanging, State.setResult, hses, if_true]

/-- The table that the port's band and PRF select (R228). -/
theorem selectedTable_finalExchange {k : Fin 4}
    (hk : k.val = 2 * (s.rmu.bandMap.getLsbD s.trx.channel.toNat).toNat + (s.trx.prf.getLsbD 0).toNat) :
    selectedTable (finalExchange a x s) = s.params.biasRom[k] :=
  selectedTable_eq (by rw [finalExchange_rmu, getLsbD_biasKeyOf_zero, getLsbD_biasKeyOf_one, hk])

include hmask h9 h10 in
/-- `D ≠ 0` goes on to `RangeComputed` (R228): the distance is computed, then corrected at the power of the port by the table
of the port's key, and the sum fits `DIST`. -/
theorem finalExchange_computed (hd : tofDenominator (finalLegs a x s) ≠ 0) :
    let t := rangeExchange (finalExchange a x s)
    t.ctl.fsm = .rangeComputed ∧ t.busy = s.busy ∧ t.ctl.err = s.ctl.err ∧ t.ses = s.ses ∧
      t.rmu.distRaw.toInt = Int.fdiv (tofNumerator (finalLegs a x s) * kM) (tofDenominator (finalLegs a x s)) ∧
      (∀ i : Fin 4, t.rmu.rangeStatus.getLsbD i = decide (i.val = 0)) ∧
      (∀ k : Fin 4,
        k.val = 2 * (s.rmu.bandMap.getLsbD s.trx.channel.toNat).toNat + (s.trx.prf.getLsbD 0).toNat →
        Corrected s.biasEn s.params.biasRom[k] a.rxPower.toInt t.rmu.distRaw.toInt t.rmu) ∧
      t.rmu.distRaw.toInt + t.rmu.bias.toInt < 2 ^ 127 := by
  have hfull := exchMask_finalExchange hmask a x
  have hlegs := exchangeLegs_finalExchange h9 h10 a x
  have hk := computeKept_computeRange hfull
  have hvalid := hlegs ▸ legsValid_finalLegs h9 h10 a x
  have hd' := hlegs ▸ hd
  obtain ⟨hdist, hstatus⟩ := (measured_finalExchange hmask h9 h10 a x).computed hd
  dsimp only
  rw [rangeExchange_computed hfull hvalid hd']
  refine ⟨rfl, ?_, ?_, hk.ses.trans (finalExchange_ses ..), hdist, fun i => ?_, fun k hkey => ?_, ?_⟩
  · rw [State.busy_goto, busy_congr (correctRange_ctl _), busy_congr hk.ctl, State.busy, finalExchange_ctl]
    simp [State.busy]
  · exact (congrArg Ctl.err hk.ctl).trans (by rw [finalExchange_ctl])
  · obtain ⟨high, low, clamped, hcorrected, -⟩ := rangeStatus_correctRange (computeRange (finalExchange a x s))
    rw [State.goto_rmu, hcorrected, getLsbD_rsCorrected, if_pos i.isLt, hstatus]
    revert i; decide
  · have hen : (finalExchange a x s).biasEn = s.biasEn := by rw [State.biasEn, finalExchange_ctl]; rfl
    rw [← selectedTable_finalExchange a x hkey, ← hen]
    exact corrected_computeRange hfull
  · exact (congrArg (_ + ·) (toInt_bias _)).trans_lt (corrected_fits hfull hvalid hd')

end

/-- Settles O44: the step is `rangeExchange` of the completed exchange (`engineStep_final`); what both outcomes share is
`RangedFrom` and `Measured`, and the two outcomes are `finalExchange_divZero` and `finalExchange_computed`. -/
theorem finalAccepted : Obligations.FinalAccepted := by
  unfold Obligations.FinalAccepted
  intro s a x hb hf hc hmask h9 h10 hp hdst hsrc
  rw [engineStep_final hb hf hc hp hdst hsrc]
  have hfull := exchMask_finalExchange hmask a x
  have hm := measured_finalExchange hmask h9 h10 a x
  have hr := rangedFrom_finalExchange hmask h9 h10 a x
  have hk := computeKept_computeRange hfull
  obtain ⟨hheard, hstatus⟩ := heard_finalExchange (a := a) (x := x) hc
  have hdec : (rangeExchange (finalExchange a x s)).decOk = (finalExchange a x s).decOk := hr.status 6 (by decide)
  have hdivzero := finalExchange_divZero hf hmask h9 h10 a x
  have hcomputed := finalExchange_computed hmask h9 h10 a x
  generalize rangeExchange (finalExchange a x s) = t at *
  have hinputs : t.rmu.rxpwr = a.rxPower ∧ t.rmu.bandMap = s.rmu.bandMap ∧
      t.rmu.biaskey = biasKeyOf s.rmu.bandMap s.trx.channel s.trx.prf := by
    rw [hr.rmu]; exact ⟨hk.rxpwr, hk.bandMap, hk.biaskey⟩
  have hregisters : t.rmu.round1.toInt = (finalLegs a x s).round1 ∧ t.rmu.reply1.toInt = (finalLegs a x s).reply1 ∧
      t.rmu.round2.toInt = (finalLegs a x s).round2 ∧ t.rmu.reply2.toInt = (finalLegs a x s).reply2 ∧
      t.rmu.tofNum.toInt = tofNumerator (finalLegs a x s) ∧ t.rmu.tofDen.toInt = tofDenominator (finalLegs a x s) := by
    rw [hr.rmu]; exact ⟨hm.round1, hm.reply1, hm.round2, hm.reply2, hm.tofNum, hm.tofDen⟩
  obtain ⟨hrxpwr, hbandMap, hbiaskey⟩ := hinputs
  obtain ⟨hround1, hreply1, hround2, hreply2, htofNum, htofDen⟩ := hregisters
  refine ⟨hheard.congr hr.rx hdec, exchangeCleared_of_tsu hr.tsu,
    (timestampsKept_finalExchange a x s).trans (timestampsKept_of_tsu hr.tsu), ?_,
    hr.tx.trans (finalExchange_tx ..), hr.trx.trans (finalExchange_trx ..), hr.params.trans (finalExchange_params ..),
    hstatus.trans hr.status, ?_, ?_, hbandMap, hr.sched.trans (finalExchange_sched ..),
    hr.replies.trans (finalExchange_replies ..), hr.free.trans (finalExchange_free ..), ?_, hrxpwr, ?_, ?_, hround1, hreply1,
    hround2, hreply2, htofNum, htofDen, hdivzero, fun hd => ?_⟩
  · constructor <;> rw [hr.tsu] <;> rfl
  · rw [hr.ctrl, finalExchange_ctl]
  · rw [hr.cmdErrCode, finalExchange_ctl]
  · rw [hr.calls, finalExchange_calls]
  · rw [hbiaskey, getLsbD_biasKeyOf_zero]
  · rw [hbiaskey, getLsbD_biasKeyOf_one]
  · obtain ⟨hfsm, hbusy, hrest⟩ := hcomputed hd
    exact ⟨hfsm, hbusy.trans hb, hrest⟩

end Sys2Proof.Machine
end

section
/-! The statements of the family `42_frame_codec.md`: the two codec commands (O25, O26), the round trip from one to the other
(O27) and the end of a session on a frame that does not decode (O49). What `FC.DEC` leaves is `State.withDecode`, with one
equation per outcome of R176; what a malformed frame leaves is `failedDecode`. -/

namespace Sys2Proof.Machine

/-! ### The command words -/

theorem kindNumber_lt (k : Kind) : (kindNumber k).val < 7 := by cases k <;> decide

theorem decode_fcEncWord (k : Kind) : decode (wordOf 0x30 (kindNumber k).val 0 0) = .ok (.fcEnc (kindNumber k)) :=
  decode_wordOf (ra := 0) (rb := 0) rfl (decide_eq_true (kindNumber_lt k))

theorem decode_fcDecWord (k : Kind) : decode (wordOf 0x31 (kindNumber k).val 0 0) = .ok (.fcDec (kindNumber k)) :=
  decode_wordOf (ra := 0) (rb := 0) rfl (decide_eq_true (kindNumber_lt k))

/-! ### `FC.ENC` -/

/-- Settles O25: the frame is `encoded_encodeFrame`; an encode writes the transmit side only. -/
theorem fcEncStoresFrame : Obligations.FcEncStoresFrame := by
  unfold Obligations.FcEncStoresFrame
  refine ⟨fun k s => ⟨decode_fcEncWord k, fun hb hc => ?_⟩,
    fun n s hn hb => ⟨_, exec_fcEnc_badKind hb hn, onlyRejected_reject _ s⟩⟩
  obtain ⟨hw, -⟩ := (canonical_iff s).1 hc
  exact ⟨encodeFrame k s, exec_fcEnc hb k, encoded_encodeFrame rfl rfl rfl hw, rfl, rfl, rfl, rfl, rfl, rfl,
    ⟨rfl, rfl, rfl, rfl, rfl⟩⟩

/-! ### `FC.DEC` -/

/-- `s` after an `FC.DEC` that leaves `ok` in `DEC_OK`, `e` in `ERR` and `r` in the receive registers. -/
def State.withDecode (ok : Bool) (e : ErrReg) (r : Rx) (s : State) : State :=
  { s with ctl := { s.ctl with status := setBit s.ctl.status 6 ok, err := e }, rx := r }

@[simp] theorem decOk_withDecode (ok : Bool) (e : ErrReg) (r : Rx) (s : State) : (s.withDecode ok e r).decOk = ok :=
  decOk_setDecOk ok s

theorem statusKept_withDecode (ok : Bool) (e : ErrReg) (r : Rx) (s : State) : StatusKept [6] s (s.withDecode ok e r) :=
  statusKept_setDecOk ok s

section
variable {k : Kind} {s : State}

theorem decodeCommand_empty (h : s.rx.len.toNat = 0) :
    decodeCommand k s = s.withDecode false ⟨.protocolViolation, .truncated, s.ctl.fsm⟩ s.rx := by
  rw [decodeCommand, decodeFrame_empty k s (BitVec.eq_of_toNat_eq h)]
  rfl

theorem decodeCommand_badFc (h : 0 < s.rx.len.toNat) (hc : readOctet s.rx.buf 0 ≠ codeOfKind s.params k) :
    decodeCommand k s = s.withDecode false ⟨.protocolViolation, .badFc, s.ctl.fsm⟩
      { s.rx with fc := readOctet s.rx.buf 0 } := by
  rw [decodeCommand, decodeFrame_badFc k s h hc]
  rfl

theorem decodeCommand_short (h : 0 < s.rx.len.toNat) (hc : readOctet s.rx.buf 0 = codeOfKind s.params k)
    (hl : s.rx.len.toNat < minLen k) :
    decodeCommand k s = s.withDecode false ⟨.protocolViolation, .truncated, s.ctl.fsm⟩
      { s.rx with fc := readOctet s.rx.buf 0 } := by
  rw [decodeCommand, decodeFrame_short k s h hc hl]
  rfl

theorem decodeCommand_accept (hc : readOctet s.rx.buf 0 = codeOfKind s.params k) (hl : minLen k ≤ s.rx.len.toNat) :
    decodeCommand k s = s.withDecode true s.ctl.err (decodedFrom s.rx k) := by
  rw [decodeCommand, decodeFrame_accept k s hc hl]
  rfl

/-- Whatever its outcome, an `FC.DEC` writes `DEC_OK`, `ERR` and the `D_*` registers and leaves `RXBUF` (R176, R177 (a)). -/
theorem decodeCommand_eq_withDecode (k : Kind) (s : State) :
    ∃ ok e r, decodeCommand k s = s.withDecode ok e r ∧ r.buf = s.rx.buf := by
  obtain hempty | hpos := Nat.eq_zero_or_pos s.rx.len.toNat
  · exact ⟨_, _, _, decodeCommand_empty hempty, rfl⟩
  by_cases hcode : readOctet s.rx.buf 0 = codeOfKind s.params k
  · obtain hshort | hlong := Nat.lt_or_ge s.rx.len.toNat (minLen k)
    · exact ⟨_, _, _, decodeCommand_short hpos hcode hshort, rfl⟩
    · exact ⟨_, _, _, decodeCommand_accept hcode hlong, decodedFrom_buf _ k⟩
  · exact ⟨_, _, _, decodeCommand_badFc hpos hcode, rfl⟩

end

/-- Settles O26: one equation of `decodeCommand` per outcome, and for the frame `decodeCommand_eq_withDecode`. -/
theorem fcDecReadsFrame : Obligations.FcDecReadsFrame := by
  unfold Obligations.FcDecReadsFrame
  refine ⟨fun k s => ⟨decode_fcDecWord k, fun hb => ⟨decodeCommand k s, exec_fcDec hb k, ?_⟩⟩,
    fun n s hn hb => ⟨_, exec_fcDec_badKind hb hn, onlyRejected_reject _ s⟩⟩
  rw [length_frameOf]
  refine ⟨fun hempty => ?_, fun hpos hcode => ?_, fun hpos hcode hshort => ?_, fun hcode hlong => ?_, ?_⟩
  · rw [decodeCommand_empty hempty]
    exact ⟨rfl, decOk_withDecode .., rfl⟩
  · rw [decodeCommand_badFc hpos hcode]
    exact ⟨rfl, decOk_withDecode .., rfl⟩
  · rw [decodeCommand_short hpos hcode hshort]
    exact ⟨rfl, decOk_withDecode .., rfl⟩
  · rw [decodeCommand_accept hcode hlong]
    exact ⟨rfl, decOk_withDecode .., rfl⟩
  · obtain ⟨ok, e, r, heq, hbuf⟩ := decodeCommand_eq_withDecode k s
    rw [heq]
    exact ⟨statusKept_withDecode ok e r s, rfl, rfl, rfl, rfl, rfl, rfl, rfl, octetsKept_of_bufs rfl hbuf, rfl,
      ⟨rfl, rfl, rfl, rfl, rfl⟩⟩

/-! ### The round trip -/

/-- `s` with a received frame in `RXBUF` and its length in `RXLEN`. -/
def State.withRxFrame (buf : Memory) (len : BitVec 7) (s : State) : State :=
  { s with rx := { s.rx with buf := buf, len := len } }

/-- A received frame of the kind that is asked for gives its sender's fields back. -/
theorem decodeCommand_of_frame {k : Kind} {s : State} {x : Tx}
    (hbuf : ∀ i, i < (frameOf s.params x k).length → readOctet s.rx.buf i = (frameOf s.params x k).getD i 0)
    (hlen : (frameOf s.params x k).length ≤ s.rx.len.toNat) :
    decodeCommand k s = s.withDecode true s.ctl.err (copiedFrom s.params x k s.rx) := by
  have hcode : readOctet s.rx.buf 0 = codeOfKind s.params k := hbuf 0 (Nat.succ_pos _)
  rw [decodeCommand_accept hcode (length_frameOf s.params x k ▸ hlen), decodedFrom_of_frame hbuf]

/-- Settles O27: `TXBUF` holds the octets of `frameOf` after the encode (`readOctet_encodeFrame`), and a decode of these
octets gives the fields back (`decodeCommand_of_frame`). -/
theorem frameRoundTrip : Obligations.FrameRoundTrip := by
  unfold Obligations.FrameRoundTrip
  intro k s buf hb hc
  obtain ⟨hw, -⟩ := (canonical_iff s).1 hc
  refine ⟨encodeFrame k s, exec_fcEnc hb k, fun hcopy => ?_⟩
  rw [len_encodeFrame] at hcopy
  have hframe (i : Nat) (hi : i < (frameOf s.params s.tx k).length) :
      readOctet buf i = (frameOf s.params s.tx k).getD i 0 := by
    rw [hcopy i hi, readOctet_encodeFrame k s hw, if_pos hi]
  have hdecode := decodeCommand_of_frame (s := (encodeFrame k s).withRxFrame buf (encodeFrame k s).tx.len) hframe
    (len_encodeFrame k s).ge
  have hready : ((encodeFrame k s).withRxFrame buf (encodeFrame k s).tx.len).busy = false := hb
  exact ⟨_, (exec_fcDec hready k).trans (congrArg Host.Outcome.next hdecode), decOk_withDecode .., rfl, rfl⟩

/-! ### A session step with a malformed frame -/

/-- The end of a session whose presented frame was loaded but did not decode: the error `d`, with `fc` in `D_FC` (R177 (b),
R262). -/
def failedDecode (d : ErrDetail) (fc : Octet) (a : TrxAnswers) (s : State) : State :=
  raiseErr .protocolViolation d { (heardFrame a s).setDecOk false with rx := { (heardFrame a s).rx with fc := fc } }

/-- What every malformed frame does, besides the receive registers. -/
theorem failedDecode_effect (d : ErrDetail) (fc : Octet) (a : TrxAnswers) (s : State) :
    FailedWith .protocolViolation d s (failedDecode d fc a s) ∧
      FailedQuietly [.isHardwareFault, .isReceiveDone, .getReceivedFrame] s (failedDecode d fc a s) ∧
      (failedDecode d fc a s).decOk = false ∧ StatusKept [0, 6] s (failedDecode d fc a s) := by
  refine ⟨failedWith_raiseErr _ _ rfl rfl, failedQuietly_raiseErr _ _ ?_ rfl rfl rfl rfl rfl rfl rfl rfl rfl rfl rfl, ?_,
    statusKept_raiseErr _ _ (statusKept_setDecOk false s)⟩
  · simp [heardFrame, loadFrame]
  · simp [State.decOk, failedDecode]

/-- The presented frame is in `RXBUF`, whatever its decode answered (R262). -/
theorem failedDecode_rx (d : ErrDetail) (fc : Octet) (a : TrxAnswers) {s : State} (hc : buffersCanonical s = true) :
    RxHolds a.frame.octets s (failedDecode d fc a s) ∧ (failedDecode d fc a s).rx.len.toNat = a.frame.octets.length ∧
      (failedDecode d fc a s).rx =
        { s.rx with fc := fc, len := (failedDecode d fc a s).rx.len, buf := (failedDecode d fc a s).rx.buf } := by
  obtain ⟨-, hw⟩ := (canonical_iff s).1 hc
  refine ⟨fun off hoff => ?_, toNat_loadFrame_len a.frame s, rfl⟩
  have hread : readOctet (failedDecode d fc a s).rx.buf off = _ := readOctet_loadFrame a.frame s hw off
  simp only [hostBufReadValue, frameMax, hoff, if_true, hread]

theorem heardFrame_rx_of_empty {a : TrxAnswers} (h : a.frame.octets = []) (s : State) :
    (heardFrame a s).rx = { s.rx with len := 0 } := by
  simp [heardFrame, loadFrame, writeOctets, h]

theorem heardFrame_first {a : TrxAnswers} {s : State} {c : Octet} {rest : List Octet} (h : a.frame.octets = c :: rest)
    (hw : Memory.wf s.rx.buf = true) :
    0 < (heardFrame a s).rx.len.toNat ∧ readOctet (heardFrame a s).rx.buf 0 = c := by
  have hlen : (heardFrame a s).rx.len.toNat = a.frame.octets.length := toNat_loadFrame_len a.frame _
  have hread : readOctet (heardFrame a s).rx.buf 0 = _ := readOctet_loadFrame a.frame s hw 0
  simp [hlen, hread, h]

section
variable {s : State} {a : TrxAnswers} (hb : s.busy = true) (hf : s.ctl.fsm ∈ receiveWaits) (hfault : a.hwFault = false)
  (hdone : a.rxDone = true)
include hb hf hfault hdone

/-- A step ends in `failedDecode` when the decode of its state, one kind or one of two (R183), fails. -/
theorem engineStep_failedDecode {d : ErrDetail} {fc : Octet}
    (hone : ∀ k, expectedKinds s.ctl.fsm = [k] → decodeFrame k (heardFrame a s) =
      ({ (heardFrame a s).setDecOk false with rx := { (heardFrame a s).rx with fc := fc } }, some d))
    (htwo : expectedKinds s.ctl.fsm = [.confirm, .finished] → decodeEither (heardFrame a s) =
      ({ (heardFrame a s).setDecOk false with rx := { (heardFrame a s).rx with fc := fc } }, some d)) :
    engineStep a s = failedDecode d fc a s := by
  rw [engineStep_frame hb hf hfault hdone]
  exact onReceiveDone_fail (u := heardFrame a s) hf hone htwo

theorem engineStep_emptyFrame (h : a.frame.octets = []) : engineStep a s = failedDecode .truncated s.rx.fc a s := by
  have hlen : (heardFrame a s).rx.len = 0#7 := congrArg Rx.len (heardFrame_rx_of_empty h s)
  exact engineStep_failedDecode hb hf hfault hdone (fun k _ => decodeFrame_empty k _ hlen) fun _ => decodeEither_empty hlen

section
variable {c : Octet} {rest : List Octet} (h : a.frame.octets = c :: rest) (hw : Memory.wf s.rx.buf = true)
include h hw

theorem engineStep_wrongCode (hcode : ∀ k ∈ expectedKinds s.ctl.fsm, c ≠ codeOfKind s.params k) :
    engineStep a s = failedDecode .badFc c a s := by
  obtain ⟨hpos, hfirst⟩ := heardFrame_first h hw
  have hne (k : Kind) (hk : k ∈ expectedKinds s.ctl.fsm) :
      readOctet (heardFrame a s).rx.buf 0 ≠ codeOfKind (heardFrame a s).params k := hfirst ▸ hcode k hk
  refine engineStep_failedDecode hb hf hfault hdone (fun k hkinds => ?_) fun hkinds => ?_
  · rw [decodeFrame_badFc k _ hpos (hne k (by simp [hkinds])), hfirst]
  · rw [decodeEither_badFc hpos (hne .confirm (by simp [hkinds])) (hne .finished (by simp [hkinds])), hfirst]

theorem engineStep_shortFrame {k : Kind} (hk : k ∈ expectedKinds s.ctl.fsm) (hcode : c = codeOfKind s.params k)
    (hshort : (c :: rest).length < minLen k) : engineStep a s = failedDecode .truncated c a s := by
  obtain ⟨hpos, hfirst⟩ := heardFrame_first h hw
  have hread : readOctet (heardFrame a s).rx.buf 0 = codeOfKind (heardFrame a s).params k := hfirst.trans hcode
  have hlen : (heardFrame a s).rx.len.toNat < minLen k := by
    rw [← h] at hshort
    exact (toNat_loadFrame_len a.frame _).trans_lt hshort
  have hdecode := decodeFrame_short k (heardFrame a s) hpos hread hlen
  rw [hfirst] at hdecode
  refine engineStep_failedDecode hb hf hfault hdone (fun k' hkinds => ?_) fun hkinds => ?_
  · obtain rfl : k = k' := List.mem_singleton.1 (hkinds ▸ hk)
    exact hdecode
  · simp only [hkinds, List.mem_cons, List.not_mem_nil, or_false] at hk
    obtain rfl | rfl := hk
    · exact (decodeEither_confirm hpos hread).trans hdecode
    · exact (decodeEither_finished hpos hread).trans hdecode

end
end

/-- Settles O49: each malformed frame ends the step in `failedDecode`, in the order of R178's tests. -/
theorem malformedFrameFails : Obligations.MalformedFrameFails := by
  unfold Obligations.MalformedFrameFails
  intro s a hb hc hf hfault hdone
  obtain ⟨-, hw⟩ := (canonical_iff s).1 hc
  refine ⟨fun h => ?_, fun c rest h hcode => ?_, fun c rest k h hk hcode hshort => ?_⟩
  · obtain ⟨hfailed, hquiet, hdec, hstatus⟩ := failedDecode_effect .truncated s.rx.fc a s
    rw [engineStep_emptyFrame hb hf hfault hdone h]
    have hrx : (failedDecode .truncated s.rx.fc a s).rx = { (heardFrame a s).rx with fc := s.rx.fc } := rfl
    rw [heardFrame_rx_of_empty h] at hrx
    exact ⟨hfailed, hquiet, hdec, hstatus, hrx⟩
  · obtain ⟨hfailed, hquiet, hdec, hstatus⟩ := failedDecode_effect .badFc c a s
    rw [engineStep_wrongCode hb hf hfault hdone h hw hcode, ← h]
    exact ⟨hfailed, hquiet, hdec, hstatus, failedDecode_rx .badFc c a hc⟩
  · obtain ⟨hfailed, hquiet, hdec, hstatus⟩ := failedDecode_effect .truncated c a s
    rw [length_frameOf] at hshort
    rw [engineStep_shortFrame hb hf hfault hdone h hw hk hcode hshort, ← h]
    exact ⟨hfailed, hquiet, hdec, hstatus, failedDecode_rx .truncated c a hc⟩

end Sys2Proof.Machine
end

section
/-! The statements of the family `43_session_tag.md` about every session step: the moves of `FSM_STATE` (O51), the
exchange mask and the anchor's recorded times (O57), and the tag, which computes nothing (O52). A session step stays,
fails or carries on (`engineStep_cases`), so each property is checked once for a failure and once for `carryOn`. -/

namespace Sys2Proof.Machine

/-! ### The moves of a session -/

/-- What R204, R205, R221, R232 and R246 allow a session step to do to `FSM_STATE`, `BUSY` and `ERR`. -/
structure SessionMove (s t : State) : Prop where
  move : t.ctl.fsm = s.ctl.fsm ∨ t.ctl.fsm = .failed ∨ t.ctl.fsm ∈ sessionMoves s.ctl.fsm
  ended : t.busy = false → t.ctl.fsm ∈ ([.failed, .done, .admitted, .confirmSent, .finishedSent] : List FsmState)
  failed : t.ctl.fsm = .failed → s.ctl.fsm ≠ .failed →
    t.busy = false ∧ t.ctl.err.cls ≠ .none ∧ t.ctl.err.state = s.ctl.fsm

/-- `Failed` is entered by a failure only. -/
theorem ne_failed_of_mem_sessionMoves {f g : FsmState} (h : g ∈ sessionMoves f) : g ≠ .failed := by
  rintro rfl
  cases f <;> simp [sessionMoves] at h

/-- A step that leaves the control registers alone. -/
theorem SessionMove.of_ctl_eq {s t : State} (hb : s.busy = true) (h : t.ctl = s.ctl) : SessionMove s t where
  move := .inl (congrArg Ctl.fsm h)
  ended hready := by simp [busy_congr h, hb] at hready
  failed hfailed hne := absurd (h ▸ hfailed) hne

/-- The failure procedure (R264), in a state whose `FSM_STATE` is still that of `s`. -/
theorem SessionMove.raiseErr {s u : State} {c : ErrClass} (hc : c ≠ .none) (d : ErrDetail)
    (hfsm : u.ctl.fsm = s.ctl.fsm) : SessionMove s (raiseErr c d u) where
  move := .inr (.inl rfl)
  ended _ := by simp
  failed _ _ := ⟨busy_raiseErr c d u, hc, hfsm⟩

/-- A step that makes a listed move and goes on. -/
theorem SessionMove.moved {s t : State} {f : FsmState} (hb : s.busy = true) (hf : f ∈ sessionMoves s.ctl.fsm)
    (h : t.ctl = { s.ctl with fsm := f }) : SessionMove s t where
  move := .inr (.inr (by rw [h]; exact hf))
  ended hready := by
    have hbusy : t.busy = s.busy := by rw [State.busy, h]; rfl
    simp [hbusy, hb] at hready
  failed hfailed _ := absurd (by rw [← hfailed, h]) (ne_failed_of_mem_sessionMoves hf)

/-- A step that ends the session in one of the listed states. -/
theorem SessionMove.finished {s t : State} {f : FsmState} (hf : f = s.ctl.fsm ∨ f ∈ sessionMoves s.ctl.fsm)
    (hend : f ∈ ([.done, .admitted, .confirmSent, .finishedSent] : List FsmState))
    (h : t.ctl = { s.ctl with fsm := f, status := setBit s.ctl.status 0 false }) : SessionMove s t where
  move := by
    rw [h]
    exact hf.imp id .inr
  ended _ := by rw [h]; exact List.mem_cons_of_mem _ hend
  failed hfailed _ := by
    rw [h] at hfailed
    obtain rfl : f = .failed := hfailed
    simp at hend

/-- The relation reads only `FSM_STATE` of the state before, which a step's own tests leave (R262). -/
theorem SessionMove.of_judged {s u t : State} (hj : Judged s u) (h : SessionMove u t) : SessionMove s t :=
  ⟨hj.fsm ▸ h.move, h.ended, hj.fsm ▸ h.failed⟩

/-- The anchor's ranging step fails or goes on to `RangeComputed` (R228, R229). -/
theorem sessionMove_rangeExchange {s : State} (hb : s.busy = true) (hf : s.ctl.fsm = .awaitingFinal) :
    SessionMove s (rangeExchange s) := by
  obtain ⟨hctl, -⟩ := computeRange_keeps s
  have hfsm := congrArg Ctl.fsm hctl
  obtain ⟨-, he⟩ | ⟨-, -, he⟩ | ⟨-, -, he⟩ := rangeExchange_cases s <;> rw [he]
  · exact .raiseErr (by decide) _ hfsm
  · exact .raiseErr (by decide) _ hfsm
  · have hmoved : ((correctRange (computeRange s)).goto .rangeComputed).ctl = { s.ctl with fsm := .rangeComputed } := by
      rw [← hctl]
      rfl
    exact .moved hb (by rw [hf]; decide) hmoved

theorem sessionMove_carryOn (a : TrxAnswers) {u : State} (hb : u.busy = true) : SessionMove u (carryOn a u) := by
  by_cases hfinal : u.ctl.fsm = .awaitingFinal
  · rw [carryOn_awaitingFinal hfinal]
    have hctl : (completedExchange a u).ctl = u.ctl := by rw [completedExchange_eq]
    have hfsm := congrArg Ctl.fsm hctl
    have h := sessionMove_rangeExchange ((busy_congr hctl).trans hb) (hfsm.trans hfinal)
    exact ⟨hfsm ▸ h.move, h.ended, hfsm ▸ h.failed⟩
  · have hctl := ctl_carryOn a u hfinal
    cases hf : u.ctl.fsm <;> simp only [hf] at hctl
    case awaitingFinal => exact absurd hf hfinal
    case idle | done | failed | admitted => exact .of_ctl_eq hb hctl
    case confirmSent | finishedSent => exact .finished (.inl hf.symm) (by decide) hctl
    case initiationSent => exact .finished (.inr (by rw [hf]; decide)) (by decide) hctl
    case awaitingConfirm =>
      split at hctl
      · exact .moved hb (by rw [hf]; decide) hctl
      · exact .finished (.inr (by rw [hf]; decide)) (by decide) hctl
    case rangeComputed => exact .moved hb (by rw [hf]; split <;> decide) hctl
    all_goals exact .moved hb (by rw [hf]; decide) hctl

/-- Every failure of a step's own tests has a class (R260). -/
theorem StepFailure.cls_ne_none {c : ErrClass} {d : ErrDetail} (h : StepFailure c d) : c ≠ .none := by
  obtain ⟨rfl, -⟩ | ⟨rfl, -⟩ | ⟨rfl, -⟩ := h <;> decide

theorem sessionMove_engineStep (a : TrxAnswers) {s : State} (hb : s.busy = true) : SessionMove s (engineStep a s) := by
  obtain ⟨l, he⟩ | ⟨c, d, u, hfail, hj, he⟩ | ⟨u, hj, he⟩ := engineStep_cases (a := a) hb <;> rw [he]
  · exact .of_ctl_eq hb rfl
  · exact .raiseErr hfail.cls_ne_none d hj.fsm
  · exact .of_judged hj (sessionMove_carryOn a (hj.busy.trans hb))

/-- Settles O51: the three parts of `SessionMove`, which every case of a session step meets. -/
theorem engineStep_sessionMoves : Obligations.SessionMoves := by
  unfold Obligations.SessionMoves
  intro s a hb
  obtain ⟨hmove, hended, hfailed⟩ := sessionMove_engineStep a hb
  exact ⟨hmove, hended, hfailed⟩

/-! ### The tag computes nothing -/

/-- The tag's states are closed under its moves but for the end in `Done` (R204, R208). -/
theorem tagState_of_mem_sessionMoves {f g : FsmState} (hf : f.tagState = true) (h : g ∈ sessionMoves f) :
    g.tagState = true ∨ g = .done := by
  revert hf h
  cases f <;> cases g <;> decide

/-- The ranging registers and `RESULT` are as before (R206). -/
structure RangeKept (s t : State) : Prop where
  rmu : t.rmu = s.rmu
  result : t.ses.result = s.ses.result

theorem rangeKept_raiseErr {s u : State} (hf : s.ctl.fsm.tagState = true) (hj : Judged s u) (c : ErrClass)
    (d : ErrDetail) : RangeKept s (raiseErr c d u) where
  rmu := hj.rmu
  result := by
    have hanchor : ¬ u.ctl.fsm.anchorRanging = true := by
      rw [hj.fsm]
      revert hf
      cases s.ctl.fsm <;> decide
    simp only [raiseErr, if_neg hanchor, hj.ses]

theorem rangeKept_carryOn (a : TrxAnswers) {u : State} (hf : u.ctl.fsm.tagState = true) : RangeKept u (carryOn a u) := by
  cases h : u.ctl.fsm
  case idle | done | failed | awaitingPoll | responseSent | awaitingFinal | rangeComputed | confirmSent | finishedSent |
      awaitingBlink | initiationSent | admitted => exact absurd (h ▸ hf) (by decide)
  all_goals rw [carryOn, h]; dsimp only
  case awaitingConfirm => split <;> exact ⟨rfl, rfl⟩
  all_goals exact ⟨rfl, rfl⟩

theorem rangeKept_engineStep (a : TrxAnswers) {s : State} (hb : s.busy = true) (hf : s.ctl.fsm.tagState = true) :
    RangeKept s (engineStep a s) := by
  obtain ⟨l, he⟩ | ⟨c, d, u, -, hj, he⟩ | ⟨u, hj, he⟩ := engineStep_cases (a := a) hb <;> rw [he]
  · exact ⟨rfl, rfl⟩
  · exact rangeKept_raiseErr hf hj c d
  · obtain ⟨hrmu, hresult⟩ := rangeKept_carryOn a (hj.fsm ▸ hf)
    exact ⟨hrmu.trans hj.rmu, hresult.trans (congrArg Ses.result hj.ses)⟩

/-- Settles O52: `RangeKept` for the registers; the moves of O51 that start in a tag state. -/
theorem tagComputesNothing : Obligations.TagComputesNothing := by
  unfold Obligations.TagComputesNothing
  intro s a hb hf
  obtain ⟨hrmu, hresult⟩ := rangeKept_engineStep a hb hf
  refine ⟨hrmu, hresult, ?_⟩
  obtain hstay | hfailed | hmove := (sessionMove_engineStep a hb).move
  · exact .inl (hstay ▸ hf)
  · exact .inr (.inr hfailed)
  · exact (tagState_of_mem_sessionMoves hf hmove).imp id .inl

/-! ### The exchange of a running session -/

/-- The timestamps of its own that the anchor has recorded in each state (R222, R225). -/
def recordedTimes : FsmState → List Reg
  | .responseSent => [prReg]
  | .awaitingFinal => [prReg, rsReg]
  | .idle | .blinkSent | .awaitingInitiation | .pollSent | .awaitingResponse | .finalSent | .awaitingConfirm | .nextAnchor
  | .done | .failed | .awaitingPoll | .rangeComputed | .confirmSent | .finishedSent | .awaitingBlink | .initiationSent
  | .admitted => []

/-- In a running session the exchange mask is the one its state requires, and the recorded times are valid. -/
structure ExchangeKnown (s : State) : Prop where
  mask : s.busy = true → ∀ m, exchangeMaskOf s.ctl.fsm = some m → s.tsu.exchMask = m
  times : s.busy = true → ∀ r ∈ recordedTimes s.ctl.fsm, ValidTs (readT r s)

theorem exchangeTracked_iff (s : State) :
    exchangeTracked s = true ↔ (s.busy = true → ∀ m, exchangeMaskOf s.ctl.fsm = some m → s.tsu.exchMask = m) := by
  unfold exchangeTracked
  cases s.busy <;> cases exchangeMaskOf s.ctl.fsm <;> simp

theorem localTimesValid_iff (s : State) :
    localTimesValid s = true ↔ (s.busy = true → ∀ r ∈ recordedTimes s.ctl.fsm, ValidTs (readT r s)) := by
  unfold localTimesValid
  cases s.busy <;> cases s.ctl.fsm <;> simp [recordedTimes, isValid_iff]

theorem exchangeKnown_iff (s : State) : ExchangeKnown s ↔ exchangeTracked s = true ∧ localTimesValid s = true := by
  rw [exchangeTracked_iff, localTimesValid_iff]
  exact ⟨fun h => ⟨h.mask, h.times⟩, fun ⟨hmask, htimes⟩ => ⟨hmask, htimes⟩⟩

theorem ExchangeKnown.of_ready {s : State} (hb : s.busy = false) : ExchangeKnown s := by
  constructor <;> simp [hb]

theorem ExchangeKnown.congr {s t : State} (h : ExchangeKnown s) (hbusy : t.busy = s.busy) (hfsm : t.ctl.fsm = s.ctl.fsm)
    (htsu : t.tsu = s.tsu) : ExchangeKnown t where
  mask := by rw [hbusy, hfsm, htsu]; exact h.mask
  times := by
    rw [hbusy, hfsm]
    intro hb r hr
    rw [readT_congr htsu]
    exact h.times hb r hr

/-- A session in state `f`, whose mask and recorded times are known. -/
theorem ExchangeKnown.of_state {t : State} (f : FsmState) (hfsm : t.ctl.fsm = f)
    (hmask : ∀ m, exchangeMaskOf f = some m → t.tsu.exchMask = m)
    (htimes : ∀ r ∈ recordedTimes f, ValidTs (readT r t)) : ExchangeKnown t :=
  ⟨fun _ => hfsm ▸ hmask, fun _ => hfsm ▸ htimes⟩

/-- A state in which the mask is not fixed; no time is recorded there. -/
theorem ExchangeKnown.of_untracked {t : State} (f : FsmState) (hfsm : t.ctl.fsm = f) (hf : exchangeMaskOf f = none) :
    ExchangeKnown t := by
  refine .of_state f hfsm (fun m hm => ?_) fun r hr => ?_
  · simp [hf] at hm
  · cases f <;> simp_all [exchangeMaskOf, recordedTimes]

/-- A state in which the mask is fixed and no time of the anchor's is recorded. -/
theorem ExchangeKnown.of_mask {t : State} (f : FsmState) (hfsm : t.ctl.fsm = f)
    (hmask : exchangeMaskOf f = some t.tsu.exchMask) (hf : recordedTimes f = []) : ExchangeKnown t :=
  .of_state f hfsm (fun m hm => Option.some.inj (hmask.symm.trans hm)) (by simp [hf])

theorem exchangeKnown_commandBody (i : Instr) {s : State} (hb : s.busy = false) : ExchangeKnown (commandBody i s) := by
  have hreject (c : RejectCode) : ExchangeKnown (s.reject c) := .of_ready ((State.busy_reject c s).trans hb)
  cases i with
  | tsToraw ra => exact .of_ready ((State.busy_setRawInvalid _ s).trans hb)
  | rngCompute =>
    obtain ⟨hctl, -⟩ := computeRange_keeps s
    exact .of_ready ((busy_congr hctl).trans hb)
  | rngCorrect => exact .of_ready hb
  | fcEnc k =>
    simp only [commandBody]
    split
    · exact hreject _
    · exact .of_ready hb
  | fcDec k =>
    simp only [commandBody]
    split
    · exact hreject _
    · obtain ⟨-, hbusy, -⟩ := decodeCommand_keeps ‹_› s
      exact .of_ready (hbusy.trans hb)
  | sesTag =>
    simp only [commandBody]
    split
    · exact .of_untracked .blinkSent rfl rfl
    · exact hreject _
  | sesAnchor =>
    simp only [commandBody]
    split
    · exact .of_untracked .awaitingPoll rfl rfl
    · exact hreject _
  | sesAdmit =>
    simp only [commandBody]
    split
    · exact .of_untracked .awaitingBlink rfl rfl
    · exact hreject _
  | sesClear => exact .of_ready hb
  | _ => exact .of_ready (by simpa [commandBody] using hb)

/-- The anchor's ranging step fails, or consumes its complete exchange (R142, R228). -/
theorem exchangeKnown_rangeExchange {s : State} (h : s.tsu.exchMask = 0b111111#6) : ExchangeKnown (rangeExchange s) := by
  obtain ⟨-, he⟩ | ⟨-, -, he⟩ | ⟨-, -, he⟩ := rangeExchange_cases s <;> rw [he]
  · exact .of_ready (busy_raiseErr ..)
  · exact .of_ready (busy_raiseErr ..)
  · refine .of_mask .rangeComputed rfl ?_ rfl
    rw [State.goto_tsu, correctRange_tsu, computeRange_complete h]
    rfl

/-- The exchange bits of the tag's three times (R24, R197). -/
theorem markExch_tagTimes (m : BitVec 6) :
    markExch fsReg (markExch rrReg (markExch psReg m)) = m ||| 0b011001#6 := by
  have h : markExch fsReg (markExch rrReg (markExch psReg m)) = m ||| 0b000001#6 ||| 0b001000#6 ||| 0b010000#6 := rfl
  rw [h, BitVec.or_assoc, BitVec.or_assoc]
  rfl

/-- The exchange bit of `RS` (R24, R225). -/
theorem markExch_rsReg (m : BitVec 6) : markExch rsReg m = m ||| 0b000100#6 := rfl

/-- A write of a timestamp from the port leaves a valid value (R273). -/
theorem validTs_writeT_raw (rd : Reg) (v : Raw40) (s : State) : ValidTs (readT rd (writeT rd (rawValue v) s)) := by
  rw [readT_writeT_same, sat_raw]
  exact validTs_raw v

/-- A new exchange in which `PR` is recorded (R24, R222). -/
theorem markExch_prReg_zero : markExch prReg 0 = 0b000010#6 := by decide

theorem ExchangeKnown.carryOn {u : State} (h : ExchangeKnown u) (hb : u.busy = true) (a : TrxAnswers) :
    ExchangeKnown (carryOn a u) := by
  have hmask := h.mask hb
  have htimes := h.times hb
  cases hf : u.ctl.fsm <;> rw [hf] at hmask htimes
  case awaitingFinal =>
    rw [carryOn_awaitingFinal hf]
    exact exchangeKnown_rangeExchange (exchMask_completedExchange a u (hmask _ rfl))
  all_goals rw [Machine.carryOn, hf]; dsimp only
  case blinkSent => exact .of_untracked .awaitingInitiation rfl rfl
  case awaitingInitiation | nextAnchor => exact .of_mask .pollSent rfl rfl rfl
  case pollSent => exact .of_mask .awaitingResponse rfl (congrArg some (hmask _ rfl).symm) rfl
  case awaitingResponse =>
    refine .of_mask .finalSent rfl (congrArg some ?_) rfl
    exact ((markExch_tagTimes u.tsu.exchMask).trans (by rw [hmask _ rfl]; decide)).symm
  case finalSent => exact .of_mask .awaitingConfirm rfl (congrArg some (hmask _ rfl).symm) rfl
  case awaitingConfirm =>
    split
    · exact .of_mask .nextAnchor rfl (congrArg some (hmask _ rfl).symm) rfl
    · exact .of_ready (State.busy_setBusy false _)
  case awaitingPoll =>
    refine .of_state .responseSent rfl ?_ ?_
    · rintro _ ⟨⟩
      exact markExch_prReg_zero
    · rintro _ ⟨⟩
      · exact validTs_writeT_raw prReg a.rxTime (clearExchange u)
      · contradiction
  case responseSent =>
    refine .of_state .awaitingFinal rfl ?_ ?_
    · rintro _ ⟨⟩
      exact (markExch_rsReg u.tsu.exchMask).trans (by rw [hmask _ rfl]; decide)
    · have htsu : (onResponseSent a u).tsu = (writeT rsReg (rawValue a.txTime) u).tsu := rfl
      intro r hr
      rw [readT_congr htsu]
      obtain rfl | rfl : r = prReg ∨ r = rsReg := by simpa [recordedTimes] using hr
      · rw [readT_writeT_other (by decide)]
        exact htimes prReg (by simp [recordedTimes])
      · exact validTs_writeT_raw rsReg a.txTime u
  case rangeComputed =>
    unfold sendVerdict
    dsimp only
    split
    · exact .of_mask .confirmSent rfl (congrArg some (hmask _ rfl).symm) rfl
    · exact .of_mask .finishedSent rfl (congrArg some (hmask _ rfl).symm) rfl
  case confirmSent | finishedSent | initiationSent => exact .of_ready (State.busy_setBusy false _)
  case awaitingBlink => exact .of_untracked .initiationSent rfl rfl
  case idle | done | failed | admitted => exact h

theorem ExchangeKnown.engineStep {s : State} (h : ExchangeKnown s) (a : TrxAnswers) (hb : s.busy = true) :
    ExchangeKnown (engineStep a s) := by
  obtain ⟨l, he⟩ | ⟨c, d, u, -, -, he⟩ | ⟨u, hj, he⟩ := engineStep_cases (a := a) hb <;> rw [he]
  · exact h.congr rfl rfl rfl
  · exact .of_ready (busy_raiseErr c d u)
  · exact (h.congr hj.busy hj.fsm hj.tsu).carryOn (hj.busy.trans hb) a

theorem preserved_exchangeKnown : Preserved ExchangeKnown where
  outside _ _ _ h := h.congr rfl rfl rfl
  reject s c h := h.congr (State.busy_reject c s) rfl rfl
  reply _ _ h := h.congr rfl rfl rfl
  writeStatus s v h := h.congr (busy_writeStatus v s) rfl rfl
  writeReg _ _ _ _ _ hb hw := by
    obtain ⟨-, -, -, -, -, hstatus, -⟩ := writeReg_some hw
    exact .of_ready ((congrArg (·.getLsbD 0) hstatus).trans hb)
  bufWrite _ _ _ h _ _ := h.congr rfl rfl rfl
  command _ i _ hb := exchangeKnown_commandBody i hb
  session _ a h hb := h.engineStep a hb
  reset _ := .of_ready ((busy_congr (s := State.reset) rfl).trans (by decide))

/-- Settles O57: a session starts in a state that requires no mask, each step of one leaves the mask and the times that
the next state requires, and the host cannot write either while it runs. -/
theorem exchangeStaysTracked : Obligations.ExchangeStaysTracked := by
  unfold Obligations.ExchangeStaysTracked
  intro s t hmask htimes hstep
  exact (exchangeKnown_iff t).1 (preserved_exchangeKnown.step ((exchangeKnown_iff s).2 ⟨hmask, htimes⟩) hstep)

end Sys2Proof.Machine
end

section
/-! The statements of the family `43_session_tag.md` about single steps: the start of the tag's session (O29), what a
transmit wait does when the transmission is done (O39), the frames the tag accepts (O40, O41, O42), the internal states
(O46) and the frames that are refused (O50). What a step with a presented frame does is `engineStep_presented`, and what
the hand-over of an encoded frame leaves is `sentFrame`. -/

namespace Sys2Proof.Machine

/-! ### A presented frame -/

/-- The wait state that expects a frame of this kind (R193, R197, R199, R222, R227, R241). -/
def awaitingState : Kind → FsmState
  | .blink => .awaitingBlink
  | .rinit => .awaitingInitiation
  | .poll => .awaitingPoll
  | .resp => .awaitingResponse
  | .final => .awaitingFinal
  | .confirm | .finished => .awaitingConfirm

theorem mem_expectedKinds_iff (k : Kind) (f : FsmState) : k ∈ expectedKinds f ↔ f = awaitingState k := by
  cases k <;> cases f <;> simp [expectedKinds, awaitingState]

/-- What a wait state does with a decoded frame of the kind (R193, R197, R199, R222, R227, R241). -/
def acceptFrame (k : Kind) (a : TrxAnswers) (s : State) : State :=
  match k with
  | .blink => acceptBlink s
  | .rinit => acceptInitiation s
  | .poll => acceptPoll a s
  | .resp => acceptResponse a s
  | .final => acceptFinal a s
  | .confirm | .finished => acceptConfirm s

/-- A wait state to which a frame of its kind is presented judges the fields of that frame (R262, R176). -/
theorem engineStep_presented {s : State} {a : TrxAnswers} {x : Tx} {k : Kind} (hb : s.busy = true)
    (hf : s.ctl.fsm = awaitingState k) (hc : buffersCanonical s = true) (hp : Presents s a x k) :
    engineStep a s = acceptFrame k a (acceptedFrame a x k s) := by
  have ⟨hfault, hdone, _⟩ := hp
  have hwait : s.ctl.fsm ∈ receiveWaits := by rw [hf]; cases k <;> decide
  have hfsm : (heardFrame a s).ctl.fsm = awaitingState k := hf
  rw [engineStep_frame hb hwait hfault hdone, onReceiveDone, hfsm]
  cases k
  case confirm => simp only [awaitingState, onConfirm, decodeEither_heardFrame (.inl rfl) hc hp]; rfl
  case finished => simp only [awaitingState, onConfirm, decodeEither_heardFrame (.inr rfl) hc hp]; rfl
  all_goals
    simp only [awaitingState, onInitiation, onResponse, onPoll, onFinal, onBlink, decodeFrame_heardFrame hc hp]
    rfl

/-- The address test of R197, R199 and R227 passes. -/
theorem addresses_match {dst own src peer : BitVec 16} (hdst : dst = own) (hsrc : src = peer) :
    ¬ (dst ≠ own ∨ src ≠ peer) := by simp [hdst, hsrc]

/-! ### A refused frame -/

/-- The end of a session whose presented frame decoded but does not fit (R267): the error `d`, found with the call `c`. -/
def refusedFrame (d : ErrDetail) (c : TrxCall) (a : TrxAnswers) (x : Tx) (k : Kind) (s : State) : State :=
  raiseErr .protocolViolation d ((acceptedFrame a x k s).call c)

theorem refusedFrame_effect (d : ErrDetail) (c : TrxCall) {a : TrxAnswers} {x : Tx} {k : Kind} {s : State}
    (hc : buffersCanonical s = true) :
    FailedWith .protocolViolation d s (refusedFrame d c a x k s) ∧
      FailedQuietly ([.isHardwareFault, .isReceiveDone, .getReceivedFrame] ++ [c]) s (refusedFrame d c a x k s) ∧
      Heard x k a s (refusedFrame d c a x k s) ∧ StatusKept [0, 6] s (refusedFrame d c a x k s) := by
  have hcalls : ((acceptedFrame a x k s).call c).calls =
      s.calls ++ ([.isHardwareFault, .isReceiveDone, .getReceivedFrame] ++ [c]) := by
    simp [acceptedFrame]
  obtain ⟨-, hstatus⟩ := heard_acceptedFrame (t := (acceptedFrame a x k s).call c) hc rfl rfl
  exact ⟨failedWith_raiseErr _ _ rfl rfl,
    failedQuietly_raiseErr _ _ hcalls rfl rfl rfl rfl rfl rfl rfl rfl rfl rfl rfl,
    heard_raiseErr _ _ hc rfl rfl, statusKept_raiseErr _ _ hstatus⟩

/-- A wait state whose tests refuse the fields of the presented frame. -/
theorem engineStep_refused {s : State} {a : TrxAnswers} {x : Tx} {k : Kind} {d : ErrDetail} {c : TrxCall}
    (hb : s.busy = true) (hf : s.ctl.fsm = awaitingState k) (hc : buffersCanonical s = true) (hp : Presents s a x k)
    (h : acceptFrame k a (acceptedFrame a x k s) = refusedFrame d c a x k s) :
    FailedWith .protocolViolation d s (engineStep a s) ∧
      FailedQuietly ([.isHardwareFault, .isReceiveDone, .getReceivedFrame] ++ [c]) s (engineStep a s) ∧
      Heard x k a s (engineStep a s) ∧ StatusKept [0, 6] s (engineStep a s) := by
  rw [engineStep_presented hb hf hc hp, h]
  exact refusedFrame_effect d c hc

/-- Settles O50: each rule's tests of the fields, in their order, end in `refusedFrame`. -/
theorem wrongAddressFails : Obligations.WrongAddressFails := by
  unfold Obligations.WrongAddressFails
  intro s a x k hb hc hp hk
  have hf := (mem_expectedKinds_iff k _).1 hk
  refine ⟨?_, ?_, ?_, ?_, ?_⟩
  · rintro rfl heui
    exact engineStep_refused hb hf hc hp (if_pos heui)
  · rintro rfl hdst
    exact engineStep_refused hb hf hc hp (if_pos hdst)
  · rintro (rfl | rfl | rfl) haddr <;> exact engineStep_refused hb hf hc hp (if_pos haddr)
  · rintro rfl haddr
    exact engineStep_refused hb hf hc hp (if_pos haddr)
  · rintro rfl hdst hsrc hact
    exact engineStep_refused hb hf hc hp ((if_neg (addresses_match hdst hsrc)).trans (if_pos hact))

/-! ### A frame that is sent -/

/-- `v` after the frame of kind `k` is encoded from the field registers `x` and handed to the transceiver by the operation
`send`, and the session has gone on to `f` (R170, R172). -/
def sentFrame (send : List Octet → TrxCall) (k : Kind) (x : Tx) (f : FsmState) (v : State) : State :=
  { v with
    ctl := { v.ctl with fsm := f }
    tx := (encodeFrame k { v with tx := x }).tx
    calls := v.calls ++ [send (frameOf v.params x k)] }

section
variable {k : Kind} {x : Tx} (f : FsmState) {v : State} (hw : Memory.wf x.buf = true)
include hw

theorem transmit_goto_eq_sentFrame :
    (transmit (encodeFrame k { v with tx := x })).goto f = sentFrame .transmit k x f v := by
  rw [transmit_encodeFrame hw]
  rfl

theorem transmitDelayed_goto_eq_sentFrame (fut : Raw40) :
    (transmitDelayed fut (encodeFrame k { v with tx := x })).goto f = sentFrame (.transmitDelayed · fut) k x f v := by
  rw [transmitDelayed_encodeFrame fut hw]
  rfl

end

theorem encoded_sentFrame {send : List Octet → TrxCall} {k : Kind} {x : Tx} {f : FsmState} {s v : State}
    (hp : v.params = s.params) (hbuf : x.buf = s.tx.buf) (hw : Memory.wf s.tx.buf = true) :
    Encoded x k s (sentFrame send k x f v) :=
  encoded_of_tx (encoded_encodeFrame (u := { v with tx := x }) rfl hp hbuf hw) rfl

/-- A session step has left all that `WentTo` names but the calls and `FSM_STATE`. -/
theorem wentTo_sentFrame {send : List Octet → TrxCall} {k : Kind} {x : Tx} {f g : FsmState} {calls : List TrxCall}
    {s v : State} (h : WentTo g calls s v) :
    WentTo f (calls ++ [send (frameOf s.params x k)]) s (sentFrame send k x f v) where
  fsm := rfl
  err := h.err
  ctrl := h.ctrl
  cmdErrCode := h.cmdErrCode
  calls := by
    rw [← List.append_assoc, ← h.calls, ← h.params]
    rfl
  params := h.params
  sched := h.sched
  replies := h.replies
  free := h.free

/-- One more call of the port. -/
theorem WentTo.call {g : FsmState} {calls : List TrxCall} {s v : State} (h : WentTo g calls s v) (c : TrxCall) :
    WentTo g (calls ++ [c]) s (v.call c) where
  fsm := h.fsm
  err := h.err
  ctrl := h.ctrl
  cmdErrCode := h.cmdErrCode
  calls := by rw [State.call_calls, h.calls, List.append_assoc]
  params := h.params
  sched := h.sched
  replies := h.replies
  free := h.free

theorem WentTo.clearExchange {g : FsmState} {calls : List TrxCall} {s v : State} (h : WentTo g calls s v) :
    WentTo g calls s (clearExchange v) :=
  ⟨h.fsm, h.err, h.ctrl, h.cmdErrCode, h.calls, h.params, h.sched, h.replies, h.free⟩

/-- A timestamp from the port fits its register, so the control registers stay as they are (R121). -/
theorem WentTo.writeT_raw {g : FsmState} {calls : List TrxCall} {s v : State} (h : WentTo g calls s v) (rd : Reg)
    (t : Raw40) : WentTo g calls s (writeT rd (rawValue t) v) := by
  rw [writeT_fits (fits_raw t)]
  exact ⟨h.fsm, h.err, h.ctrl, h.cmdErrCode, h.calls, h.params, h.sched, h.replies, h.free⟩

theorem wentTo_startListening {f g : FsmState} {calls : List TrxCall} {s v : State} (h : WentTo g calls s v) :
    WentTo f (calls ++ [.startReceive]) s (startListening f v) :=
  { h.call .startReceive with fsm := rfl }

theorem wentTo_refl (s : State) : WentTo s.ctl.fsm [] s s :=
  ⟨rfl, rfl, rfl, rfl, (List.append_nil _).symm, rfl, rfl, rfl, rfl⟩

/-- A step that carries on from an accepted frame has made the three polls (R262). -/
theorem wentTo_acceptedFrame (a : TrxAnswers) (x : Tx) (k : Kind) (s : State) :
    WentTo s.ctl.fsm [.isHardwareFault, .isReceiveDone, .getReceivedFrame] s (acceptedFrame a x k s) :=
  ⟨rfl, rfl, rfl, rfl, rfl, rfl, rfl, rfl, rfl⟩

/-- `send_poll()` (R194): the exchange is cleared, then the Poll is sent to `ANCHOR_ADDR`. -/
theorem sendPoll_eq {u : State} (hw : Memory.wf u.tx.buf = true) :
    sendPoll u = sentFrame .transmit .poll { u.tx with dst := u.ses.anchorAddr, src := u.trx.shortAddr } .pollSent
      ((clearExchange u).call .getOwnShortAddress) :=
  transmit_goto_eq_sentFrame .pollSent (v := (clearExchange u).call .getOwnShortAddress) hw

/-- What `send_poll()` does to the exchange and the operand registers. -/
theorem sendPoll_tsu (u : State) : (sendPoll u).tsu = (clearExchange u).tsu := rfl

/-- The anchor's verdict with `CTRL.POLICY` = 1 (R230). -/
theorem sendVerdict_confirm {u : State} (hpolicy : u.policy = true) (hw : Memory.wf u.tx.buf = true) :
    sendVerdict u = sentFrame .transmit .confirm
      { u.tx with dst := u.ses.peerAddr, src := u.trx.shortAddr, arg := u.ses.nextAnchor } .confirmSent
      (u.call .getOwnShortAddress) :=
  (if_pos hpolicy).trans (transmit_goto_eq_sentFrame .confirmSent (v := u.call .getOwnShortAddress) hw)

/-- The anchor's verdict with `CTRL.POLICY` = 0 (R230). -/
theorem sendVerdict_finished {u : State} (hpolicy : ¬ u.policy = true) (hw : Memory.wf u.tx.buf = true) :
    sendVerdict u = sentFrame .transmit .finished
      { u.tx with dst := u.ses.peerAddr, src := u.trx.shortAddr, arg := u.ses.blinkSuggest } .finishedSent
      (u.call .getOwnShortAddress) :=
  (if_neg hpolicy).trans (transmit_goto_eq_sentFrame .finishedSent (v := u.call .getOwnShortAddress) hw)

/-! ### The start of the tag's session -/

/-- The state in which `SES.TAG` encodes its Blink (R190). -/
def tagStarting (s : State) : State :=
  loadOwnEui (State.setBusy true { s.clearErr with ses := { s.ses with exchCount := 0 } })

theorem startTag_eq {s : State} (hw : Memory.wf s.tx.buf = true) :
    startTag s = sentFrame .transmit .blink { s.tx with eui := s.trx.eui } .blinkSent (tagStarting s) :=
  transmit_goto_eq_sentFrame .blinkSent (v := tagStarting s) hw

/-- Settles O29: an accepted `SES.TAG` is `startTag`, which sends the Blink. -/
theorem sesTagStarts : Obligations.SesTagStarts := by
  unfold Obligations.SesTagStarts
  refine ⟨decode_wordOf (rd := 0) (ra := 0) (rb := 0) rfl rfl, fun s hb hf hc => ⟨_, exec_sesTag hb hf, ?_⟩⟩
  obtain ⟨hw, -⟩ := (canonical_iff s).1 hc
  have hbusy := busy_startTag s
  rw [startTag_eq hw] at hbusy ⊢
  refine ⟨rfl, hbusy, (statusKept_refl s).setStatusBit 0 true, rfl, rfl, rfl, rfl, encoded_sentFrame rfl rfl hw, ?_,
    rfl, rfl, rfl, rfl, rfl, rfl, rfl, rfl⟩
  simp [sentFrame, tagStarting, loadOwnEui]

/-! ### The internal states -/

theorem engineStep_nextAnchor {s : State} (a : TrxAnswers) (hb : s.busy = true) (hf : s.ctl.fsm = .nextAnchor) :
    engineStep a s = sendPoll s := by
  simp [engineStep, hb, hf, FsmState.kind, internalStep]

theorem engineStep_rangeComputed {s : State} (a : TrxAnswers) (hb : s.busy = true) (hf : s.ctl.fsm = .rangeComputed) :
    engineStep a s = sendVerdict s := by
  simp [engineStep, hb, hf, FsmState.kind, internalStep]

/-- Settles O46: an internal state sends its frame at once, with no poll before. -/
theorem internalSteps : Obligations.InternalSteps := by
  unfold Obligations.InternalSteps
  intro s a hb hc
  obtain ⟨hw, -⟩ := (canonical_iff s).1 hc
  have hcall := (wentTo_refl s).call .getOwnShortAddress
  refine ⟨fun hf => ?_, fun hf hpolicy => ?_, fun hf hpolicy => ?_⟩
  · have hcleared : (engineStep a s).tsu = (clearExchange s).tsu := by rw [engineStep_nextAnchor a hb hf, sendPoll_tsu]
    have hoperands : OperandsKept s (engineStep a s) := by constructor <;> rw [hcleared] <;> rfl
    refine ⟨?_, exchangeCleared_of_tsu hcleared, timestampsKept_of_tsu hcleared, hoperands, ?_⟩ <;>
      rw [engineStep_nextAnchor a hb hf, sendPoll_eq hw]
    · exact wentTo_sentFrame ((wentTo_refl s).clearExchange.call .getOwnShortAddress)
    · exact ⟨encoded_sentFrame rfl rfl hw, rfl, rfl, rfl, rfl, rfl⟩
  · rw [engineStep_rangeComputed a hb hf, sendVerdict_confirm hpolicy hw]
    exact ⟨wentTo_sentFrame hcall, encoded_sentFrame rfl rfl hw, rfl, rfl, rfl, rfl, rfl, rfl⟩
  · rw [engineStep_rangeComputed a hb hf, sendVerdict_finished (by simp [hpolicy]) hw]
    exact ⟨wentTo_sentFrame hcall, encoded_sentFrame rfl rfl hw, rfl, rfl, rfl, rfl, rfl, rfl⟩

/-! ### The transmit waits -/

/-- Settles O39: after the two polls the state's own rule runs; only `ResponseSent` writes a timestamp, and it fits. -/
theorem transmitDoneSteps : Obligations.TransmitDoneSteps := by
  unfold Obligations.TransmitDoneSteps
  intro s a hb hfault hdone
  have hrule {f : FsmState} (hf : s.ctl.fsm = f) (hwait : f ∈ transmitWaits) :
      engineStep a s = onTransmitDone a ((s.call .isHardwareFault).call .isTransmitDone) :=
    engineStep_done hb (hf ▸ hwait) hfault hdone
  refine ⟨fun f g hfg hf => ?_, fun hf => ?_, fun hf => ?_, fun hf => ?_⟩
  · simp only [List.mem_cons, Prod.mk.injEq, List.not_mem_nil, or_false] at hfg
    obtain ⟨rfl, rfl⟩ | ⟨rfl, rfl⟩ | ⟨rfl, rfl⟩ := hfg <;>
      simp [hrule hf (by decide), onTransmitDone, hf, startListening, State.call, State.goto]
  · obtain hf | hf := hf <;>
      simp [hrule hf (by decide), onTransmitDone, hf, finishAnchor, State.call, State.setResult, State.setBusy,
        State.setStatusBit, setBit_false_zero]
  · simp [hrule hf (by decide), onTransmitDone, hf, finishAdmit, State.call, State.goto, State.setBusy,
      State.setStatusBit, setBit_false_zero]
  · have hpolled := ((wentTo_refl s).call .isHardwareFault).call .isTransmitDone
    have hstep : engineStep a s = onResponseSent a ((s.call .isHardwareFault).call .isTransmitDone) := by
      simp [hrule hf (by decide), onTransmitDone, hf]
    have htsu : (engineStep a s).tsu = (writeT rsReg (rawValue a.txTime) s).tsu := by rw [hstep]; rfl
    have hread (r : Reg) : readT r (engineStep a s) = if r = rsReg then (a.txTime.toNat : Int) else readT r s := by
      rw [readT_congr htsu, readT_writeT, sat_raw]
    refine ⟨?_, (hread 10).trans (if_pos rfl), fun r hr => (hread r).trans (if_neg (List.ne_of_not_mem_cons hr)),
      ?_, ?_, ?_⟩
    · rw [hstep]
      exact wentTo_startListening ((hpolled.call .getTransmitTimestamp).writeT_raw rsReg a.txTime)
    · rw [htsu]
      exact markExch_rsReg _
    · constructor <;> rw [htsu] <;> rfl
    · rw [hstep]
      exact ⟨status_writeT_of_fits (fits_raw _) rsReg _, rfl, rfl, rfl, rfl, rfl⟩

/-! ### The accepted RangingInitiation -/

/-- The tag in `AwaitingInitiation`, with the address that the accepted frame assigns (R193). -/
def tagAddressed (u : State) : State :=
  { setOwnShortAddress u.rx.arg (u.call .getOwnExtendedIdentifier) with ses := { u.ses with anchorAddr := u.rx.src } }

theorem engineStep_initiation {s : State} {a : TrxAnswers} {x : Tx} (hb : s.busy = true)
    (hf : s.ctl.fsm = .awaitingInitiation) (hc : buffersCanonical s = true) (hp : Presents s a x .rinit)
    (heui : x.eui = s.trx.eui) : engineStep a s = sendPoll (tagAddressed (acceptedFrame a x .rinit s)) := by
  rw [engineStep_presented (k := .rinit) hb hf hc hp]
  exact if_neg (not_not.2 heui)

theorem wentTo_tagAddressed {g : FsmState} {calls : List TrxCall} {s u : State} (h : WentTo g calls s u) :
    WentTo g (calls ++ [.getOwnExtendedIdentifier] ++ [.setOwnShortAddress u.rx.arg]) s (tagAddressed u) :=
  have h' := (h.call .getOwnExtendedIdentifier).call (.setOwnShortAddress u.rx.arg)
  ⟨h'.fsm, h'.err, h'.ctrl, h'.cmdErrCode, h'.calls, h'.params, h'.sched, h'.replies, h'.free⟩

/-- Settles O40: the step is `send_poll()` in the state `tagAddressed`. -/
theorem initiationAccepted : Obligations.InitiationAccepted := by
  unfold Obligations.InitiationAccepted
  intro s a x hb hf hc hp heui
  obtain ⟨hw, -⟩ := (canonical_iff s).1 hc
  have hstep := engineStep_initiation hb hf hc hp heui
  have hcleared : (engineStep a s).tsu = (clearExchange s).tsu := by rw [hstep]; rfl
  have hoperands : OperandsKept s (engineStep a s) := by constructor <;> rw [hcleared] <;> rfl
  obtain ⟨hheard, hstatus⟩ := heard_acceptedFrame (t := engineStep a s) (a := a) (x := x) (k := .rinit) hc
    (by rw [hstep]; rfl) (by rw [hstep]; rfl)
  refine ⟨?_, hheard, hstatus, ?_, ?_, exchangeCleared_of_tsu hcleared, timestampsKept_of_tsu hcleared, hoperands,
    ?_⟩ <;> rw [hstep]
  · rw [sendPoll_eq (u := tagAddressed (acceptedFrame a x .rinit s)) hw]
    have haddressed := wentTo_tagAddressed (wentTo_acceptedFrame a x .rinit s)
    exact wentTo_sentFrame (haddressed.clearExchange.call .getOwnShortAddress)
  · rfl
  · rfl
  · rw [sendPoll_eq (u := tagAddressed (acceptedFrame a x .rinit s)) hw]
    exact ⟨encoded_sentFrame rfl rfl hw, rfl⟩

/-! ### The accepted ResponseToPoll -/

theorem readT_call (r : Reg) (c : TrxCall) (s : State) : readT r (s.call c) = readT r s := rfl

theorem readT_recordTagTimes (a : TrxAnswers) (fut : Raw40) (s : State) (r : Reg) :
    readT r (recordTagTimes a fut s) =
      if r = fsReg then (fut.toNat : Int)
      else if r = rrReg then (a.rxTime.toNat : Int)
      else if r = psReg then (a.txTime.toNat : Int) else readT r s := by
  simp only [recordTagTimes, readT_writeT, readT_call, sat_raw]

/-- The tag's three times fit their registers, so besides the exchange only the record of calls changes (R197). -/
theorem recordTagTimes_eq (a : TrxAnswers) (fut : Raw40) (s : State) :
    recordTagTimes a fut s = { s with
      tsu := { s.tsu with
        tregs := (recordTagTimes a fut s).tsu.tregs
        exchMask := s.tsu.exchMask ||| 0b011001#6 }
      calls := s.calls ++ [.getTransmitTimestamp, .getReceiveTimestamp, .getSystemTimestamp] } := by
  rw [← markExch_tagTimes]
  simp only [recordTagTimes, writeT_fits (fits_raw _), State.call, List.append_assoc]
  rfl

/-- The low 32 bits of a register that holds a time from the port (R197). -/
theorem setWidth_of_readT {r : Reg} {s : State} {v : Raw40} (h : readT r s = v.toNat) :
    (s.tsu.tregs[r]).setWidth 32 = BitVec.ofNat 32 v.toNat := by
  apply BitVec.eq_of_toNat_eq
  have hlow := toNat_setWidth_eq_toInt_emod (n := 32) (by decide) s.tsu.tregs[r]
  have hvalue : (s.tsu.tregs[r]).toInt = v.toNat := h
  rw [hvalue] at hlow
  rw [BitVec.toNat_ofNat]
  exact_mod_cast hlow

/-- The field registers of the FinalMessage (R197): the addresses and the three times modulo 2^32. -/
def finalFields (a : TrxAnswers) (fut : Raw40) (s : State) : Tx :=
  { s.tx with
    dst := s.ses.anchorAddr, src := s.trx.shortAddr, ts0 := BitVec.ofNat 32 a.txTime.toNat
    ts1 := BitVec.ofNat 32 a.rxTime.toNat, ts2 := BitVec.ofNat 32 fut.toNat }

theorem loadFinalFields_eq (a : TrxAnswers) (fut : Raw40) (s : State) :
    loadFinalFields s.trx.shortAddr (recordTagTimes a fut s) =
      { recordTagTimes a fut s with tx := finalFields a fut s } := by
  have hps := setWidth_of_readT (v := a.txTime) (readT_recordTagTimes a fut s psReg)
  have hrr := setWidth_of_readT (v := a.rxTime) (readT_recordTagTimes a fut s rrReg)
  have hfs := setWidth_of_readT (v := fut) (readT_recordTagTimes a fut s fsReg)
  rw [loadFinalFields, hps, hrr, hfs]
  rfl

/-- The FinalMessage of the tag is encoded with the recorded times and scheduled at `fut` (R197). -/
theorem scheduleFinal_eq (a : TrxAnswers) (fut : Raw40) {s : State} (hw : Memory.wf s.tx.buf = true) :
    (transmitDelayed fut
      (encodeFrame .final (loadFinalFields s.trx.shortAddr (recordTagTimes a fut s)))).goto .finalSent =
      sentFrame (.transmitDelayed · fut) .final (finalFields a fut s) .finalSent (recordTagTimes a fut s) := by
  rw [loadFinalFields_eq]
  exact transmitDelayed_goto_eq_sentFrame .finalSent (x := finalFields a fut s) (v := recordTagTimes a fut s) hw fut

theorem engineStep_response {s : State} {a : TrxAnswers} {x : Tx} (hb : s.busy = true)
    (hf : s.ctl.fsm = .awaitingResponse) (hc : buffersCanonical s = true) (hp : Presents s a x .resp)
    (hdst : x.dst = s.trx.shortAddr) (hsrc : x.src = s.ses.anchorAddr) (hact : x.act = s.params.actContinue) :
    engineStep a s = sentFrame (.transmitDelayed · (a.sysTime + s.ses.replyDelay)) .final
      (finalFields a (a.sysTime + s.ses.replyDelay) s) .finalSent
      (recordTagTimes a (a.sysTime + s.ses.replyDelay) ((acceptedFrame a x .resp s).call .getOwnShortAddress)) := by
  obtain ⟨hw, -⟩ := (canonical_iff s).1 hc
  rw [engineStep_presented (k := .resp) hb hf hc hp]
  exact ((if_neg (addresses_match hdst hsrc)).trans (if_neg (not_not.2 hact))).trans
    (scheduleFinal_eq a _ (s := (acceptedFrame a x .resp s).call .getOwnShortAddress) hw)

theorem wentTo_recordTagTimes {g : FsmState} {calls : List TrxCall} {s v : State} (h : WentTo g calls s v)
    (a : TrxAnswers) (fut : Raw40) :
    WentTo g (calls ++ [.getTransmitTimestamp] ++ [.getReceiveTimestamp] ++ [.getSystemTimestamp]) s
      (recordTagTimes a fut v) :=
  ((((((h.call _).writeT_raw _ _).call _).writeT_raw _ _).call _).writeT_raw _ _)

/-- Settles O41: the step is the FinalMessage sent in the state `recordTagTimes` leaves. -/
theorem responseAccepted : Obligations.ResponseAccepted := by
  unfold Obligations.ResponseAccepted
  intro s a x hb hf hc hp hdst hsrc hact
  obtain ⟨hw, -⟩ := (canonical_iff s).1 hc
  have hstep := engineStep_response hb hf hc hp hdst hsrc hact
  have hfut : (a.sysTime.toNat + s.ses.replyDelay.toNat) % 2 ^ 40 = (a.sysTime + s.ses.replyDelay).toNat :=
    (BitVec.toNat_add ..).symm
  dsimp only
  rw [hfut]
  generalize a.sysTime + s.ses.replyDelay = fut at hstep ⊢
  have hfut' : BitVec.ofNat 40 fut.toNat = fut := by simp
  rw [hfut']
  have hrecord := recordTagTimes_eq a fut ((acceptedFrame a x .resp s).call .getOwnShortAddress)
  have htsu : (engineStep a s).tsu = (recordTagTimes a fut s).tsu := by rw [hstep]; rfl
  have hread (r : Reg) := (readT_congr htsu r).trans (readT_recordTagTimes a fut s r)
  obtain ⟨hheard, hstatus⟩ := heard_acceptedFrame (t := engineStep a s) (a := a) (x := x) (k := .resp) hc
    (by rw [hstep]; rfl) (by rw [hstep, hrecord]; rfl)
  refine ⟨?_, hheard, hstatus, hread 8, hread 11, hread 12, ?_, ?_, ?_, ?_⟩
  · rw [hstep]
    exact wentTo_sentFrame (send := (.transmitDelayed · fut)) (x := finalFields a fut s)
      (wentTo_recordTagTimes ((wentTo_acceptedFrame a x .resp s).call .getOwnShortAddress) a fut)
  · intro r hr
    simp only [List.mem_cons, List.not_mem_nil, or_false, not_or] at hr
    obtain ⟨h8, h11, h12⟩ := hr
    rw [hread, fsReg, rrReg, psReg, if_neg h12, if_neg h11, if_neg h8]
  · rw [htsu, recordTagTimes_eq]
  · constructor <;> rw [htsu] <;> rfl
  · rw [hstep]
    exact ⟨encoded_sentFrame (x := finalFields a fut s) rfl rfl hw, rfl, rfl, rfl⟩

/-! ### The accepted RangingConfirm and ActivityFinished -/

/-- `EXCH_COUNT` counts up and stops at 255 (R199). -/
theorem countExchange_eq (s : State) :
    countExchange s =
      { s with ses := { s.ses with exchCount := BitVec.ofNat 8 (min (s.ses.exchCount.toNat + 1) 255) } } := by
  have hcount : (if s.ses.exchCount = 255#8 then 255#8 else s.ses.exchCount + 1) =
      BitVec.ofNat 8 (min (s.ses.exchCount.toNat + 1) 255) := by
    have := s.ses.exchCount.isLt
    apply BitVec.eq_of_toNat_eq
    split
    · simp [*]
    · have : s.ses.exchCount.toNat ≠ 255 := fun h => ‹¬ _› (BitVec.eq_of_toNat_eq h)
      simp only [BitVec.toNat_add, BitVec.ofNat_eq_ofNat, BitVec.toNat_ofNat]
      omega
  rw [countExchange, hcount]

section
variable {s : State} {a : TrxAnswers} {x : Tx} (hb : s.busy = true) (hf : s.ctl.fsm = .awaitingConfirm)
  (hc : buffersCanonical s = true) (hdst : x.dst = s.trx.shortAddr) (hsrc : x.src = s.ses.anchorAddr)
include hb hf hc hdst hsrc

theorem engineStep_confirm (hp : Presents s a x .confirm) :
    engineStep a s = chainToNext (countExchange ((acceptedFrame a x .confirm s).call .getOwnShortAddress)) := by
  rw [engineStep_presented (k := .confirm) hb hf hc hp]
  exact (if_neg (addresses_match hdst hsrc)).trans (if_pos rfl)

theorem engineStep_finished (hp : Presents s a x .finished) :
    engineStep a s = finishTag (countExchange ((acceptedFrame a x .finished s).call .getOwnShortAddress)) := by
  rw [engineStep_presented (k := .finished) hb hf hc hp]
  exact (if_neg (addresses_match hdst hsrc)).trans (if_neg s.params.confirm_ne_finished.symm)

end

/-- Settles O42: the two frames are told apart by their function codes, which differ (R11). -/
theorem confirmAccepted : Obligations.ConfirmAccepted := by
  unfold Obligations.ConfirmAccepted
  intro s a x hb hf hc hdst hsrc
  refine ⟨fun hp => ?_, fun hp => ?_⟩
  · have hcalled := (wentTo_acceptedFrame a x .confirm s).call .getOwnShortAddress
    have hstep := engineStep_confirm hb hf hc hdst hsrc hp
    rw [countExchange_eq] at hstep
    obtain ⟨hheard, hstatus⟩ := heard_acceptedFrame (t := engineStep a s) (a := a) (x := x) (k := .confirm) hc
      (by rw [hstep]; rfl) (by rw [hstep]; rfl)
    refine ⟨?_, hheard, hstatus, ?_⟩ <;> rw [hstep]
    · exact ⟨rfl, rfl, rfl, rfl, hcalled.calls, rfl, rfl, rfl, rfl⟩
    · exact ⟨rfl, rfl, rfl, rfl, rfl⟩
  · have hcalled := (wentTo_acceptedFrame a x .finished s).call .getOwnShortAddress
    have hstep := engineStep_finished hb hf hc hdst hsrc hp
    rw [countExchange_eq] at hstep
    obtain ⟨hheard, hstatus⟩ := heard_acceptedFrame (t := acceptedFrame a x .finished s) hc rfl rfl
    have hend : StatusKept [0, 6] s (engineStep a s) := by
      rw [hstep]
      exact hstatus.setStatusBit 0 false
    have hdec : (engineStep a s).decOk = (acceptedFrame a x .finished s).decOk := by
      rw [hstep]
      exact (statusKept_refl _).setStatusBit 0 false 6 (by decide)
    refine ⟨?_, hheard.congr (by rw [hstep]; rfl) hdec, hend, ?_⟩ <;> rw [hstep]
    · exact ⟨rfl, rfl, rfl, rfl, hcalled.calls, rfl, rfl, rfl, rfl⟩
    · exact ⟨State.busy_setBusy false _, rfl, rfl, rfl, rfl, rfl⟩

end Sys2Proof.Machine
end

section
/-! The statements of the family `44_session_anchor.md`: no running session reports `DIFF_INVALID` (O54), the start of the
anchor's two sessions (O30, O31), the frames with which they take up a tag (O43, O47), what the 32-bit fields of the
FinalMessage lose (O45) and the way back to `Idle` (O32). What the anchor's ranging step leaves for valid legs is
`RangeSound`. -/

namespace Sys2Proof.Machine

/-! ### A session never reports `DIFF_INVALID` -/

theorem getLsbD_rangeStatus_rangeExchange (e : State) {i : Nat} (hi : i < 4) :
    (rangeExchange e).rmu.rangeStatus.getLsbD i = (computeRange e).rmu.rangeStatus.getLsbD i := by
  obtain ⟨-, he⟩ | ⟨-, -, he⟩ | ⟨-, -, he⟩ := rangeExchange_cases e <;> rw [he]
  · rw [raiseErr_rmu]
  · rw [raiseErr_rmu]
  · obtain ⟨high, low, clamped, hcorrected, -⟩ := rangeStatus_correctRange (computeRange e)
    rw [State.goto_rmu, hcorrected, getLsbD_rsCorrected, if_pos hi]

/-- What the anchor's ranging step leaves when the exchange of `e` was complete and its legs valid (R229): no
`DIFF_INVALID` of its own, and neither `INCOMPLETE` nor `INVALID`. -/
structure RangeSound (e t : State) : Prop where
  detail : e.ctl.err.detail ≠ .diffInvalid → t.ctl.err.detail ≠ .diffInvalid
  incomplete : t.rmu.rangeStatus.getLsbD 1 = false
  invalid : t.rmu.rangeStatus.getLsbD 2 = false

theorem rangeSound_rangeExchange {e : State} (hmask : e.tsu.exchMask = 0b111111#6)
    (hlegs : legsValid (exchangeLegs e) = true) : RangeSound e (rangeExchange e) where
  detail hdetail := by
    by_cases hd : tofDenominator (exchangeLegs e) = 0
    · rw [rangeExchange_divZero hmask hlegs hd, raiseErr_err]
      exact nofun
    · rw [rangeExchange_computed hmask hlegs hd]
      have hctl := (computeKept_computeRange hmask).ctl
      exact (congrArg (·.err.detail) hctl).trans_ne hdetail
  incomplete := by
    rw [getLsbD_rangeStatus_rangeExchange e (by decide), rangeStatus_computeRange, if_pos hmask, if_pos hlegs]
    split <;> decide
  invalid := by
    rw [getLsbD_rangeStatus_rangeExchange e (by decide)]
    exact rangeInvalid_computeRange hmask hlegs

/-- The mask and the recorded times of `AwaitingFinal` are what a sound range needs (R225, R229). -/
theorem ExchangeKnown.rangeSound {u : State} (h : ExchangeKnown u) (hb : u.busy = true)
    (hf : u.ctl.fsm = .awaitingFinal) (a : TrxAnswers) : RangeSound u (Machine.carryOn a u) := by
  have hmask : u.tsu.exchMask = 0b000110#6 := h.mask hb _ (by rw [hf]; rfl)
  have htimes (r : Reg) (hr : r ∈ [prReg, rsReg]) : ValidTs (readT r u) := h.times hb r (by rw [hf]; exact hr)
  have hlegs := legsValid_completedExchange a u (htimes 9 (by decide)) (htimes 10 (by decide))
  have hsound := rangeSound_rangeExchange (exchMask_completedExchange a u hmask) hlegs
  have hctl : (completedExchange a u).ctl = u.ctl := by rw [completedExchange_eq]
  rw [carryOn_awaitingFinal hf]
  exact ⟨hctl ▸ hsound.detail, hsound.incomplete, hsound.invalid⟩

/-- Only the anchor's ranging step writes `ERR` in a step that carries on. -/
theorem err_carryOn (a : TrxAnswers) {u : State} (hf : u.ctl.fsm ≠ .awaitingFinal) :
    (carryOn a u).ctl.err = u.ctl.err := by
  rw [ctl_carryOn a u hf]
  cases u.ctl.fsm
  case awaitingConfirm => dsimp only; split <;> rfl
  all_goals rfl

/-- A step's own tests never raise `DIFF_INVALID` (R260). -/
theorem StepFailure.detail_ne_diffInvalid {c : ErrClass} {d : ErrDetail} (h : StepFailure c d) : d ≠ .diffInvalid := by
  obtain ⟨-, rfl⟩ | ⟨-, rfl⟩ | ⟨-, rfl | rfl | rfl | rfl⟩ := h <;> decide

/-- The state in which a step judges its frame keeps the exchange of the state before. -/
theorem ExchangeKnown.of_judged {s u : State} (h : ExchangeKnown s) (hj : Judged s u) : ExchangeKnown u :=
  h.congr hj.busy hj.fsm hj.tsu

theorem ExchangeKnown.detail_engineStep {s : State} (h : ExchangeKnown s) (hb : s.busy = true) (a : TrxAnswers)
    (hdetail : s.ctl.err.detail ≠ .diffInvalid) : (Machine.engineStep a s).ctl.err.detail ≠ .diffInvalid := by
  obtain ⟨l, he⟩ | ⟨c, d, u, hfail, -, he⟩ | ⟨u, hj, he⟩ := engineStep_cases (a := a) hb <;> rw [he]
  · exact hdetail
  · exact hfail.detail_ne_diffInvalid
  · have hdetail' : u.ctl.err.detail ≠ .diffInvalid := hj.err ▸ hdetail
    by_cases hf : u.ctl.fsm = .awaitingFinal
    · exact ((h.of_judged hj).rangeSound (hj.busy.trans hb) hf a).detail hdetail'
    · rw [err_carryOn a hf]
      exact hdetail'

/-- Settles O54: a step that polls or fails its own tests leaves the ranging registers, and one that computes a range does
so from a complete exchange with valid legs (`ExchangeKnown.rangeSound`). -/
theorem sessionNeverInvalid : Obligations.SessionNeverInvalid := by
  unfold Obligations.SessionNeverInvalid
  intro s a hmask htimes hdetail
  have h : ExchangeKnown s := (exchangeKnown_iff s).2 ⟨hmask, htimes⟩
  refine ⟨?_, fun hb hf hrange => ?_⟩
  · by_cases hb : s.busy = true
    · exact h.detail_engineStep hb a hdetail
    · rw [engineStep, if_neg hb]
      exact hdetail
  · obtain ⟨l, he⟩ | ⟨c, d, u, -, hj, he⟩ | ⟨u, hj, he⟩ := engineStep_cases (a := a) hb <;> rw [he] at hrange ⊢
    · exact absurd rfl hrange
    · exact absurd hj.rmu hrange
    · have hsound := (h.of_judged hj).rangeSound (hj.busy.trans hb) (hj.fsm.trans hf) a
      exact ⟨hsound.incomplete, hsound.invalid⟩

/-! ### The commands -/

/-- Settles O30: an accepted `SES.ANCHOR` is `startAnchor`. -/
theorem sesAnchorListens : Obligations.SesAnchorListens := by
  unfold Obligations.SesAnchorListens
  exact ⟨decode_wordOf (rd := 0) (ra := 0) (rb := 0) rfl rfl, fun s hb hf => ⟨startAnchor s, exec_sesAnchor hb hf, rfl,
    State.busy_setBusy true _, (statusKept_refl s).setStatusBit 0 true, rfl, rfl, rfl, rfl, rfl, rfl, rfl, rfl, rfl,
    octetsKept_of_bufs rfl rfl, rfl, rfl, rfl, rfl, rfl⟩⟩

/-- Settles O31: an accepted `SES.ADMIT` is `startAdmit`. -/
theorem sesAdmitListens : Obligations.SesAdmitListens := by
  unfold Obligations.SesAdmitListens
  exact ⟨decode_wordOf (rd := 0) (ra := 0) (rb := 0) rfl rfl, fun s hb hf => ⟨startAdmit s, exec_sesAdmit hb hf, rfl,
    State.busy_setBusy true _, (statusKept_refl s).setStatusBit 0 true, rfl, rfl, rfl, rfl, rfl, rfl, rfl, rfl, rfl,
    octetsKept_of_bufs rfl rfl, rfl, rfl, rfl, rfl, rfl⟩⟩

/-- Settles O32: an accepted `SES.CLEAR` is `returnToIdle`; test 1 of R95 rejects it while a session runs. -/
theorem sesClearReturns : Obligations.SesClearReturns := by
  unfold Obligations.SesClearReturns
  exact ⟨decode_wordOf (rd := 0) (ra := 0) (rb := 0) rfl rfl,
    fun s => ⟨exec_sesClear, fun hb => ⟨_, exec_busy hb .sesClear, onlyRejected_reject .busy s⟩⟩⟩

/-! ### The 32-bit fields of the FinalMessage -/

theorem ValidTs.of_eq_raw {v : Int} {t : Raw40} (h : v = t.toNat) : ValidTs v := h ▸ validTs_raw t

/-- The difference of two times of one clock, modulo its period. -/
theorem toNat_sub_raw (later earlier : Raw40) :
    ((later - earlier).toNat : Int) = ((later.toNat : Int) - earlier.toNat) % 2 ^ 40 := by
  have := later.isLt
  have := earlier.isLt
  rw [BitVec.toNat_sub]
  omega

/-- A difference below 2^32 ticks is the difference of the low 32 bits (R227). -/
theorem toNat_setWidth_sub {earlier later : Raw40} (h : (later - earlier).toNat < 2 ^ 32) :
    (later.setWidth 32 - earlier.setWidth 32 : BitVec 32).toNat = (later - earlier).toNat := by
  have := later.isLt
  have := earlier.isLt
  rw [BitVec.toNat_sub] at h ⊢
  rw [BitVec.toNat_sub, BitVec.toNat_setWidth, BitVec.toNat_setWidth]
  omega

/-- Settles O45: `TS.SUB` then `TS.WRAP` give the difference modulo 2^40 (`exec_sub_wrap`), which the low 32 bits give too. -/
theorem truncationLosesNothing : Obligations.TruncationLosesNothing := by
  unfold Obligations.TruncationLosesNothing
  intro earlier later s rd ra rb hb hlater hearlier hshort
  obtain ⟨t, u, hsub, hwrap, hdiff⟩ :=
    exec_sub_wrap hb rd (ValidTs.of_eq_raw hlater) (ValidTs.of_eq_raw hearlier)
  refine ⟨t, u, hsub, hwrap, ?_⟩
  rw [hdiff, hlater, hearlier, ← toNat_sub_raw, toNat_setWidth_sub hshort]

/-! ### The accepted Poll -/

/-- The anchor in `AwaitingPoll` with the Poll's sender as its peer and a new exchange that begins with the receive
timestamp (R222). -/
def beganExchange (a : TrxAnswers) (u : State) : State :=
  writeT prReg (rawValue a.rxTime)
    ((clearExchange { u with ses := { u.ses with peerAddr := u.rx.src } }).call .getReceiveTimestamp)

/-- A timestamp from the port fits its register (R273). -/
theorem beganExchange_eq (a : TrxAnswers) (u : State) :
    beganExchange a u = { u with
      tsu := (beganExchange a u).tsu
      ses := { u.ses with peerAddr := u.rx.src }
      calls := u.calls ++ [.getReceiveTimestamp] } := by
  rw [beganExchange, writeT_fits (fits_raw a.rxTime)]
  rfl

theorem readT_beganExchange (a : TrxAnswers) (u : State) (r : Reg) :
    readT r (beganExchange a u) =
      if r = prReg then (a.rxTime.toNat : Int) else if 8 ≤ r.val ∧ r.val ≤ 13 then 0 else readT r u := by
  rw [beganExchange, readT_writeT, sat_raw, readT_call, readT_clearExchange]
  rfl

theorem exchMask_beganExchange (a : TrxAnswers) (u : State) : (beganExchange a u).tsu.exchMask = 0b000010#6 :=
  markExch_prReg_zero

theorem wentTo_beganExchange {g : FsmState} {calls : List TrxCall} {s u : State} (h : WentTo g calls s u)
    (a : TrxAnswers) : WentTo g (calls ++ [.getReceiveTimestamp]) s (beganExchange a u) := by
  have h' := h.call .getReceiveTimestamp
  rw [beganExchange_eq]
  exact ⟨h'.fsm, h'.err, h'.ctrl, h'.cmdErrCode, h'.calls, h'.params, h'.sched, h'.replies, h'.free⟩

/-- The field registers of the ResponseToPoll to `peer` (R222). -/
def responseFields (peer : BitVec 16) (s : State) : Tx :=
  { s.tx with dst := peer, src := s.trx.shortAddr, act := s.params.actContinue }

theorem engineStep_poll {s : State} {a : TrxAnswers} {x : Tx} (hb : s.busy = true) (hf : s.ctl.fsm = .awaitingPoll)
    (hc : buffersCanonical s = true) (hp : Presents s a x .poll) (hdst : x.dst = s.trx.shortAddr) :
    engineStep a s = sentFrame .transmit .resp (responseFields x.src s) .responseSent
      (beganExchange a ((acceptedFrame a x .poll s).call .getOwnShortAddress)) := by
  obtain ⟨hw, -⟩ := (canonical_iff s).1 hc
  rw [engineStep_presented (k := .poll) hb hf hc hp]
  exact (if_neg (not_not.2 hdst)).trans (transmit_goto_eq_sentFrame .responseSent (x := responseFields x.src s)
    (v := beganExchange a ((acceptedFrame a x .poll s).call .getOwnShortAddress)) hw)

/-- Settles O43: the step is the ResponseToPoll sent in the state `beganExchange` leaves. -/
theorem pollAccepted : Obligations.PollAccepted := by
  unfold Obligations.PollAccepted
  intro s a x hb hf hc hp hdst
  obtain ⟨hw, -⟩ := (canonical_iff s).1 hc
  have hstep := engineStep_poll hb hf hc hp hdst
  have hbegan := beganExchange_eq a ((acceptedFrame a x .poll s).call .getOwnShortAddress)
  have htsu : (engineStep a s).tsu = (beganExchange a s).tsu := by rw [hstep]; rfl
  have hread (r : Reg) := (readT_congr htsu r).trans (readT_beganExchange a s r)
  obtain ⟨hheard, hstatus⟩ := heard_acceptedFrame (t := engineStep a s) (a := a) (x := x) (k := .poll) hc
    (by rw [hstep]; rfl) (by rw [hstep, hbegan]; rfl)
  refine ⟨?_, hheard, hstatus, ?_, hread 9, fun r hr => ?_, fun r hr => ?_, ?_, ?_, ?_⟩
  · rw [hstep]
    exact wentTo_sentFrame (x := responseFields x.src s)
      (wentTo_beganExchange ((wentTo_acceptedFrame a x .poll s).call .getOwnShortAddress) a)
  · rw [hstep]
    rfl
  · have hcleared : ∀ r ∈ ([8, 10, 11, 12, 13] : List Reg), r ≠ prReg ∧ 8 ≤ r.val ∧ r.val ≤ 13 := by decide
    obtain ⟨hother, hrange⟩ := hcleared r hr
    rw [hread, if_neg hother, if_pos hrange]
  · have hother : r ≠ prReg := fun h => hr (by rw [h]; decide)
    rw [hread, if_neg hother, ← readT_clearExchange]
    exact readT_clear_other hr s
  · rw [htsu]
    exact exchMask_beganExchange a s
  · constructor <;> rw [htsu] <;> rfl
  · rw [hstep]
    exact ⟨encoded_sentFrame (x := responseFields x.src s) rfl rfl hw, rfl, rfl⟩

/-! ### The accepted Blink -/

/-- The admitting anchor with the Blink's sender in `PEER_EUI`, its own addresses read (R241). -/
def blinkHeard (u : State) : State :=
  ({ u with ses := { u.ses with peerEui := u.rx.eui } }.call .getNetworkId).call .getOwnShortAddress

/-- The field registers of the RangingInitiation to `peer` (R241). -/
def initiationFields (peer : BitVec 64) (s : State) : Tx :=
  { s.tx with netId := s.trx.netId, eui := peer, src := s.trx.shortAddr, arg := s.ses.assignAddr }

theorem wentTo_blinkHeard {g : FsmState} {calls : List TrxCall} {s u : State} (h : WentTo g calls s u) :
    WentTo g (calls ++ [.getNetworkId] ++ [.getOwnShortAddress]) s (blinkHeard u) :=
  have h' := (h.call .getNetworkId).call .getOwnShortAddress
  ⟨h'.fsm, h'.err, h'.ctrl, h'.cmdErrCode, h'.calls, h'.params, h'.sched, h'.replies, h'.free⟩

theorem engineStep_blink {s : State} {a : TrxAnswers} {x : Tx} (hb : s.busy = true) (hf : s.ctl.fsm = .awaitingBlink)
    (hc : buffersCanonical s = true) (hp : Presents s a x .blink) :
    engineStep a s = sentFrame .transmit .rinit (initiationFields x.eui s) .initiationSent
      (blinkHeard (acceptedFrame a x .blink s)) := by
  obtain ⟨hw, -⟩ := (canonical_iff s).1 hc
  rw [engineStep_presented (k := .blink) hb hf hc hp]
  exact transmit_goto_eq_sentFrame .initiationSent (x := initiationFields x.eui s)
    (v := blinkHeard (acceptedFrame a x .blink s)) hw

/-- Settles O47: the step is the RangingInitiation sent in the state `blinkHeard` leaves. -/
theorem blinkAccepted : Obligations.BlinkAccepted := by
  unfold Obligations.BlinkAccepted
  intro s a x hb hf hc hp
  obtain ⟨hw, -⟩ := (canonical_iff s).1 hc
  have hstep := engineStep_blink hb hf hc hp
  obtain ⟨hheard, hstatus⟩ := heard_acceptedFrame (t := engineStep a s) (a := a) (x := x) (k := .blink) hc
    (by rw [hstep]; rfl) (by rw [hstep]; rfl)
  refine ⟨?_, hheard, hstatus, ?_⟩ <;> rw [hstep]
  · exact wentTo_sentFrame (x := initiationFields x.eui s) (wentTo_blinkHeard (wentTo_acceptedFrame a x .blink s))
  · exact ⟨rfl, encoded_sentFrame (x := initiationFields x.eui s) rfl rfl hw, rfl, rfl, rfl⟩

end Sys2Proof.Machine
end

section
/-! The statements of the family `60_exceptions.md`: the combinations of class and detail in `ERR` (O58), and the order in
which a wait state looks at a fault, its event and the timeout (O48). Besides the start of a session, which clears it,
`ERR` is written by `FC.DEC`, by a step's own tests (`StepFailure`) and by the anchor's ranging step; a wait state without
its event is `s.polled calls`, or fails from there. -/

namespace Sys2Proof.Machine

/-! ### The combinations `ERR` may hold -/

theorem errLegal_congr {s t : State} (herr : t.ctl.err = s.ctl.err) (h : errLegal s = true) : errLegal t = true := by
  rw [errLegal, herr]; exact h

/-- `ERR` with the class and detail of one of a step's own failures (R260). -/
theorem StepFailure.errLegal {c : ErrClass} {d : ErrDetail} (h : StepFailure c d) {t : State} {f : FsmState}
    (herr : t.ctl.err = ⟨c, d, f⟩) : errLegal t = true := by
  rw [Machine.errLegal, herr]
  obtain ⟨rfl, rfl⟩ | ⟨rfl, rfl⟩ | ⟨rfl, rfl | rfl | rfl | rfl⟩ := h <;> rfl

@[simp] theorem err_writeQuotient (rd : Reg) (a d : Int) (s : State) : (writeQuotient rd a d s).ctl.err = s.ctl.err := by
  unfold writeQuotient; split <;> simp [writeT]

/-- `FC.DEC` records only the two failures of a decode (R177 (a)). -/
theorem errLegal_decodeCommand (k : Kind) {s : State} (h : errLegal s = true) : errLegal (decodeCommand k s) = true := by
  obtain ⟨-, -, -, -, herr | ⟨d, hd, herr⟩⟩ := decodeCommand_keeps k s
  · exact errLegal_congr herr h
  · have hfail : StepFailure .protocolViolation d := .inr (.inr ⟨rfl, hd.elim .inl (.inr ∘ .inl)⟩)
    exact hfail.errLegal herr

theorem errLegal_commandBody (i : Instr) {s : State} (h : errLegal s = true) : errLegal (commandBody i s) = true := by
  cases i with
  | rngCompute =>
    obtain ⟨hctl, -⟩ := computeRange_keeps s
    exact errLegal_congr (congrArg Ctl.err hctl) h
  | fcEnc k =>
    simp only [commandBody]
    split <;> exact h
  | fcDec k =>
    simp only [commandBody]
    split
    · exact h
    · exact errLegal_decodeCommand _ h
  | sesTag | sesAnchor | sesAdmit =>
    simp only [commandBody]
    split
    · rfl
    · exact h
  | sesClear => exact h
  | _ => exact errLegal_congr (by simp [commandBody, writeT, writeConv]) h

/-- The anchor's ranging step records `RangeInvalid` with one of its two details, or nothing (R228, R229). -/
theorem errLegal_rangeExchange {s : State} (h : errLegal s = true) : errLegal (rangeExchange s) = true := by
  obtain ⟨hctl, -⟩ := computeRange_keeps s
  have herr := congrArg Ctl.err hctl
  obtain ⟨-, he⟩ | ⟨-, -, he⟩ | ⟨-, -, he⟩ := rangeExchange_cases s <;> rw [he]
  · rfl
  · rfl
  · exact errLegal_congr herr h

theorem errLegal_carryOn (a : TrxAnswers) {u : State} (h : errLegal u = true) : errLegal (carryOn a u) = true := by
  by_cases hf : u.ctl.fsm = .awaitingFinal
  · rw [carryOn_awaitingFinal hf]
    have herr : (completedExchange a u).ctl.err = u.ctl.err := by rw [completedExchange_eq]
    exact errLegal_rangeExchange (errLegal_congr herr h)
  · exact errLegal_congr (err_carryOn a hf) h

theorem errLegal_engineStep (a : TrxAnswers) {s : State} (h : errLegal s = true) (hb : s.busy = true) :
    errLegal (engineStep a s) = true := by
  obtain ⟨l, he⟩ | ⟨c, d, u, hfail, -, he⟩ | ⟨u, hj, he⟩ := engineStep_cases (a := a) hb <;> rw [he]
  · exact h
  · exact hfail.errLegal (raiseErr_err c d u)
  · exact errLegal_carryOn a (errLegal_congr hj.err h)

theorem preserved_errLegal : Preserved (errLegal · = true) where
  outside _ _ _ h := h
  reject _ _ h := h
  reply _ _ h := h
  writeStatus _ _ h := h
  writeReg _ _ _ _ h _ hw := by
    obtain ⟨-, -, -, -, -, -, herr, -⟩ := writeReg_some hw
    exact errLegal_congr herr h
  bufWrite _ _ _ h _ _ := h
  command _ i h _ := errLegal_commandBody i h
  session _ a h hb := errLegal_engineStep a h hb
  reset _ := rfl

/-- Settles O58: in every case of `Preserved` `ERR` is left alone, cleared, or written with a combination R260 lists. -/
theorem errStaysLegal : Obligations.ErrStaysLegal := by
  unfold Obligations.ErrStaysLegal
  exact fun _ _ h hstep => preserved_errLegal.step h hstep

/-! ### A wait state without its event -/

/-- The state after a wait state has made these calls and nothing else. -/
def State.polled (calls : List TrxCall) (s : State) : State := { s with calls := s.calls ++ calls }

/-- What a failure after polls alone does (R263 to R265): nothing was received, so `RXBUF` and `RXLEN` stay too. -/
theorem raiseErr_polled_effect (c : ErrClass) (d : ErrDetail) (calls : List TrxCall) (s : State) :
    FailedWith c d s (raiseErr c d (s.polled calls)) ∧ FailedQuietly calls s (raiseErr c d (s.polled calls)) ∧
      StatusKept [0] s (raiseErr c d (s.polled calls)) ∧ (raiseErr c d (s.polled calls)).rx = s.rx :=
  ⟨failedWith_raiseErr c d rfl rfl, failedQuietly_raiseErr c d rfl rfl rfl rfl rfl rfl rfl rfl rfl rfl rfl rfl,
    statusKept_raiseErr c d (u := s.polled calls) (statusKept_refl s), rfl⟩

section
variable {s : State} {a : TrxAnswers} (hb : s.busy = true)
include hb

/-- A fault comes before any event, in both kinds of wait state (R263, R265). -/
theorem engineStep_hwFault (hf : s.ctl.fsm ∈ transmitWaits ++ receiveWaits) (hfault : a.hwFault = true) :
    engineStep a s = raiseErr .hardwareFault .none (s.polled [.isHardwareFault]) := by
  obtain hf | hf := List.mem_append.1 hf
  · rw [engineStep_transmit hb hf, transmitWait, if_pos hfault]; rfl
  · rw [engineStep_receive hb hf, receiveWait, if_pos hfault]; rfl

theorem engineStep_transmit_pending (hf : s.ctl.fsm ∈ transmitWaits) (hfault : a.hwFault = false) (hdone : a.txDone = false) :
    engineStep a s = s.polled [.isHardwareFault, .isTransmitDone] := by
  rw [engineStep_transmit hb hf]
  simp [transmitWait, hfault, hdone, State.call, State.polled]

section
variable (hf : s.ctl.fsm ∈ receiveWaits) (hfault : a.hwFault = false) (hdone : a.rxDone = false)
include hf hfault hdone

theorem engineStep_timedOut (htimeout : a.rxTimedOut = true) :
    engineStep a s = raiseErr .exchangeTimeout .none
      (s.polled [.isHardwareFault, .isReceiveDone, .isReceiveTimedOut, .forceIdle]) := by
  rw [engineStep_receive hb hf]
  simp [receiveWait, hfault, hdone, htimeout, State.call, State.polled]

theorem engineStep_receive_pending (htimeout : a.rxTimedOut = false) :
    engineStep a s = s.polled [.isHardwareFault, .isReceiveDone, .isReceiveTimedOut] := by
  rw [engineStep_receive hb hf]
  simp [receiveWait, hfault, hdone, htimeout, State.call, State.polled]

end
end

/-- Settles O48: each of the four outcomes is one equation for the step, and the two failures have the same effect. -/
theorem waitStatePriorities : Obligations.WaitStatePriorities := by
  unfold Obligations.WaitStatePriorities
  intro s a hb
  refine ⟨fun hf hfault => ?_, fun hf hfault hdone => ?_, fun hf hfault hdone htimeout => ?_,
    fun hf hfault hdone htimeout => ?_⟩
  · rw [engineStep_hwFault hb hf hfault]
    exact raiseErr_polled_effect ..
  · exact engineStep_transmit_pending hb hf hfault hdone
  · rw [engineStep_timedOut hb hf hfault hdone htimeout]
    exact raiseErr_polled_effect ..
  · exact engineStep_receive_pending hb hf hfault hdone htimeout

end Sys2Proof.Machine
end
